-- ==== Sys2Proof/Word.lean ====
section
/-!
DEFINITION. Word.lean: the widths of the hardware. A register, a sequence element and a tensor element are one
32-bit word (00_scope.md R7 "fixed values", 10_state.md section 3, 20_memory.md R40); memory is byte-addressed (10_state.md R18).
-/
namespace Sys2Proof

/-- A 32-bit word: a register, or one binary32 element (R11). -/
abbrev Word := BitVec 32

/-- The smallest addressable unit of memory (R18). -/
abbrev Byte := BitVec 8

end Sys2Proof
end

