-- ==== Sys2Proof/Config.lean ====
section
/-!
DEFINITION. Config.lean: what an implementation of CORE fixes (the parameters of 00_scope.md R7) and the values the
spec leaves open.

The parameters that are plain data (`W`, `HRED_ORDER`, `CORE_BASE`, `MEM`) are the structure `Params`. A state carries
one `Params` that no step changes (R36), so that a statement about every state is a statement about every admitted
parameter value; the machine's own parameters are the constant `Config.params`, which has no body. `NAN_PAYLOAD`,
`LATENCY` and the free values are functions with no body.
-/
namespace Sys2Proof

/-- `W`, the lane width: 4 or 8 (R7, OPEN by D3). -/
inductive LaneWidth where
  | four
  | eight
deriving DecidableEq, Repr, Inhabited

/-- The number of lanes `W` stands for. -/
def LaneWidth.lanes : LaneWidth → Nat
  | .four => 4
  | .eight => 8

/-- `HRED_ORDER`, the order of the horizontal reduction (R7, R67, OPEN by D4). -/
inductive HredOrder where
  | linear
  | pairwise
deriving DecidableEq, Repr, Inhabited

/-- A byte range `[base, base + 4*count)`, in words (R46). Bases and counts are unbounded integers (R9). -/
structure Region where
  base : Nat
  count : Nat
deriving DecidableEq, Repr, Inhabited

/-- `MEM`, the platform's memory map as plain data (R7, R41, OPEN by D7): the word addresses that answer `ERROR` to a
read, those that answer `ERROR` to a write, the regions that are no ordinary memory (R120), and the base addresses of
the register windows of other CORE instances (R110, R121). Every other word address is ordinary memory that answers. -/
structure MemMap where
  readErrors : List Region
  writeErrors : List Region
  devices : List Region
  otherWindows : List Nat
deriving DecidableEq, Repr, Inhabited

/-- The plain-data parameters of R7. `CORE_BASE` is 256-byte aligned, so it is held as its page number. -/
structure Params where
  laneWidth : LaneWidth
  hredOrder : HredOrder
  basePage : BitVec 24
  memMap : MemMap
deriving DecidableEq, Repr, Inhabited

/-- The two floating-point operations of CORE (R11), as `NAN_PAYLOAD` tells them apart (R12 item 5). -/
inductive FloatOp where
  | mul
  | add
deriving DecidableEq, Repr, Inhabited

/-- The parameters of the machine at hand (R7): no value is assumed. -/
opaque Config.params : Params

/-- The bits from which `NAN_PAYLOAD` builds its NaN encoding (R12 item 5; `nanPayload` in Machine/Float.lean sets the
exponent and keeps the fraction non-zero, and reaches every NaN encoding). Nothing else is assumed of it (S3). -/
opaque Config.nanBits : FloatOp → Word → Word → Word

/-- `LATENCY` (R7, R126, OPEN by D23): how many inputs the register port and the other agents are served between an
acceptance and the completion, finite and with no bound. The argument is the draw counter at the acceptance. -/
opaque Config.latency : Nat → Nat

/-- A free value: the word of the n-th draw. Every "unspecified" and "any value" of the spec (R31, R47, R101, R116,
R119) is a draw of its own, so that no two of them are related. -/
opaque Config.freeWord : Nat → Word

end Sys2Proof
end

