-- ==== Sys2Proof/Syntax.lean ====
section
/-!
DEFINITION. Syntax.lean: the six commands of CORE (00_scope.md R3, 30_encoding.md R55, R58, R59), one constructor per row of
spec/opcode_table.json. A command is the opcode with the operand words it uses (R58); an unused word is no part of it.
Operands are the unsigned numbers of R64, used as unbounded integers (R9, R57); that each fits 32 bits is
WellFormed.lean's check.
-/
namespace Sys2Proof

/-- A command with its operands, in the order of the command tuple of R55. -/
inductive Instr where
  /-- `DOT.S` (R72): sequences at `a` and `b`, result at `d`, lengths `LEN_A` and `LEN_B`, capacity `LEN_C`. -/
  | dotS (a b d la lb lc : Nat)
  /-- `DOT.V` (R73). -/
  | dotV (a b d la lb lc : Nat)
  /-- `TMUL.S` (R79): tensors at `a` and `b`, product at `d`; no length is used. -/
  | tmulS (a b d : Nat)
  /-- `TMUL.V` (R80). -/
  | tmulV (a b d : Nat)
  /-- `CONV.S` (R87): Signal at `x` of length `l1`, Response at `h` of length `l2`, Output at `y` of capacity `lc`. -/
  | convS (x h y l1 l2 lc : Nat)
  /-- `CONV.V` (R88). -/
  | convV (x h y l1 l2 lc : Nat)
deriving DecidableEq, Repr

end Sys2Proof
end

