-- ==== Sys2Proof/WellFormed.lean ====
section
/-!
DEFINITION. WellFormed.lean: the form of a command. An address and a count are unsigned numbers below `2^32`
(30_encoding.md R57, R64). Nothing else is a matter of form: alignment, range, overlap and lengths are checked by the
running command, which reports them in `STATUS` (60_exceptions.md R99).
-/
namespace Sys2Proof

/-- An address operand fits its 32-bit register (R57, R64). -/
def addressFits (n : Nat) : Bool := decide (n < 2 ^ 32)

/-- A count operand fits its 32-bit register (R57, R64). -/
def countFits (n : Nat) : Bool := decide (n < 2 ^ 32)

/-- Every operand of the command fits its register. -/
def Instr.wf : Instr → Bool
  | .dotS a b d la lb lc | .dotV a b d la lb lc
  | .convS a b d la lb lc | .convV a b d la lb lc =>
    addressFits a && addressFits b && addressFits d && countFits la && countFits lb && countFits lc
  | .tmulS a b d | .tmulV a b d => addressFits a && addressFits b && addressFits d

end Sys2Proof
end

