-- ==== Sys2Proof/Decode.lean ====
section
/-!
DEFINITION. Decode.lean: the command tuple (30_encoding.md R55), its decoder (R60) and its encoder (R59).
-/
namespace Sys2Proof

/-- The 7-word tuple that is a command (R55): the seven registers at acceptance. -/
structure CommandWords where
  cmd : Word
  srcA : Word
  srcB : Word
  dst : Word
  lenA : Word
  lenB : Word
  lenC : Word
deriving DecidableEq, Repr

/-- Why a `CMD` word is illegal (R61). -/
inductive Illegal where
  /-- `CMD[31:5] != 0`. -/
  | reservedBits
  /-- `CMD[3:0]` is `0x0` or `0x4` to `0xF` (R62). -/
  | reservedOp
deriving DecidableEq, Repr

/-- What a command tuple decodes to: a command or `ILLEGAL` (R60), with the reason by name. -/
inductive Decoded where
  | command (i : Instr)
  | illegal (why : Illegal)
deriving DecidableEq, Repr

/-- The `OP` field of `CMD`, bits 3:0 (R56). -/
def opField (cmd : Word) : Nat := (cmd.extractLsb' 0 4).toNat

/-- The `V` bit of `CMD`, bit 4 (R56). -/
def vBit (cmd : Word) : Bool := cmd.getLsbD 4

/-- The reserved field of `CMD`, bits 31:5 (R56). -/
def reservedField (cmd : Word) : Nat := (cmd.extractLsb' 5 27).toNat

/-- The decode of an accepted command (R60). Total; the reserved field is looked at first. Operands are whole register
values, zero-extended (R57); TMUL drops the length words (R58). -/
def decode (c : CommandWords) : Decoded :=
  if reservedField c.cmd ≠ 0 then .illegal .reservedBits
  else
    let a := c.srcA.toNat
    let b := c.srcB.toNat
    let d := c.dst.toNat
    let la := c.lenA.toNat
    let lb := c.lenB.toNat
    let lc := c.lenC.toNat
    match opField c.cmd with
    | 1 => .command (if vBit c.cmd then .dotV a b d la lb lc else .dotS a b d la lb lc)
    | 2 => .command (if vBit c.cmd then .tmulV a b d else .tmulS a b d)
    | 3 => .command (if vBit c.cmd then .convV a b d la lb lc else .convS a b d la lb lc)
    | _ => .illegal .reservedOp

/-- The tuple with a given `CMD` word and six operand numbers, each in its 32-bit register. -/
def commandWords (cmd : Word) (a b d la lb lc : Nat) : CommandWords :=
  { cmd := cmd, srcA := BitVec.ofNat 32 a, srcB := BitVec.ofNat 32 b, dst := BitVec.ofNat 32 d,
    lenA := BitVec.ofNat 32 la, lenB := BitVec.ofNat 32 lb, lenC := BitVec.ofNat 32 lc }

/-- The words of a command, from the opcode map of R59 and the operand table of R58; an unused word is zero. -/
def encode : Instr → CommandWords
  | .dotS a b d la lb lc => commandWords 0x00000001#32 a b d la lb lc
  | .dotV a b d la lb lc => commandWords 0x00000011#32 a b d la lb lc
  | .tmulS a b d => commandWords 0x00000002#32 a b d 0 0 0
  | .tmulV a b d => commandWords 0x00000012#32 a b d 0 0 0
  | .convS x h y l1 l2 lc => commandWords 0x00000003#32 x h y l1 l2 lc
  | .convV x h y l1 l2 lc => commandWords 0x00000013#32 x h y l1 l2 lc

/-- The command tuple whose bits are the `nbits` low bits of `w`, every higher bit 0: `CMD` in bits 31:0 and the
operand words above it, in the order of R55. -/
def wordsOfNumber (nbits w : Nat) : CommandWords :=
  let v := w % 2 ^ nbits
  commandWords (BitVec.ofNat 32 v) (v / 2 ^ 32) (v / 2 ^ 64) (v / 2 ^ 96) (v / 2 ^ 128) (v / 2 ^ 160) (v / 2 ^ 192)

/-- The command the decoder reads from a word numbered as spec/opcode_table.json numbers it. -/
def decodeTableWord (nbits w : Nat) : Option Instr :=
  match decode (wordsOfNumber nbits w) with
  | .command i => some i
  | .illegal _ => none

/-- The mnemonic of a command (R59, R64). -/
def mnemonic : Instr → String
  | .dotS _ _ _ _ _ _ => "DOT.S"
  | .dotV _ _ _ _ _ _ => "DOT.V"
  | .tmulS _ _ _ => "TMUL.S"
  | .tmulV _ _ _ => "TMUL.V"
  | .convS _ _ _ _ _ _ => "CONV.S"
  | .convV _ _ _ _ _ _ => "CONV.V"

/-- Operands of the assembler syntax: keyword and decimal number, in the order shown in R64. -/
def operandText : List (String × Nat) → String
  | [] => ""
  | [(k, n)] => k ++ "=" ++ toString n
  | (k, n) :: rest => k ++ "=" ++ toString n ++ ", " ++ operandText rest

/-- A command in the assembler syntax of R64, which writes one length for a DOT: a tuple with two lengths has none. -/
def assemblerText (i : Instr) : Option String :=
  match i with
  | .dotS a b d la lb lc | .dotV a b d la lb lc =>
    if la = lb then
      some (mnemonic i ++ " " ++ operandText [("a", a), ("b", b), ("d", d), ("n", la), ("cap", lc)])
    else none
  | .tmulS a b d | .tmulV a b d => some (mnemonic i ++ " " ++ operandText [("a", a), ("b", b), ("d", d)])
  | .convS x h y l1 l2 lc | .convV x h y l1 l2 lc =>
    some (mnemonic i ++ " " ++ operandText [("x", x), ("h", h), ("y", y), ("l1", l1), ("l2", l2), ("cap", lc)])

end Sys2Proof
end

