-- ==== Sys2Proof/Machine/State.lean ====
section
/-!
DEFINITION. Machine/State.lean: the state of CORE and of the memory around it, as plain data; why a step can stop; the
state right after reset (10_state.md, 70_reset_and_hazards.md).
-/
namespace Sys2Proof.Machine

/-- `PHASE` (R32). -/
inductive Phase where
  | idle
  | busy
deriving DecidableEq, Repr

/-- The position reached in a running command's pseudocode (R32): the output word and the pair in hand. -/
structure Position where
  out : Nat
  pair : Nat
deriving DecidableEq, Repr

/-- The lane-group state (R31): `LG_A`, `LG_B` (W words each), `GCNT` and `ACC`. -/
structure Lanes where
  lgA : List Word
  lgB : List Word
  gcnt : Nat
  acc : Word
deriving DecidableEq, Repr

/-- The error codes of R97, by name. `ALIAS` is `aliased`. -/
inductive ErrCode where
  | illegalCmd
  | lenZero
  | lenMismatch
  | dstSmall
  | misaligned
  | range
  | aliased
  | bus
deriving DecidableEq, Repr

/-- What the world outside does to CORE and to memory, one transaction each (R35, R65). -/
inductive Input where
  /-- `RegWrite(offset, data, size)` on the register port; `WR32` has size 4. -/
  | regWrite (offset : BitVec 8) (data : Word) (size : Nat)
  /-- `RegRead(offset, size)` on the register port; `RD32` has size 4. -/
  | regRead (offset : BitVec 8) (size : Nat)
  /-- A write of bytes to memory by the host, another CORE instance or another bus master; `MW32` writes 4 bytes. -/
  | memWrite (addr : Word) (data : List Byte)
  /-- A read of bytes of memory by the host; `MR32` reads 4 bytes. -/
  | memRead (addr : Word) (size : Nat)
  /-- The pseudo-instruction `WAIT` (R66): polls `STATUS` until `DONE`. -/
  | wait
  /-- The reset input is asserted (true) or deasserted (false) (R115). -/
  | rst (asserted : Bool)
deriving DecidableEq, Repr

/-- What a read answered. -/
inductive Reply where
  /-- The word of an aligned 32-bit register read. -/
  | word (w : Word)
  /-- A register read of another width or alignment: 0 in every byte it returns (R30). -/
  | zeros (size : Nat)
  /-- The bytes of a memory read, lowest address first. -/
  | bytes (bs : List Byte)
deriving DecidableEq, Repr

/-- Memory: the listed bytes, addresses strictly rising and no entry zero; an unlisted address reads as zero (log 5). -/
abbrev Memory := List Host.Cell

/-- The whole machine. INVENTORY.md's State section names the rule of every field. -/
structure State where
  /-- The parameters of R7; no step changes them (R36). -/
  params : Params
  cmd : Word
  status : Word
  srcA : Word
  srcB : Word
  dst : Word
  lenA : Word
  lenB : Word
  lenC : Word
  phase : Phase
  /-- None when idle (R32). -/
  position : Option Position
  lanes : Lanes
  mem : Memory
  /-- The reset input is asserted (R115). -/
  rst : Bool
  /-- Transactions not yet served, oldest first (model's own, log 3). -/
  inputs : List Input
  /-- Answers of reads, oldest first (model's own, log 3). -/
  replies : List Reply
  /-- Inputs that may still be served before the running command completes (model's own, log 2). -/
  latency : Nat
  /-- A used region of the running command was written by another agent (R119; model's own, log 20). -/
  raced : Bool
  /-- Free values drawn so far (model's own, log 9). -/
  draws : Nat
deriving DecidableEq, Repr

/-- The machine stops with a fault. -/
inductive Fault where
  /-- Raised by a memory access of the host or another agent (`Input.memWrite`, `Input.memRead`) that passes `2^32`:
  the address space has `2^32` bytes (R18). Safe: the spec gives such an access no meaning. -/
  | addressOutside
deriving DecidableEq, Repr

/-- The model gives the situation no meaning. -/
inductive Refusal where
  /-- Answered by exec's arm of a command that has no meaning yet; no arm of this model answers it. Safe. -/
  | notModelled (mnemonic : String)
  /-- A used region of the running command covers a CORE register window; "A model must refuse such a command" (R121).
  Raised by every command's meaning and by a step while such a command runs. Safe. -/
  | regionCoversWindow
  /-- A used region of the running command covers a device or memory with read side effects; "a model must refuse such a
  command" (R120). Raised by every command's meaning and by a step while such a command runs. Safe. -/
  | regionCoversDevice
deriving DecidableEq, Repr

/-- The lane-group state after reset (R37): `GCNT` is 0; the other values are unspecified there and are zero here
(DESIGN CHOICE, log 4; an acceptance makes them free). -/
def Lanes.atReset (w : Nat) : Lanes :=
  { lgA := List.replicate w 0#32, lgB := List.replicate w 0#32, gcnt := 0, acc := 0#32 }

/-- The machine right after reset (R37, R115): idle, every register zero, no transaction pending, no byte listed. -/
def State.reset : State :=
  { params := Config.params, cmd := 0#32, status := 0#32, srcA := 0#32, srcB := 0#32, dst := 0#32,
    lenA := 0#32, lenB := 0#32, lenC := 0#32, phase := .idle, position := none,
    lanes := Lanes.atReset Config.params.laneWidth.lanes, mem := [], rst := false, inputs := [], replies := [],
    latency := 0, raced := false, draws := 0 }

end Sys2Proof.Machine
end

