-- ==== Sys2Proof/Machine/Flags.lean ====
section
/-!
DEFINITION. Machine/Flags.lean: CORE has no condition codes and no floating-point flags (10_state.md R17); the only status it
keeps is `STATUS` (R22). This file holds the fields and values of `STATUS`, the error codes of 60_exceptions.md R97 and the
constant `ID` (R19).
-/
namespace Sys2Proof.Machine

/-- The number of an error code (R97). -/
def ErrCode.number : ErrCode → Nat
  | .illegalCmd => 1
  | .lenZero => 2
  | .lenMismatch => 3
  | .dstSmall => 4
  | .misaligned => 5
  | .range => 6
  | .aliased => 7
  | .bus => 8

/-- `STATUS.BUSY`, bit 0 (R22). -/
def statusBusy (w : Word) : Bool := w.getLsbD 0

/-- `STATUS.DONE`, bit 1 (R22). -/
def statusDone (w : Word) : Bool := w.getLsbD 1

/-- `STATUS.ERR`, bit 2 (R22). -/
def statusErr (w : Word) : Bool := w.getLsbD 2

/-- `STATUS.ERRCODE`, bits 11:8 (R22). -/
def statusErrCode (w : Word) : Nat := (w.extractLsb' 8 4).toNat

/-- `STATUS` from an acceptance on: `BUSY = 1`, every other bit 0 (R20, R22). -/
def acceptedStatus : Word := 0x00000001#32

/-- `STATUS` after a completion without error (R102). -/
def okStatus : Word := 0x00000002#32

/-- `STATUS` after an error: `zext_32({code[3:0], 5'b00000, 1'b1, 1'b1, 1'b0})` (R101). -/
def errorStatus (e : ErrCode) : Word :=
  (BitVec.ofNat 4 e.number ++ 0#5 ++ 1#1 ++ 1#1 ++ 0#1).setWidth 32

/-- `LOG2W` (R19). -/
def log2W : LaneWidth → Nat
  | .four => 2
  | .eight => 3

/-- `HRED_ORDER_CODE` (R19). -/
def hredOrderCode : HredOrder → Nat
  | .linear => 0
  | .pairwise => 1

/-- `ID`: `{26'b0, HRED_ORDER_CODE[1:0], LOG2W[3:0]}` (R19). -/
def idWord (p : Params) : Word :=
  (0#26 ++ BitVec.ofNat 2 (hredOrderCode p.hredOrder) ++ BitVec.ofNat 4 (log2W p.laneWidth)).setWidth 32

end Sys2Proof.Machine
end

