-- ==== Sys2Proof/Machine/Float.lean ====
section
/-!
DEFINITION. Machine/Float.lean: binary32 numbers and the two operations of CORE, `fmul` and `fadd` (00_scope.md R11, R12).

A finite number is an integer multiple of `2^-149`, the smallest subnormal. Operands are turned into that integer, the
result is computed exactly, and it is rounded once, to nearest with ties to even.
-/
namespace Sys2Proof.Machine

/-- Bit 31, the sign (R11). -/
def signBit (w : Word) : Bool := w.getLsbD 31

/-- Bits 30:23, the biased exponent (R11). -/
def expField (w : Word) : Nat := (w.extractLsb' 23 8).toNat

/-- Bits 22:0, the fraction (R11). -/
def fracField (w : Word) : Nat := (w.extractLsb' 0 23).toNat

/-- Exponent `0xFF` and a non-zero fraction: a NaN encoding (R12 item 5). -/
def isNaN (w : Word) : Bool := expField w == 255 && fracField w != 0

/-- Exponent `0xFF` and a zero fraction: an infinity. -/
def isInf (w : Word) : Bool := expField w == 255 && fracField w == 0

/-- Neither an infinity nor a NaN. -/
def isFinite (w : Word) : Bool := expField w != 255

/-- A zero of either sign. -/
def isZero (w : Word) : Bool := expField w == 0 && fracField w == 0

/-- The magnitude of a finite number, in units of `2^-149`; subnormals count at their value (R12 item 2). -/
def magnitude (w : Word) : Nat :=
  if expField w = 0 then fracField w else (2 ^ 23 + fracField w) * 2 ^ (expField w - 1)

/-- The value of a finite number, in units of `2^-149`. -/
def units (w : Word) : Int := if signBit w then -(magnitude w : Int) else (magnitude w : Int)

/-- The word with a sign and a 31-bit exponent-and-fraction field. -/
def packSign (negative : Bool) (field : Nat) : Word :=
  BitVec.ofNat 32 (field + if negative then 2 ^ 31 else 0)

/-- The exponent-and-fraction field of infinity. -/
def infField : Nat := 0x7F800000

/-- Round-to-nearest, ties-to-even (R12 item 1): `num` counts units of `2^-(149+sh)`, and the result is the 31-bit
exponent-and-fraction field of the rounded magnitude. `2^q` units of `2^-149` is the spacing of the 24-bit significands
around the value; a significand that rounds up to `2^24` carries into the exponent; overflow gives infinity (item 3). -/
def roundMagnitude (num sh : Nat) : Nat :=
  let q := num.log2 - (sh + 23)
  let d := 2 ^ (sh + q)
  let m := num / d
  let r := num % d
  let m' := if d < 2 * r ∨ (2 * r = d ∧ m % 2 = 1) then m + 1 else m
  min (q * 2 ^ 23 + m') infField

/-- `NAN_PAYLOAD(op, a, b)` (R12 item 5): a NaN encoding that depends on the operation and the operand words alone. The
bits are `Config.nanBits`' own, but for the exponent and a fraction of 0, which is read as `0x400000`. -/
def nanPayload (op : FloatOp) (a b : Word) : Word :=
  let bits := Config.nanBits op a b
  packSign (signBit bits) (infField + if fracField bits = 0 then 0x400000 else fracField bits)

/-- The binary32 product, rounded once (R11, R12). -/
def fmul (a b : Word) : Word :=
  let negative := signBit a != signBit b
  if isNaN a || isNaN b then nanPayload .mul a b
  else if (isInf a && isZero b) || (isZero a && isInf b) then nanPayload .mul a b
  else if isInf a || isInf b then packSign negative infField
  else packSign negative (roundMagnitude (magnitude a * magnitude b) 149)

/-- The binary32 sum, rounded once (R11, R12). An exact zero sum is `+0.0` unless both operands are `-0.0` (item 4). -/
def fadd (a b : Word) : Word :=
  if isNaN a || isNaN b then nanPayload .add a b
  else if isInf a && isInf b && (signBit a != signBit b) then nanPayload .add a b
  else if isInf a then a
  else if isInf b then b
  else
    let exact := units a + units b
    if exact = 0 then packSign (signBit a && signBit b) 0
    else packSign (decide (exact < 0)) (roundMagnitude exact.natAbs 0)

end Sys2Proof.Machine
end

