-- ==== Sys2Proof/Machine/Lanes.lean ====
section
/-!
DEFINITION. Machine/Lanes.lean: horizontal reduction, lane-wise product, partial-group flush and the two dot products over the
lane-group state (40_reduction.md R67 to R71), and the 4-lane group of the tensor multiply (41_tensor_multiply.md R80 to R83).

A `Kernel` is the way one output word is reduced from its ordered pairs: what it does before the first pair, with the
pair of a given index, and after the last.
-/
namespace Sys2Proof.Machine

/-- `+0.0` (R11). -/
def plusZero : Word := 0x00000000#32

/-- The `PAIRWISE` halving `PW(p, lo, hi)` of R67; `fuel` bounds the depth (`hi - lo` is enough). -/
def hredPairwise (p : List Word) : Nat → Nat → Nat → Word
  | 0, lo, _ => p.getD lo plusZero
  | fuel + 1, lo, hi =>
    if hi - lo = 1 then p.getD lo plusZero
    else
      let mid := (lo + hi) / 2
      fadd (hredPairwise p fuel lo mid) (hredPairwise p fuel mid hi)

/-- The `LINEAR` left fold of R67. -/
def hredLinear (p : List Word) : Word :=
  p.tail.foldl fadd (p.getD 0 plusZero)

/-- `HRED_m(p[0..m-1])` with `m` the length of `p` (R67). -/
def hred (order : HredOrder) (p : List Word) : Word :=
  match order with
  | .linear => hredLinear p
  | .pairwise => hredPairwise p p.length 0 p.length

/-- `LPROD_m(G, H)`: one rounded product per lane (R68). -/
def lprod (g h : List Word) : List Word := List.zipWith fmul g h

/-- How one output word is computed from its pairs, over the lane-group state. -/
structure Kernel where
  start : Lanes → Lanes
  commit : Nat → Lanes → Word → Word → Lanes
  finish : Lanes → Lanes × Word

/-- The output word of a list of pairs, and the lane-group state it leaves. -/
def Kernel.run (k : Kernel) (pairs : List (Word × Word)) (l : Lanes) : Lanes × Word :=
  k.finish (pairs.zipIdx.foldl (fun l p => k.commit p.2 l p.1.1 p.1.2) (k.start l))

/-- `SCALAR_DOT` (R71): strict left-to-right from `+0.0`; `LG_A`, `LG_B` and `GCNT` are not touched. -/
def scalarKernel : Kernel where
  start l := { l with acc := plusZero }
  commit _ l u v := { l with acc := fadd l.acc (fmul u v) }
  finish l := (l, l.acc)

/-- One `LPROD_W`, one `HRED_W` and one addition into `ACC`; the group is empty again (R69, R70). -/
def reduceGroup (order : HredOrder) (l : Lanes) : Lanes :=
  { l with acc := fadd l.acc (hred order (lprod l.lgA l.lgB)), gcnt := 0 }

/-- A pair goes to the next free lane; a full group is reduced (R70). -/
def commitPair (w : Nat) (order : HredOrder) (l : Lanes) (u v : Word) : Lanes :=
  let l' := { l with lgA := l.lgA.set l.gcnt u, lgB := l.lgB.set l.gcnt v, gcnt := l.gcnt + 1 }
  if l'.gcnt = w then reduceGroup order l' else l'

/-- Lanes `GCNT` to `W-1` of a group become `+0.0` (R69). -/
def padGroup (w gcnt : Nat) (g : List Word) : List Word :=
  g.take gcnt ++ List.replicate (w - gcnt) plusZero

/-- The partial-group flush (R69): a group with committed pairs is padded, both operands, and reduced. -/
def flushGroup (w : Nat) (order : HredOrder) (l : Lanes) : Lanes :=
  if 0 < l.gcnt then
    reduceGroup order { l with lgA := padGroup w l.gcnt l.lgA, lgB := padGroup w l.gcnt l.lgB }
  else l

/-- `GROUPED_DOT_W` (R70). -/
def groupedKernel (w : Nat) (order : HredOrder) : Kernel where
  start l := { l with acc := plusZero, gcnt := 0 }
  commit _ l u v := commitPair w order l u v
  finish l := let l' := flushGroup w order l; (l', l'.acc)

/-- The element reduction of `TMUL.V` (R80): lane `k` of the row load and of the column gather (R81, R82), then one
lane-wise product and one `HRED_4` of lanes 0 to 3, whatever `W` is (R83); no accumulator. -/
def tensorKernel (order : HredOrder) : Kernel where
  start l := l
  commit k l u v := { l with lgA := l.lgA.set k u, lgB := l.lgB.set k v }
  finish l := (l, hred order (lprod (l.lgA.take 4) (l.lgB.take 4)))

end Sys2Proof.Machine
end

