-- ==== Sys2Proof/Machine/Operands.lean ====
section
/-!
DEFINITION. Machine/Operands.lean: what a command's operands mean: its used regions (20_memory.md R46), the argument checks
(60_exceptions.md R99), the element addresses (R45) and the ordered pairs behind every output word (R72, R79, 42_convolution.md R90).
-/
namespace Sys2Proof.Machine

/-- The first byte past the region, an unbounded integer (R9). -/
def regionEnd (r : Region) : Nat := r.base + 4 * r.count

/-- The byte address `p` lies in the region. -/
def regionHas (r : Region) (p : Nat) : Bool := decide (r.base ≤ p) && decide (p < regionEnd r)

/-- The overlap test of R99. -/
def regionsOverlap (r q : Region) : Bool := decide (r.base < regionEnd q) && decide (q.base < regionEnd r)

/-- The word addresses of a region, ascending. -/
def regionWords (r : Region) : List Nat := (List.range r.count).map (fun k => r.base + 4 * k)

/-- A command, ready to run: the argument error it ends with, if any, its used regions, the address pairs of every
output word in order, and the kernel that reduces them. -/
structure Plan where
  error : Option ErrCode
  srcs : List Region
  out : Region
  pairs : Nat → List (Nat × Nat)
  kernel : Kernel

/-- The last three checks of R99, over all used regions, in order: `MISALIGNED`, `RANGE`, `ALIAS`. -/
def checkRegions (srcs : List Region) (out : Region) : Option ErrCode :=
  if (srcs ++ [out]).any (fun r => r.base % 4 != 0) then some .misaligned
  else if (srcs ++ [out]).any (fun r => decide (2 ^ 32 < regionEnd r)) then some .range
  else if srcs.any (fun r => regionsOverlap r out) then some .aliased
  else none

/-- The length checks of DOT (R99). -/
def checkDotLengths (la lb lc : Nat) : Option ErrCode :=
  if la = 0 ∨ lb = 0 then some .lenZero
  else if la ≠ lb then some .lenMismatch
  else if lc < 1 then some .dstSmall
  else none

/-- The length checks of CONV (R99). -/
def checkConvLengths (la lb lc : Nat) : Option ErrCode :=
  if la = 0 ∨ lb = 0 then some .lenZero
  else if lc < la + lb - 1 then some .dstSmall
  else none

/-- `x[k]`, `h[j]`, `a[i]`, `b[i]` and `y[n]`: `base + 4*index` (R45). -/
def elementAddr (base index : Nat) : Nat := base + 4 * index

/-- `A[i][k]`, `B[k][j]` and `C[i][j]`: row-major, `base + 4*(4*row + column)` (R45). -/
def tensorAddr (base row column : Nat) : Nat := base + 4 * (4 * row + column)

/-- The pairs of a dot product of length `n`: `(a[i], b[i])` for `i` ascending (R72). -/
def dotPairs (a b n : Nat) : List (Nat × Nat) :=
  (List.range n).map (fun i => (elementAddr a i, elementAddr b i))

/-- The pairs of `C[i][j]`, `n = 4*i + j`: `(A[i][k], B[k][j])` for `k` ascending (R79, R81, R82). -/
def tensorPairs (a b n : Nat) : List (Nat × Nat) :=
  (List.range 4).map (fun k => (tensorAddr a (n / 4) k, tensorAddr b k (n % 4)))

/-- `kmin(n) = max(0, n - l2 + 1)` (R89). -/
def kmin (l2 n : Nat) : Nat := n + 1 - l2

/-- `kmax(n) = min(n, l1 - 1)` (R89). -/
def kmax (l1 n : Nat) : Nat := min n (l1 - 1)

/-- `PAIRS(n)`: `(x[k], h[n-k])` for `k` from `kmin(n)` to `kmax(n)`, ascending (R90). -/
def convPairs (x h l1 l2 n : Nat) : List (Nat × Nat) :=
  (List.range (kmax l1 n + 1 - kmin l2 n)).map
    (fun t => (elementAddr x (kmin l2 n + t), elementAddr h (n - (kmin l2 n + t))))

/-- A DOT command (R72, R73). -/
def dotPlan (a b d la lb lc : Nat) (k : Kernel) : Plan :=
  let srcs := [⟨a, la⟩, ⟨b, lb⟩]
  let out : Region := ⟨d, 1⟩
  { error := (checkDotLengths la lb lc).or (checkRegions srcs out), srcs := srcs, out := out,
    pairs := fun _ => dotPairs a b la, kernel := k }

/-- A TMUL command (R79, R80): three regions of 16 words, no length. -/
def tmulPlan (a b d : Nat) (k : Kernel) : Plan :=
  let srcs := [⟨a, 16⟩, ⟨b, 16⟩]
  let out : Region := ⟨d, 16⟩
  { error := checkRegions srcs out, srcs := srcs, out := out, pairs := tensorPairs a b, kernel := k }

/-- A CONV command (R87, R88): the output region is the used length `l1 + l2 - 1` (R46). -/
def convPlan (x h y l1 l2 lc : Nat) (k : Kernel) : Plan :=
  let srcs := [⟨x, l1⟩, ⟨h, l2⟩]
  let out : Region := ⟨y, l1 + l2 - 1⟩
  { error := (checkConvLengths l1 l2 lc).or (checkRegions srcs out), srcs := srcs, out := out,
    pairs := convPairs x h l1 l2, kernel := k }

/-- The kernel of the `.V` forms of DOT and CONV at the machine's parameters. -/
def groupedKernelOf (p : Params) : Kernel := groupedKernel p.laneWidth.lanes p.hredOrder

/-- The kernel of `TMUL.V` at the machine's parameters (R83: it does not depend on `W`). -/
def tensorKernelOf (p : Params) : Kernel := tensorKernel p.hredOrder

/-- The plan of a command, for whoever must know what a running command uses: reset (R116), the race rule (R119) and the
stepwise engine. -/
def planOf (i : Instr) (p : Params) : Plan :=
  match i with
  | .dotS a b d la lb lc => dotPlan a b d la lb lc scalarKernel
  | .dotV a b d la lb lc => dotPlan a b d la lb lc (groupedKernelOf p)
  | .tmulS a b d => tmulPlan a b d scalarKernel
  | .tmulV a b d => tmulPlan a b d (tensorKernelOf p)
  | .convS x h y l1 l2 lc => convPlan x h y l1 l2 lc scalarKernel
  | .convV x h y l1 l2 lc => convPlan x h y l1 l2 lc (groupedKernelOf p)

/-- All used regions (R46). -/
def Plan.regions (p : Plan) : List Region := p.srcs ++ [p.out]

/-- CORE's own register window and those of other instances: 256 bytes each (R18, R110). -/
def coreBase (p : Params) : Nat := p.basePage.toNat * 256

/-- The register windows that memory accesses must not reach (R121). -/
def windows (p : Params) : List Region :=
  ⟨coreBase p, 64⟩ :: p.memMap.otherWindows.map (fun b => ⟨b, 64⟩)

/-- The word at `addr` answers `ERROR` to a read (R41). -/
def readFails (p : Params) (addr : Nat) : Bool := p.memMap.readErrors.any (fun r => regionHas r addr)

/-- The word at `addr` answers `ERROR` to a write (R41). -/
def writeFails (p : Params) (addr : Nat) : Bool := p.memMap.writeErrors.any (fun r => regionHas r addr)

/-- Why a command that passed its checks has no meaning (R120, R121): "a model must refuse such a command". -/
def Plan.refusal (c : Plan) (p : Params) : Option Refusal :=
  if c.regions.any (fun r => (windows p).any (fun w => regionsOverlap r w)) then some .regionCoversWindow
  else if c.regions.any (fun r => p.memMap.devices.any (fun d => regionsOverlap r d)) then some .regionCoversDevice
  else none

/-- Some word of a used region answers `ERROR` to the access the command makes there (R44). -/
def Plan.busError (c : Plan) (p : Params) : Bool :=
  c.srcs.any (fun r => (regionWords r).any (readFails p)) || (regionWords c.out).any (writeFails p)

end Sys2Proof.Machine
end

