-- ==== Sys2Proof/Machine/Ops.lean ====
section
/-!
DEFINITION. Machine/Ops.lean: the named operations over memory and registers. Memory bytes and words (20_memory.md R39, R41);
ending a command with an error, CORE's form of taking an exception (60_exceptions.md R101), and the acceptance that clears it
(10_state.md R20, R106); completing without error (R102); running a whole command (70_reset_and_hazards.md R127).
-/
namespace Sys2Proof.Machine

/-! ### Memory -/

/-- What an address that is not listed reads as (DESIGN CHOICE, log 5). -/
def unlistedByte : Byte := 0#8

/-- The byte at `addr`. -/
def Memory.readByte : Memory → Nat → Byte
  | [], _ => unlistedByte
  | (a, v) :: rest, addr => if a = addr then v else Memory.readByte rest addr

/-- The list with the byte at `addr` set, in canonical form again. -/
def Memory.writeByte : Memory → Nat → Byte → Memory
  | [], addr, v => if v = unlistedByte then [] else [(addr, v)]
  | (a, w) :: rest, addr, v =>
    if addr < a then (if v = unlistedByte then (a, w) :: rest else (addr, v) :: (a, w) :: rest)
    else if addr = a then (if v = unlistedByte then rest else (addr, v) :: rest)
    else (a, w) :: Memory.writeByte rest addr v

/-- Every address of the list is at least `lo`, they rise strictly, and no entry is an unlisted address's byte. -/
def Memory.wfFrom : Nat → Memory → Bool
  | _, [] => true
  | lo, (a, v) :: rest => decide (lo ≤ a) && (v != unlistedByte) && Memory.wfFrom (a + 1) rest

/-- The canonical form: addresses strictly rising, no entry that reads as an unlisted address does. -/
def Memory.wf (m : Memory) : Bool := Memory.wfFrom 0 m

/-- Every listed address lies in the address space of `2^32` bytes (R18). -/
def Memory.inSpace (m : Memory) : Bool := m.all (fun c => decide (c.1 < 2 ^ 32))

/-- Byte `i` of a word: `w[8i+7:8i]` (R39). -/
def wordByte (w : Word) (i : Nat) : Byte := w.extractLsb' (8 * i) 8

/-- `MemRead(addr, 4)`'s word: little-endian, `{M[p+3], M[p+2], M[p+1], M[p]}` (R39, R41). -/
def Memory.readWord (m : Memory) (p : Nat) : Word :=
  m.readByte (p + 3) ++ m.readByte (p + 2) ++ m.readByte (p + 1) ++ m.readByte p

/-- `MemWrite(addr, 4, v)`'s effect: little-endian (R39, R41). -/
def Memory.writeWord (m : Memory) (p : Nat) (v : Word) : Memory :=
  (((m.writeByte p (wordByte v 0)).writeByte (p + 1) (wordByte v 1)).writeByte (p + 2) (wordByte v 2)).writeByte
    (p + 3) (wordByte v 3)

/-- Bytes in order from `p` up. -/
def Memory.writeBytes : Memory → Nat → List Byte → Memory
  | m, _, [] => m
  | m, p, b :: rest => Memory.writeBytes (m.writeByte p b) (p + 1) rest

/-- Words in order from `p` up, 4 bytes apart. -/
def Memory.writeWords : Memory → Nat → List Word → Memory
  | m, _, [] => m
  | m, p, v :: rest => Memory.writeWords (m.writeWord p v) (p + 4) rest

/-- The bytes at `p` up to `p + n - 1`. -/
def Memory.readBytes (m : Memory) (p n : Nat) : List Byte := (List.range n).map (fun i => m.readByte (p + i))

/-- The words of address pairs, `MemRead` of each. -/
def readPairs (m : Memory) (addrs : List (Nat × Nat)) : List (Word × Word) :=
  addrs.map (fun p => (m.readWord p.1, m.readWord p.2))

/-! ### Free values -/

/-- `n` fresh free words. -/
def freeWords (draws n : Nat) : List Word := (List.range n).map (fun i => Config.freeWord (draws + i))

/-- Byte `k` of a run of free words laid out little-endian (R39), the first of them draw number `draws`. -/
def freeByte (draws k : Nat) : Byte := wordByte (Config.freeWord (draws + k / 4)) (k % 4)

/-- The bytes of a region's free words, as far as the address space reaches: a region that will fail the `RANGE` check
passes `2^32` (R99), and there is no byte there (R18). -/
def freeBytes (draws : Nat) (out : Region) : List Byte :=
  (List.range (min (4 * out.count) (2 ^ 32 - out.base))).map (freeByte draws)

/-- Every word of a region becomes an unspecified value, each its own (R47, R101, R116, R119). -/
def freeRegion (out : Region) (s : State) : State :=
  { s with mem := s.mem.writeBytes out.base (freeBytes s.draws out), draws := s.draws + out.count }

/-- `LG_A`, `LG_B` and `ACC` hold unspecified values (R31). -/
def freeLanes (s : State) : State :=
  let w := s.params.laneWidth.lanes
  { s with
    lanes := { s.lanes with
      lgA := freeWords s.draws w, lgB := freeWords (s.draws + w) w, acc := Config.freeWord (s.draws + 2 * w) },
    draws := s.draws + (2 * w + 1) }

/-- `GCNT` holds an unspecified value of its range `0..W` (R31): a command that ended by a bus error or a race (log 10). -/
def freeGroup (s : State) : State :=
  let s' := freeLanes s
  { s' with
    lanes := { s'.lanes with gcnt := (Config.freeWord s'.draws).toNat % (s.params.laneWidth.lanes + 1) },
    draws := s'.draws + 1 }

/-! ### Accepting and ending a command -/

/-- The seven registers that are the command (R55). -/
def State.words (s : State) : CommandWords :=
  { cmd := s.cmd, srcA := s.srcA, srcB := s.srcB, dst := s.dst, lenA := s.lenA, lenB := s.lenB, lenC := s.lenC }

/-- The start of a command's pseudocode. -/
def startPosition : Position := { out := 0, pair := 0 }

/-- Acceptance (R20): `STATUS <- 0x00000001`, which clears the last outcome (R106); the engine is at the start of the
command, the lane-group values are unspecified (R31), and the time to completion is open (R126). -/
def accept (s : State) : State :=
  freeLanes
    { s with
      status := acceptedStatus, phase := .busy, position := some startPosition, raced := false,
      latency := Config.latency s.draws, draws := s.draws + 1 }

/-- The command has ended with this `STATUS`; `PHASE <- IDLE` (R101, R102). -/
def endCommand (status : Word) (s : State) : State :=
  { s with status := status, phase := .idle, position := none, raced := false }

/-- `raise CmdError(code)` (R101): CORE's whole exception entry. `STATUS` records the code; no other register changes, and
control goes nowhere (R105). -/
def raiseCmdError (e : ErrCode) (s : State) : State := endCommand (errorStatus e) s

/-- `raise CmdError(BUS)` after a memory access answered `ERROR`: every word of the used output region is unspecified
(R101, R47), and so is the lane-group state (log 10). -/
def raiseBus (out : Region) (s : State) : State := raiseCmdError .bus (freeGroup (freeRegion out s))

/-- A race (R119) leaves every word of the used output region with any value after completion, with an error or without
(log 11, log 20). -/
def settleRace (out : Region) (s : State) : State := if s.raced then freeGroup (freeRegion out s) else s

/-- `complete_ok()` (R102), after every `MemWrite` of the command. -/
def completeOk (out : Region) (s : State) : State := endCommand okStatus (settleRace out s)

/-! ### Running a command -/

/-- Output word `n` is computed from its pairs and written (R44: ascending, each once). -/
def outputStep (c : Plan) (s : State) (n : Nat) : State :=
  let r := c.kernel.run (readPairs s.mem (c.pairs n)) s.lanes
  { s with lanes := r.1, mem := s.mem.writeWord (elementAddr c.out.base n) r.2 }

/-- All output words, ascending. -/
def writeOutputs (c : Plan) (s : State) : State := (List.range c.out.count).foldl (outputStep c) s

/-- A command from acceptance to its end, as one transition (R127): argument errors before any access (R100), where only
a race touches the output; the commands a model must refuse (R120, R121); `BUS` exactly when a used word answers
`ERROR` (R44); otherwise the output words and `complete_ok`. -/
def runPlan (c : Plan) (s : State) : Host.Outcome State Fault Refusal :=
  match c.error with
  | some e => .next (raiseCmdError e (settleRace c.out s))
  | none =>
    match c.refusal s.params with
    | some r => .refused r
    | none =>
      if c.busError s.params then .next (raiseBus c.out s)
      else .next (completeOk c.out (writeOutputs c s))

end Sys2Proof.Machine
end

