-- ==== Sys2Proof/Machine/Conv.lean ====
section
/-!
DEFINITION. Machine/Conv.lean: the meanings of `CONV.S` and `CONV.V` (42_convolution.md R87, R88).
-/
namespace Sys2Proof.Machine

/-- `CONV.S` (R87): `l1 + l2 - 1` words at `y`, each `SCALAR_DOT` of `PAIRS(n)`. -/
def execConvS (x h y l1 l2 lc : Nat) (s : State) : Host.Outcome State Fault Refusal :=
  runPlan (convPlan x h y l1 l2 lc scalarKernel) s

/-- `CONV.V` (R88): `l1 + l2 - 1` words at `y`, each `GROUPED_DOT_W` of `PAIRS(n)`. -/
def execConvV (x h y l1 l2 lc : Nat) (s : State) : Host.Outcome State Fault Refusal :=
  runPlan (convPlan x h y l1 l2 lc (groupedKernelOf s.params)) s

end Sys2Proof.Machine
end

