-- ==== Sys2Proof/Machine/Dot.lean ====
section
/-!
DEFINITION. Machine/Dot.lean: the meanings of `DOT.S` and `DOT.V` (40_reduction.md R72, R73).
-/
namespace Sys2Proof.Machine

/-- `DOT.S` (R72): one word at `d`, `SCALAR_DOT` of the pairs `(a[i], b[i])`. -/
def execDotS (a b d la lb lc : Nat) (s : State) : Host.Outcome State Fault Refusal :=
  runPlan (dotPlan a b d la lb lc scalarKernel) s

/-- `DOT.V` (R73): one word at `d`, `GROUPED_DOT_W` of the pairs `(a[i], b[i])`. -/
def execDotV (a b d la lb lc : Nat) (s : State) : Host.Outcome State Fault Refusal :=
  runPlan (dotPlan a b d la lb lc (groupedKernelOf s.params)) s

end Sys2Proof.Machine
end

