-- ==== Sys2Proof/Machine/Tmul.lean ====
section
/-!
DEFINITION. Machine/Tmul.lean: the meanings of `TMUL.S` and `TMUL.V` (41_tensor_multiply.md R79, R80).
-/
namespace Sys2Proof.Machine

/-- `TMUL.S` (R79): sixteen words at `d`, each `SCALAR_DOT` of a row of `A` and a column of `B`. -/
def execTmulS (a b d : Nat) (s : State) : Host.Outcome State Fault Refusal :=
  runPlan (tmulPlan a b d scalarKernel) s

/-- `TMUL.V` (R80): sixteen words at `d`, each `HRED_4` of the lane-wise product of a row and a gathered column. -/
def execTmulV (a b d : Nat) (s : State) : Host.Outcome State Fault Refusal :=
  runPlan (tmulPlan a b d (tensorKernelOf s.params)) s

end Sys2Proof.Machine
end

