-- ==== Sys2Proof/Machine/Dispatch.lean ====
section
/-!
DEFINITION. Machine/Dispatch.lean: one arm per command.
-/
namespace Sys2Proof.Machine

def exec (i : Instr) (s : State) : Host.Outcome State Fault Refusal :=
  match i with
  | .dotS a b d la lb lc => Sys2Proof.Machine.execDotS a b d la lb lc s
  | .dotV a b d la lb lc => Sys2Proof.Machine.execDotV a b d la lb lc s
  | .tmulS a b d => Sys2Proof.Machine.execTmulS a b d s
  | .tmulV a b d => Sys2Proof.Machine.execTmulV a b d s
  | .convS x h y l1 l2 lc => Sys2Proof.Machine.execConvS x h y l1 l2 lc s
  | .convV x h y l1 l2 lc => Sys2Proof.Machine.execConvV x h y l1 l2 lc s

end Sys2Proof.Machine
end

