-- ==== Sys2Proof/Machine/Ports.lean ====
section
/-!
DEFINITION. Machine/Ports.lean: the transactions of the outside world: the register port (10_state.md R19 to R30, R33), the
memory accesses of the host and other agents (30_encoding.md R65, 70_reset_and_hazards.md R119), the reset input (R115, R116), and
the pseudo-instructions of 30_encoding.md R66.
-/
namespace Sys2Proof.Machine

/-! ### Register port -/

/-- The value a 32-bit read of a register returns (section 3 of 10_state.md); reserved offsets read as zero (R29). -/
def readRegister (s : State) (offset : Nat) : Word :=
  match offset with
  | 0x00 => idWord s.params
  | 0x04 => 0#32
  | 0x08 => s.cmd
  | 0x0C => s.status
  | 0x10 => s.srcA
  | 0x14 => s.srcB
  | 0x18 => s.dst
  | 0x1C => s.lenA
  | 0x20 => s.lenB
  | 0x24 => s.lenC
  | _ => 0#32

/-- `RegRead(offset, size)` (R30, R35): an access that is not 32-bit and aligned returns 0 in every byte. No side effect. -/
def portRead (s : State) (offset : BitVec 8) (size : Nat) : Reply :=
  if size = 4 ∧ offset.toNat % 4 = 0 then .word (readRegister s offset.toNat) else .zeros size

/-- A 32-bit write to a register while idle. `START` accepts a command (R20); a write to a read-only or reserved offset
is ignored (R19, R22, R29). -/
def writeRegister (s : State) (offset : Nat) (data : Word) : State :=
  match offset with
  | 0x04 => if data.getLsbD 0 then accept s else s
  | 0x08 => { s with cmd := data }
  | 0x10 => { s with srcA := data }
  | 0x14 => { s with srcB := data }
  | 0x18 => { s with dst := data }
  | 0x1C => { s with lenA := data }
  | 0x20 => { s with lenB := data }
  | 0x24 => { s with lenC := data }
  | _ => s

/-- `RegWrite(offset, data, size)` (R30, R35): ignored unless 32-bit and aligned (R30), while busy (R20, R33) and while reset is
asserted (R115). -/
def portWrite (s : State) (offset : BitVec 8) (data : Word) (size : Nat) : State :=
  if size = 4 ∧ offset.toNat % 4 = 0 ∧ statusBusy s.status = false ∧ s.rst = false then
    writeRegister s offset.toNat data
  else s

/-! ### The running command, as others see it -/

/-- The plan of the running command. Its used regions are those of R46 whether or not the command will pass its argument
checks (log 11); a word that is no command uses none (R61). -/
def runningPlan (s : State) : Option Plan :=
  match s.phase with
  | .idle => none
  | .busy =>
    match decode s.words with
    | .illegal _ => none
    | .command i => some (planOf i s.params)

/-- The running command is one a model must refuse (R120, R121): it passes its argument checks and would reach a window
or a device. The whole state is then refused (log 12). -/
def runningRefusal (s : State) : Option Refusal :=
  match runningPlan s with
  | none => none
  | some c => if c.error = none then c.refusal s.params else none

/-- A byte address of a used region of the running command (R46). -/
def inRunningRegions (s : State) (p : Nat) : Bool :=
  match runningPlan s with
  | none => false
  | some c => c.regions.any (fun r => regionHas r p)

/-- A byte address of the used output region of the running command (R46). -/
def inRunningOutput (s : State) (p : Nat) : Bool :=
  match runningPlan s with
  | none => false
  | some c => regionHas c.out p

/-! ### Memory accesses of the host and other agents -/

/-- The byte addresses of an access. -/
def accessBytes (addr size : Nat) : List Nat := (List.range size).map (fun i => addr + i)

/-- A byte of CORE's own register window (R18). -/
def inOwnWindow (p : Params) (b : Nat) : Bool := regionHas ⟨coreBase p, 64⟩ b

/-- An access wholly within CORE's register window: a register access (R18, R30, R65). -/
def isRegisterAccess (p : Params) (addr size : Nat) : Bool :=
  decide (0 < size) && (accessBytes addr size).all (inOwnWindow p)

/-- What a byte address of another access of the host's bus reaches. -/
inductive BytePlace where
  /-- CORE's register window: an access of another width or alignment acts on nothing there (R30). -/
  | window
  /-- A device (R120) or the register window of another instance (R110): no memory of this model. -/
  | foreign
  /-- A word that answers `ERROR` to such an access of CORE's port (R41). -/
  | failing
  /-- Memory. -/
  | memory
deriving DecidableEq, Repr

/-- Where a byte address lies; `fails` says which word addresses answer `ERROR` to the access (log 13). -/
def bytePlace (p : Params) (fails : Nat → Bool) (b : Nat) : BytePlace :=
  if inOwnWindow p b then .window
  else if (p.memMap.otherWindows.any (fun w => regionHas ⟨w, 64⟩ b)) || p.memMap.devices.any (fun d => regionHas d b) then
    .foreign
  else if fails (b / 4 * 4) then .failing
  else .memory

/-- A free byte: draw number `n`. -/
def drawByte (n : Nat) : Byte := wordByte (Config.freeWord n) 0

/-- The offset in CORE's register window of a host byte address. -/
def windowOffset (p : Params) (addr : Nat) : BitVec 8 := BitVec.ofNat 8 (addr - coreBase p)

/-- The word of at most four bytes, lowest first (R39). -/
def bytesWord : List Byte → Word
  | [] => 0#32
  | b :: rest => (bytesWord rest <<< 8) ||| b.setWidth 32

/-- The byte at the `i`-th address of a host write of `b` there, afterwards: memory takes it (R39); in CORE's window no memory
changes (R30). At a word that answers `ERROR` to writes the spec does not state the result, and it is a free value; at a
device or another instance's window no memory changes (both DESIGN CHOICE, log 13). -/
def landedByte (s : State) (addr i : Nat) (b : Byte) : Byte :=
  match bytePlace s.params (writeFails s.params) (addr + i) with
  | .memory => b
  | .failing => drawByte (s.draws + i)
  | .window | .foreign => s.mem.readByte (addr + i)

/-- The bytes a host write leaves, in order. -/
def landedBytes (s : State) (addr : Nat) (data : List Byte) : List Byte :=
  data.zipIdx.map (fun p => landedByte s addr p.2 p.1)

/-- A write of bytes by the host or another agent (R39, R65). A write to a used region of the running command is a race
(R119). -/
def writeMemory (s : State) (addr : Word) (data : List Byte) : Host.Outcome State Fault Refusal :=
  if 2 ^ 32 < addr.toNat + data.length then .fault .addressOutside
  else if isRegisterAccess s.params addr.toNat data.length then
    .next (portWrite s (windowOffset s.params addr.toNat) (bytesWord data) data.length)
  else
    .next { s with
      mem := s.mem.writeBytes addr.toNat (landedBytes s addr.toNat data),
      raced := s.raced || (accessBytes addr.toNat data.length).any (inRunningRegions s),
      draws := s.draws + data.length }

/-- A reply to the host. -/
def pushReply (r : Reply) (s : State) : State := { s with replies := s.replies ++ [r] }

/-- The byte a host read sees at the `i`-th address: memory's, but any value in the output region of the running command
(R119); 0 in CORE's window (R30); a free value where the spec does not state what the host's bus answers (DESIGN CHOICE,
log 13). A byte that also lies in a source region (a command that would end with `ALIAS`) answers any value too: R119 says
both that output reads are unspecified and that source reads see memory unchanged, and the model takes the first (DESIGN
CHOICE, log 24). -/
def observedByte (s : State) (addr i : Nat) : Byte :=
  match bytePlace s.params (readFails s.params) (addr + i) with
  | .memory => if inRunningOutput s (addr + i) then drawByte (s.draws + i) else s.mem.readByte (addr + i)
  | .window => 0#8
  | .foreign | .failing => drawByte (s.draws + i)

/-- The bytes a host read sees, in order. -/
def observedBytes (s : State) (addr size : Nat) : List Byte := (List.range size).map (observedByte s addr)

/-- A read of bytes by the host (R39, R65). -/
def readMemory (s : State) (addr : Word) (size : Nat) : Host.Outcome State Fault Refusal :=
  if 2 ^ 32 < addr.toNat + size then .fault .addressOutside
  else if isRegisterAccess s.params addr.toNat size then
    .next (pushReply (portRead s (windowOffset s.params addr.toNat) size) s)
  else
    .next (pushReply (.bytes (observedBytes s addr.toNat size)) { s with draws := s.draws + size })

/-! ### Reset -/

/-- Every register and the engine at the values of R37. -/
def resetRegisters (s : State) : State :=
  { s with
    cmd := 0#32, status := 0#32, srcA := 0#32, srcB := 0#32, dst := 0#32, lenA := 0#32, lenB := 0#32, lenC := 0#32,
    phase := .idle, position := none, lanes := Lanes.atReset s.params.laneWidth.lanes, latency := 0, raced := false }

/-- A reset abandons the running command: its used output region is unspecified (R116). A word that also lies in a source
region (a command that would end with `ALIAS`) is freed too: R116 says both that output words become unspecified and that
source regions are unchanged, and the model takes the first (DESIGN CHOICE, log 24). -/
def abandonCommand (s : State) : State :=
  match runningPlan s with
  | none => s
  | some c => freeRegion c.out s

/-- The reset input changes (R115, R116). -/
def setReset (asserted : Bool) (s : State) : State :=
  if asserted then { resetRegisters (abandonCommand s) with rst := true } else { s with rst := false }

/-! ### Serving one transaction -/

/-- One poll of `WAIT` (R66): it answers the final `STATUS` once `DONE` is 1, and polls again otherwise. -/
def pollWait (s : State) : State :=
  if statusDone s.status then pushReply (.word s.status) s else { s with inputs := .wait :: s.inputs }

/-- One transaction, in the order the outside issues them (R124). -/
def serve (x : Input) (s : State) : Host.Outcome State Fault Refusal :=
  match x with
  | .regWrite offset data size => .next (portWrite s offset data size)
  | .regRead offset size => .next (pushReply (portRead s offset size) s)
  | .memWrite addr data => writeMemory s addr data
  | .memRead addr size => readMemory s addr size
  | .wait => .next (pollWait s)
  | .rst asserted => .next (setReset asserted s)

/-! ### Pseudo-instructions -/

/-- `WR32 <reg>, <value>` (R65). -/
def wr32 (offset : BitVec 8) (data : Word) : Input := .regWrite offset data 4

/-- A command statement (R66): the writes of the operand words the command uses (R58), `CMD`, `CTRL.START`, `WAIT`. -/
def commandStatement (i : Instr) : List Input :=
  let c := encode i
  let addresses := [wr32 0x10#8 c.srcA, wr32 0x14#8 c.srcB, wr32 0x18#8 c.dst]
  let lengths :=
    match i with
    | .dotS _ _ _ _ _ _ | .dotV _ _ _ _ _ _ | .convS _ _ _ _ _ _ | .convV _ _ _ _ _ _ =>
      [wr32 0x1C#8 c.lenA, wr32 0x20#8 c.lenB, wr32 0x24#8 c.lenC]
    | .tmulS _ _ _ | .tmulV _ _ _ => []
  addresses ++ lengths ++ [wr32 0x08#8 c.cmd, wr32 0x04#8 1#32, .wait]

end Sys2Proof.Machine
end

