-- ==== Sys2Proof/Machine/Step.lean ====
section
/-!
DEFINITION. Machine/Step.lean: one step of the machine: the engine's turn, which decodes and runs the accepted command
(60_exceptions.md R98, 70_reset_and_hazards.md R127), or one transaction of the outside world.
-/
namespace Sys2Proof.Machine

/-- The engine's turn has come: a command is running and no further input is served before it completes (R126). -/
def engineTurn (s : State) : Bool := (s.phase == .busy) && (s.latency == 0 || s.inputs.isEmpty)

/-- The engine's turn: decode `CMD` (R98), then run the command. -/
def runEngine (s : State) : Host.Outcome State Fault Refusal :=
  match decode s.words with
  | .illegal _ => .next (raiseCmdError .illegalCmd s)
  | .command i => exec i s

/-- The oldest input is served; with none, CORE does nothing (R112). -/
def serveNext (s : State) : Host.Outcome State Fault Refusal :=
  match s.inputs with
  | [] => .next s
  | x :: rest => serve x { s with inputs := rest, latency := s.latency - 1 }

/-- One step. A state whose running command must be refused has no step (R120, R121, log 12). -/
def step (s : State) : Host.Outcome State Fault Refusal :=
  match runningRefusal s with
  | some r => .refused r
  | none => if engineTurn s then runEngine s else serveNext s

/-- The state in which the command whose bits are the `nbits` low bits of `w` (`decodeTableWord`'s numbering) has been
written to the registers and accepted, with the engine's turn next: CORE fetches no instructions (R53), and a command
is taken from the registers at acceptance (R20; log 3). -/
def State.withFetchWord (s : State) (nbits w : Nat) : State :=
  let c := wordsOfNumber nbits w
  { s with
    cmd := c.cmd, srcA := c.srcA, srcB := c.srcB, dst := c.dst, lenA := c.lenA, lenB := c.lenB, lenC := c.lenC,
    status := acceptedStatus, phase := .busy, position := some startPosition, raced := false, rst := false,
    latency := 0 }

end Sys2Proof.Machine
end

