-- ==== Sys2Proof/Machine/Stepwise.lean ====
section
/-!
DEFINITION. Machine/Stepwise.lean: the engine one memory access at a time, with the loop indices it holds while busy
(10_state.md R32), for the claim that one atomic transition per command is equivalent to it (70_reset_and_hazards.md R127). It reads
and commits one pair, or writes one output word, or ends the command.
-/
namespace Sys2Proof.Machine

/-- The next access of a command that passed its checks, at a position of its pseudocode. -/
def advanceCommand (c : Plan) (at' : Position) (s : State) : State :=
  if c.out.count ≤ at'.out then completeOk c.out s
  else
    match (c.pairs at'.out)[at'.pair]? with
    | some p =>
      if readFails s.params p.1 || readFails s.params p.2 then raiseBus c.out s
      else
        let l := if at'.pair = 0 then c.kernel.start s.lanes else s.lanes
        { s with
          lanes := c.kernel.commit at'.pair l (s.mem.readWord p.1) (s.mem.readWord p.2),
          position := some { out := at'.out, pair := at'.pair + 1 } }
    | none =>
      let addr := elementAddr c.out.base at'.out
      if writeFails s.params addr then raiseBus c.out s
      else
        let r := c.kernel.finish s.lanes
        { s with
          lanes := r.1, mem := s.mem.writeWord addr r.2, position := some { out := at'.out + 1, pair := 0 } }

/-- One step of the engine alone: the decode check (R98), the argument checks (R99), then one access at a time. An idle
engine does nothing (R112). -/
def engineStep (s : State) : Host.Outcome State Fault Refusal :=
  match s.phase with
  | .idle => .next s
  | .busy =>
    match decode s.words with
    | .illegal _ => .next (raiseCmdError .illegalCmd s)
    | .command i =>
      let c := planOf i s.params
      match c.error with
      | some e => .next (raiseCmdError e (settleRace c.out s))
      | none =>
        match c.refusal s.params with
        | some r => .refused r
        | none => .next (advanceCommand c (s.position.getD startPosition) s)

/-- `k` steps of the engine alone. -/
def engineSteps : Nat → State → Host.Outcome State Fault Refusal
  | 0, s => .next s
  | k + 1, s =>
    match engineStep s with
    | .next s' => engineSteps k s'
    | .fault r => .fault r
    | .refused r => .refused r

end Sys2Proof.Machine
end

