-- ==== Sys2Proof/Safety.lean ====
section
/-!
DEFINITION. Safety.lean: the terms in which claims are made: the values the spec gives an output word, written from its
formulas and not from the engine's lane machine; when a command may run; the invariant of the machine.
-/
namespace Sys2Proof.Machine

/-! ### The values of output words -/

/-- `SCALAR_DOT(pairs)` (R71): `fadd(...fadd(fadd(+0.0, u0*v0), u1*v1)...)`. -/
def scalarSum (pairs : List (Word × Word)) : Word :=
  pairs.foldl (fun acc p => fadd acc (fmul p.1 p.2)) plusZero

/-- The products of group `g` (R70: pair `t` is lane `t mod W` of group `floor(t / W)`); a lane with no pair holds
`+0.0` in both operands (R69). -/
def groupProducts (w : Nat) (pairs : List (Word × Word)) (g : Nat) : List Word :=
  (List.range w).map (fun i =>
    fmul (pairs.getD (g * w + i) (plusZero, plusZero)).1 (pairs.getD (g * w + i) (plusZero, plusZero)).2)

/-- `GROUPED_DOT_W(pairs)` (R70): `ceil(c / W)` groups, each reduced by `HRED_W` and added in group order from `+0.0`. -/
def groupedSum (w : Nat) (order : HredOrder) (pairs : List (Word × Word)) : Word :=
  (List.range ((pairs.length + w - 1) / w)).foldl
    (fun acc g => fadd acc (hred order (groupProducts w pairs g))) plusZero

/-- `(a[i], b[i])` for `i` in `[0, n)` (R72). -/
def sequencePairs (m : Memory) (a b n : Nat) : List (Word × Word) :=
  (List.range n).map (fun i => (m.readWord (a + 4 * i), m.readWord (b + 4 * i)))

/-- `(A[i][k], B[k][j])` for `k` in `[0, 4)`, `n = 4*i + j` (R79). -/
def rowColumnPairs (m : Memory) (a b n : Nat) : List (Word × Word) :=
  (List.range 4).map (fun k =>
    (m.readWord (a + 4 * (4 * (n / 4) + k)), m.readWord (b + 4 * (4 * k + n % 4))))

/-- `(x[k], h[n-k])` for every `k` the range guard of R89 admits, ascending (R90). -/
def guardedPairs (m : Memory) (x h l1 l2 n : Nat) : List (Word × Word) :=
  ((List.range l1).filter (fun k => decide (k ≤ n ∧ n - k < l2))).map
    (fun k => (m.readWord (x + 4 * k), m.readWord (h + 4 * (n - k))))

/-- The sixteen words of `TMUL.S` (R79). -/
def tensorScalarWords (m : Memory) (a b : Nat) : List Word :=
  (List.range 16).map (fun n => scalarSum (rowColumnPairs m a b n))

/-- The sixteen words of `TMUL.V` (R80). -/
def tensorGroupedWords (order : HredOrder) (m : Memory) (a b : Nat) : List Word :=
  (List.range 16).map (fun n => hred order ((rowColumnPairs m a b n).map (fun p => fmul p.1 p.2)))

/-- The `l1 + l2 - 1` words of `CONV.S` (R87). -/
def convScalarWords (m : Memory) (x h l1 l2 : Nat) : List Word :=
  (List.range (l1 + l2 - 1)).map (fun n => scalarSum (guardedPairs m x h l1 l2 n))

/-- The `l1 + l2 - 1` words of `CONV.V` (R88). -/
def convGroupedWords (w : Nat) (order : HredOrder) (m : Memory) (x h l1 l2 : Nat) : List Word :=
  (List.range (l1 + l2 - 1)).map (fun n => groupedSum w order (guardedPairs m x h l1 l2 n))

/-! ### When a command may run -/

/-- Aligned, and within the address space (R42, R99). -/
abbrev RegionFits (r : Region) : Prop := r.base % 4 = 0 ∧ r.base + 4 * r.count ≤ 2 ^ 32

/-- No byte in common. -/
abbrev RegionsApart (r q : Region) : Prop := r.base + 4 * r.count ≤ q.base ∨ q.base + 4 * q.count ≤ r.base

/-- Ordinary memory (R120) and no register window (R121). -/
abbrev OrdinaryRegion (p : Params) (r : Region) : Prop :=
  (∀ w ∈ windows p, RegionsApart r w) ∧ ∀ d ∈ p.memMap.devices, RegionsApart r d

/-- Every word of the region answers a read with data (R41). -/
abbrev ReadableRegion (p : Params) (r : Region) : Prop := ∀ k, k < r.count → readFails p (r.base + 4 * k) = false

/-- Every word of the region answers a write with `OK` (R41). -/
abbrev WritableRegion (p : Params) (r : Region) : Prop := ∀ k, k < r.count → writeFails p (r.base + 4 * k) = false

/-- The regions pass the checks of R99, are ordinary memory, and no access answers `ERROR`. -/
abbrev RegionsUsable (p : Params) (src1 src2 out : Region) : Prop :=
  (RegionFits src1 ∧ RegionFits src2 ∧ RegionFits out) ∧ (RegionsApart src1 out ∧ RegionsApart src2 out) ∧
  (OrdinaryRegion p src1 ∧ OrdinaryRegion p src2 ∧ OrdinaryRegion p out) ∧
  (ReadableRegion p src1 ∧ ReadableRegion p src2 ∧ WritableRegion p out)

/-- A DOT of length `n` and capacity `cap` executes normally. -/
abbrev DotReady (p : Params) (a b d n cap : Nat) : Prop :=
  1 ≤ n ∧ 1 ≤ cap ∧ RegionsUsable p ⟨a, n⟩ ⟨b, n⟩ ⟨d, 1⟩

/-- A TMUL executes normally. -/
abbrev TmulReady (p : Params) (a b d : Nat) : Prop := RegionsUsable p ⟨a, 16⟩ ⟨b, 16⟩ ⟨d, 16⟩

/-- A CONV of lengths `l1`, `l2` and capacity `cap` executes normally. -/
abbrev ConvReady (p : Params) (x h y l1 l2 cap : Nat) : Prop :=
  1 ≤ l1 ∧ 1 ≤ l2 ∧ l1 + l2 - 1 ≤ cap ∧ RegionsUsable p ⟨x, l1⟩ ⟨h, l2⟩ ⟨y, l1 + l2 - 1⟩

/-- `LG_A` and `LG_B` have `W` lanes (R31). -/
abbrev LanesFit (s : State) : Prop :=
  s.lanes.lgA.length = s.params.laneWidth.lanes ∧ s.lanes.lgB.length = s.params.laneWidth.lanes

/-- CORE is idle and out of reset: it takes register writes (R20, R33, R115). -/
abbrev AcceptsWrites (s : State) : Prop := s.phase = .idle ∧ statusBusy s.status = false ∧ s.rst = false

/-- A command is running, and the engine moves next. -/
abbrev EngineMoves (s : State) : Prop := s.phase = .busy ∧ (s.latency = 0 ∨ s.inputs = [])

/-- The command has ended with this `STATUS` and has changed nothing else. -/
abbrev endedWith (s : State) (status : Word) : State :=
  { s with status := status, phase := .idle, position := none, raced := false }

/-- Every word of the region has become a free value of its own, little-endian, as far as the address space reaches; every
byte outside the region reads as before (R47, R116, R119). -/
abbrev OutputFreed (out : Region) (s t : State) : Prop :=
  (∀ k, k < 4 * out.count → out.base + k < 2 ^ 32 →
    t.mem.readByte (out.base + k) = wordByte (Config.freeWord (s.draws + k / 4)) (k % 4)) ∧
  ∀ p, regionHas out p = false → t.mem.readByte p = s.mem.readByte p

/-- The command ends with this `STATUS`, and without a race nothing but `STATUS` and the engine's own state changes; with
one (log 11), no byte outside its used output region. -/
abbrev EndsWithError (i : Instr) (s : State) (status : Word) : Prop :=
  ∃ t, exec i s = .next t ∧ t.status = status ∧ (s.raced = false → t = endedWith s status) ∧
    ∀ p, regionHas (planOf i s.params).out p = false → t.mem.readByte p = s.mem.readByte p

/-- The transaction stays within the address space of `2^32` bytes (R18). -/
def InSpaceInput : Input → Prop
  | .memWrite addr data => addr.toNat + data.length ≤ 2 ^ 32
  | .memRead addr size => addr.toNat + size ≤ 2 ^ 32
  | .regWrite _ _ _ | .regRead _ _ | .wait | .rst _ => True

/-- The region checks of R99 over a command's used regions, in their order: `MISALIGNED`, `RANGE`, `ALIAS`; when none holds
(a region may end at `2^32`, the sources may overlap each other), no argument error is reported. -/
def RegionErrorsReported (i : Instr) (s : State) (srcs : List Region) (out : Region) : Prop :=
  ((∃ r ∈ srcs ++ [out], r.base % 4 ≠ 0) → EndsWithError i s 0x00000506#32) ∧
  ((∀ r ∈ srcs ++ [out], r.base % 4 = 0) → (∃ r ∈ srcs ++ [out], 2 ^ 32 < r.base + 4 * r.count) →
    EndsWithError i s 0x00000606#32) ∧
  ((∀ r ∈ srcs ++ [out], r.base % 4 = 0) → (∀ r ∈ srcs ++ [out], r.base + 4 * r.count ≤ 2 ^ 32) →
    (∃ r ∈ srcs, ∃ p, (r.base ≤ p ∧ p < r.base + 4 * r.count) ∧ out.base ≤ p ∧ p < out.base + 4 * out.count) →
    EndsWithError i s 0x00000706#32) ∧
  ((∀ r ∈ srcs ++ [out], r.base % 4 = 0) → (∀ r ∈ srcs ++ [out], r.base + 4 * r.count ≤ 2 ^ 32) →
    (∀ r ∈ srcs, ∀ p, r.base ≤ p → p < r.base + 4 * r.count → p < out.base ∨ out.base + 4 * out.count ≤ p) →
    ∀ t, exec i s = .next t → t.status = 0x00000002#32 ∨ t.status = 0x00000806#32)

/-! ### The invariant -/

/-- The words `STATUS` can hold (R22): reset, accepted, completed, and one for each error code. -/
def legalStatuses : List Word :=
  [0x00000000#32, 0x00000001#32, 0x00000002#32, 0x00000106#32, 0x00000206#32, 0x00000306#32, 0x00000406#32,
   0x00000506#32, 0x00000606#32, 0x00000706#32, 0x00000806#32]

/-- While reset is asserted every register holds its reset value (R115). -/
abbrev HeldInReset (s : State) : Prop :=
  s.cmd = 0#32 ∧ s.status = 0#32 ∧ s.srcA = 0#32 ∧ s.srcB = 0#32 ∧ s.dst = 0#32 ∧ s.lenA = 0#32 ∧ s.lenB = 0#32 ∧
  s.lenC = 0#32 ∧ s.phase = .idle

/-- The invariant: memory is canonical and within its space; the lane groups have `W` lanes and `GCNT` is in `0..W`
(R31); `STATUS` has a legal shape (R22); `PHASE` equals `STATUS.BUSY` (R32); there is a position exactly while busy
(R32); a race is noted only while busy; reset holds the registers (R115). -/
abbrev State.Inv (s : State) : Prop :=
  (s.mem.wf = true ∧ s.mem.inSpace = true) ∧
  (LanesFit s ∧ s.lanes.gcnt ≤ s.params.laneWidth.lanes) ∧
  s.status ∈ legalStatuses ∧
  (s.phase = .busy ↔ s.status = acceptedStatus) ∧
  (s.position.isSome = true ↔ s.phase = .busy) ∧
  (s.raced = true → s.phase = .busy) ∧
  (s.rst = true → HeldInReset s)

end Sys2Proof.Machine
end

