-- ==== Sys2Proof/Certificates/Slice0/Obligations.lean ====
section
/-!
DEFINITION. Certificates/Slice0/Obligations.lean: the statements for the provers. Each docstring names the rule of spec/ it rests on.
-/

open Sys2Proof Sys2Proof.Machine

/-! ### Encoding -/

/-- R55, R58, R59, R60: decoding an encoded well-formed command gives it back, every operand at every 32-bit value. -/
def Obligations.DecodingAnEncodedCommandGivesItBack : Prop :=
  ∀ i : Instr, i.wf = true → decode (encode i) = .command i

/-- R57, R58: a decoded command is well formed, and encoding it gives the accepted tuple again, but for the words
TMUL leaves unused. -/
def Obligations.EncodingADecodedCommandKeepsTheUsedWords : Prop :=
  ∀ (c : CommandWords) (i : Instr), decode c = .command i →
    i.wf = true ∧
    encode i = if opField c.cmd = 2 then { c with lenA := 0#32, lenB := 0#32, lenC := 0#32 } else c

/-- R59: the complete opcode map, and every other `CMD` value is illegal. -/
def Obligations.OpcodeMapIsComplete : Prop :=
  ∀ c : CommandWords,
    (c.cmd = 0x00000001#32 → decode c =
      .command (.dotS c.srcA.toNat c.srcB.toNat c.dst.toNat c.lenA.toNat c.lenB.toNat c.lenC.toNat)) ∧
    (c.cmd = 0x00000011#32 → decode c =
      .command (.dotV c.srcA.toNat c.srcB.toNat c.dst.toNat c.lenA.toNat c.lenB.toNat c.lenC.toNat)) ∧
    (c.cmd = 0x00000002#32 → decode c = .command (.tmulS c.srcA.toNat c.srcB.toNat c.dst.toNat)) ∧
    (c.cmd = 0x00000012#32 → decode c = .command (.tmulV c.srcA.toNat c.srcB.toNat c.dst.toNat)) ∧
    (c.cmd = 0x00000003#32 → decode c =
      .command (.convS c.srcA.toNat c.srcB.toNat c.dst.toNat c.lenA.toNat c.lenB.toNat c.lenC.toNat)) ∧
    (c.cmd = 0x00000013#32 → decode c =
      .command (.convV c.srcA.toNat c.srcB.toNat c.dst.toNat c.lenA.toNat c.lenB.toNat c.lenC.toNat)) ∧
    (c.cmd ∉ [0x00000001#32, 0x00000011#32, 0x00000002#32, 0x00000012#32, 0x00000003#32, 0x00000013#32] →
      ∃ why, decode c = .illegal why)

/-- R56, R59: three `CMD` words written out from format C decode to the command they stand for, and two illegal words
are rejected by name. -/
def Obligations.SampleCommandWordsDecode : Prop :=
  decode ⟨0x00000011#32, 0x00004000#32, 0x00004010#32, 0x00004020#32, 4#32, 4#32, 1#32⟩ =
    .command (.dotV 0x4000 0x4010 0x4020 4 4 1) ∧
  decode ⟨0x00000012#32, 0x00002000#32, 0x00002040#32, 0x00002080#32, 7#32, 8#32, 9#32⟩ =
    .command (.tmulV 0x2000 0x2040 0x2080) ∧
  decode ⟨0x00000013#32, 0x00001000#32, 0x00001010#32, 0x00001020#32, 3#32, 3#32, 6#32⟩ =
    .command (.convV 0x1000 0x1010 0x1020 3 3 6) ∧
  decode ⟨0x00000031#32, 0#32, 0#32, 0#32, 0#32, 0#32, 0#32⟩ = .illegal .reservedBits ∧
  decode ⟨0x00000014#32, 0#32, 0#32, 0#32, 0#32, 0#32, 0#32⟩ = .illegal .reservedOp

/-! ### A step -/

/-- R98, R127: when the engine moves and the accepted registers decode to a command, the step is that command's
meaning at that state; the step adds nothing around it. -/
def Obligations.StepRunsTheDecodedCommand : Prop :=
  ∀ (s : State) (i : Instr), EngineMoves s → decode s.words = .command i → step s = exec i s

/-- R20, R53 (log 3): a command placed as accepted runs in the very next step. -/
def Obligations.PlacedCommandRunsNext : Prop :=
  ∀ (s : State) (nbits w : Nat) (i : Instr), decodeTableWord nbits w = some i →
    step (s.withFetchWord nbits w) = exec i (s.withFetchWord nbits w)

/-- R98: the engine's first step decodes `CMD`, before every other check; an illegal word (R60) ends the command with
`ILLEGAL_CMD`, whatever the argument registers hold, and changes nothing but `STATUS` and the engine's own state. -/
def Obligations.IllegalCommandEndsBeforeEveryOtherCheck : Prop :=
  ∀ s : State, EngineMoves s →
    (s.cmd.extractLsb' 5 27 ≠ 0#27 ∨ s.cmd.extractLsb' 0 4 ∉ [1#4, 2#4, 3#4]) →
    step s = .next (endedWith s 0x00000106#32)

/-- R112: idle with no transaction pending, CORE does nothing. -/
def Obligations.IdleCoreDoesNothing : Prop :=
  ∀ s : State, s.phase = .idle → s.inputs = [] → step s = .next s

/-! ### Results of the six commands: where each completes, with its whole next state -/

/-- R72: `DOT.S` writes `SCALAR_DOT` of the pairs `(a[i], b[i])` to the one word at `d`. -/
def Obligations.DotScalarCompletesWithItsSum : Prop :=
  ∀ (s : State) (a b d n cap : Nat), DotReady s.params a b d n cap → s.raced = false →
    exec (.dotS a b d n n cap) s = .next
      { s with
        mem := s.mem.writeWord d (scalarSum (sequencePairs s.mem a b n)),
        lanes := { s.lanes with acc := scalarSum (sequencePairs s.mem a b n) },
        status := 0x00000002#32, phase := .idle, position := none }

/-- R73, R70: `DOT.V` writes `GROUPED_DOT_W` of the pairs to the one word at `d`, for either `W` and `HRED_ORDER`. -/
def Obligations.DotGroupedCompletesWithItsSum : Prop :=
  ∀ (s : State) (a b d n cap : Nat), DotReady s.params a b d n cap → s.raced = false → LanesFit s →
    ∃ l : Lanes,
      exec (.dotV a b d n n cap) s = .next
        { s with
          mem := s.mem.writeWord d
            (groupedSum s.params.laneWidth.lanes s.params.hredOrder (sequencePairs s.mem a b n)),
          lanes := l, status := 0x00000002#32, phase := .idle, position := none } ∧
      l.acc = groupedSum s.params.laneWidth.lanes s.params.hredOrder (sequencePairs s.mem a b n) ∧ l.gcnt = 0

/-- R79: `TMUL.S` writes the sixteen `SCALAR_DOT`s of rows and columns, row-major; `LG_A`, `LG_B` and `GCNT` are not
touched (R71). -/
def Obligations.TmulScalarCompletesWithTheProduct : Prop :=
  ∀ (s : State) (a b d : Nat), TmulReady s.params a b d → s.raced = false →
    ∃ acc : Word,
      exec (.tmulS a b d) s = .next
        { s with
          mem := s.mem.writeWords d (tensorScalarWords s.mem a b),
          lanes := { s.lanes with acc := acc }, status := 0x00000002#32, phase := .idle, position := none }

/-- R80, R83: `TMUL.V` writes the sixteen `HRED_4`s, row-major; there is no accumulator, and lanes 4 and up are not
written. -/
def Obligations.TmulGroupedCompletesWithTheProduct : Prop :=
  ∀ (s : State) (a b d : Nat), TmulReady s.params a b d → s.raced = false → LanesFit s →
    ∃ l : Lanes,
      exec (.tmulV a b d) s = .next
        { s with
          mem := s.mem.writeWords d (tensorGroupedWords s.params.hredOrder s.mem a b),
          lanes := l, status := 0x00000002#32, phase := .idle, position := none } ∧
      l.acc = s.lanes.acc ∧ l.gcnt = s.lanes.gcnt ∧
      l.lgA.drop 4 = s.lanes.lgA.drop 4 ∧ l.lgB.drop 4 = s.lanes.lgB.drop 4

/-- R87, R86, R89, R93: `CONV.S` writes exactly `l1 + l2 - 1` words from `y` on, each the `SCALAR_DOT` of the pairs the
range guard admits. -/
def Obligations.ConvScalarCompletesWithTheConvolution : Prop :=
  ∀ (s : State) (x h y l1 l2 cap : Nat), ConvReady s.params x h y l1 l2 cap → s.raced = false →
    ∃ acc : Word,
      exec (.convS x h y l1 l2 cap) s = .next
        { s with
          mem := s.mem.writeWords y (convScalarWords s.mem x h l1 l2),
          lanes := { s.lanes with acc := acc }, status := 0x00000002#32, phase := .idle, position := none }

/-- R88: `CONV.V` writes exactly `l1 + l2 - 1` words from `y` on, each the `GROUPED_DOT_W` of the pairs the range guard
admits, the partial group flushed. -/
def Obligations.ConvGroupedCompletesWithTheConvolution : Prop :=
  ∀ (s : State) (x h y l1 l2 cap : Nat), ConvReady s.params x h y l1 l2 cap → s.raced = false → LanesFit s →
    ∃ l : Lanes,
      exec (.convV x h y l1 l2 cap) s = .next
        { s with
          mem := s.mem.writeWords y
            (convGroupedWords s.params.laneWidth.lanes s.params.hredOrder s.mem x h l1 l2),
          lanes := l, status := 0x00000002#32, phase := .idle, position := none } ∧
      l.gcnt = 0

/-! ### Frames and endings -/

/-- R33, R34, R36, R47: whenever a command answers a next state, every register but `STATUS` is unchanged, and every byte
outside its used output region (the region the meaning writes) reads as before. -/
def Obligations.CommandsChangeOnlyStatusAndTheirOutput : Prop :=
  ∀ (i : Instr) (s t : State), exec i s = .next t →
    (t.params = s.params ∧ t.words = s.words ∧ t.rst = s.rst ∧ t.inputs = s.inputs ∧ t.replies = s.replies ∧
      t.latency = s.latency) ∧
    ∀ p, regionHas (planOf i s.params).out p = false → t.mem.readByte p = s.mem.readByte p

/-- R101, R102: a command that answers a next state has completed: `STATUS` is that of completion or of one of the error
codes 2 to 8, `PHASE` is IDLE and no position is left; a command stops in no other way than the two refusals. -/
def Obligations.EveryCommandEndsOnce : Prop :=
  ∀ (i : Instr) (s : State),
    (∃ t, exec i s = .next t ∧ t.phase = .idle ∧ t.position = none ∧ t.raced = false ∧
      t.status ∈ [0x00000002#32, 0x00000206#32, 0x00000306#32, 0x00000406#32, 0x00000506#32, 0x00000606#32,
        0x00000706#32, 0x00000806#32]) ∨
    exec i s = .refused .regionCoversWindow ∨ exec i s = .refused .regionCoversDevice

/-- R99, R100, R103: `check_args` reports the first condition that holds, in its order, and no memory word, no register
but `STATUS` changes, unless another agent raced with the command (R119, log 11); when none holds, no argument error is
reported. -/
def Obligations.ArgumentChecksReportTheFirstThatHolds : Prop :=
  ∀ (s : State) (a b d la lb lc : Nat),
    (∀ i ∈ [Instr.dotS a b d la lb lc, Instr.dotV a b d la lb lc],
      ((la = 0 ∨ lb = 0) → EndsWithError i s 0x00000206#32) ∧
      (1 ≤ la → 1 ≤ lb → la ≠ lb → EndsWithError i s 0x00000306#32) ∧
      (1 ≤ la → la = lb → lc = 0 → EndsWithError i s 0x00000406#32) ∧
      (1 ≤ la → la = lb → 1 ≤ lc → RegionErrorsReported i s [⟨a, la⟩, ⟨b, lb⟩] ⟨d, 1⟩)) ∧
    (∀ i ∈ [Instr.tmulS a b d, Instr.tmulV a b d], RegionErrorsReported i s [⟨a, 16⟩, ⟨b, 16⟩] ⟨d, 16⟩) ∧
    (∀ i ∈ [Instr.convS a b d la lb lc, Instr.convV a b d la lb lc],
      ((la = 0 ∨ lb = 0) → EndsWithError i s 0x00000206#32) ∧
      (1 ≤ la → 1 ≤ lb → lc < la + lb - 1 → EndsWithError i s 0x00000406#32) ∧
      (1 ≤ la → 1 ≤ lb → la + lb - 1 ≤ lc →
        RegionErrorsReported i s [⟨a, la⟩, ⟨b, lb⟩] ⟨d, la + lb - 1⟩)) ∧
    (EngineMoves s → (∃ why, decode s.words = .illegal why) → step s = .next (endedWith s 0x00000106#32))

/-- R44, R101, R47: a command that passed its checks ends with `BUS` exactly when some word of a used region answers `ERROR`
to the access made there; then every word of the output region is a free value of its own, and every byte outside it
reads as before. -/
def Obligations.BusErrorExactlyWhenAUsedWordAnswersError : Prop :=
  ∀ (i : Instr) (s : State) (c : Plan), c = planOf i s.params → c.error = none → c.refusal s.params = none →
    s.mem.wf = true →
    (((∃ r ∈ c.srcs, ∃ k, k < r.count ∧ readFails s.params (r.base + 4 * k) = true) ∨
        (∃ k, k < c.out.count ∧ writeFails s.params (c.out.base + 4 * k) = true)) →
      ∃ t, exec i s = .next t ∧ t.status = 0x00000806#32 ∧
        (∀ n, n < c.out.count → t.mem.readWord (c.out.base + 4 * n) = Config.freeWord (s.draws + n)) ∧
        ∀ p, regionHas c.out p = false → t.mem.readByte p = s.mem.readByte p) ∧
    ((∀ r ∈ c.srcs, ReadableRegion s.params r) → WritableRegion s.params c.out →
      ∃ t, exec i s = .next t ∧ t.status = 0x00000002#32)

/-- R120, R121: a command that passed its checks and whose used regions reach a register window is refused, and so is one
that reaches a device; the step at such a state is refused too, whoever would move (log 12). -/
def Obligations.RegionsOverWindowsOrDevicesAreRefused : Prop :=
  ∀ (i : Instr) (s : State) (c : Plan) (r q : Region), c = planOf i s.params → c.error = none → r ∈ c.regions →
    r.base < q.base + 4 * q.count → q.base < r.base + 4 * r.count →
    (q ∈ windows s.params → exec i s = .refused .regionCoversWindow) ∧
    (q ∈ s.params.memMap.devices →
      exec i s = .refused .regionCoversWindow ∨ exec i s = .refused .regionCoversDevice) ∧
    (q ∈ windows s.params → s.phase = .busy → decode s.words = .command i →
      step s = .refused .regionCoversWindow) ∧
    (q ∈ s.params.memMap.devices → s.phase = .busy → decode s.words = .command i →
      step s = .refused .regionCoversWindow ∨ step s = .refused .regionCoversDevice)

/-! ### Registers -/

/-- R21, R23 to R28, R124: while CORE takes writes, a 32-bit write to a read-write register is taken and its value reads
back; the next state differs in that register alone. -/
def Obligations.RegisterWritesReadBack : Prop :=
  ∀ (s : State) (o : BitVec 8) (v : Word), AcceptsWrites s →
    o ∈ [0x08#8, 0x10#8, 0x14#8, 0x18#8, 0x1C#8, 0x20#8, 0x24#8] →
    ∃ t, serve (.regWrite o v 4) s = .next t ∧ portRead t o 4 = .word v ∧
      (∀ o', o' ≠ o → portRead t o' 4 = portRead s o' 4) ∧
      t = { s with
        cmd := t.cmd, srcA := t.srcA, srcB := t.srcB, dst := t.dst, lenA := t.lenA, lenB := t.lenB, lenC := t.lenC }

/-- R33: while `BUSY` a write to `CMD`, an argument register or `CTRL` is ignored; the registers hold the accepted values
as long as the command runs, whatever happens; reads are served as usual: in every state, busy, idle or held in reset, a
32-bit read of a register answers the value it holds (R21 to R28, R115). -/
def Obligations.RunningCommandRegistersHold : Prop :=
  (∀ (s : State) (o : BitVec 8) (v : Word), statusBusy s.status = true →
    o ∈ [0x08#8, 0x10#8, 0x14#8, 0x18#8, 0x1C#8, 0x20#8, 0x24#8, 0x04#8] → serve (.regWrite o v 4) s = .next s) ∧
  (∀ s t : State, s.Inv → s.phase = .busy → step s = .next t → t.phase = .busy → t.words = s.words) ∧
  (∀ (s : State) (o : BitVec 8) (n : Nat), s.phase = .busy →
    serve (.regRead o n) s = .next { s with replies := s.replies ++ [portRead s o n] }) ∧
  (∀ s : State,
    portRead s 0x0C#8 4 = .word s.status ∧ portRead s 0x08#8 4 = .word s.cmd ∧ portRead s 0x10#8 4 = .word s.srcA ∧
    portRead s 0x14#8 4 = .word s.srcB ∧ portRead s 0x18#8 4 = .word s.dst ∧ portRead s 0x1C#8 4 = .word s.lenA ∧
    portRead s 0x20#8 4 = .word s.lenB ∧ portRead s 0x24#8 4 = .word s.lenC)

/-- R29: offsets `0x28` to `0xFF`: a read returns zero, a write of any width is ignored. -/
def Obligations.ReservedOffsetsReadZeroIgnoreWrites : Prop :=
  ∀ (s : State) (o : BitVec 8) (v : Word) (n : Nat), 0x28 ≤ o.toNat →
    (o.toNat % 4 = 0 → portRead s o 4 = .word 0#32) ∧ serve (.regWrite o v n) s = .next s

/-- R30: an access that is not 32-bit and aligned: a write is ignored, a read returns 0 in every byte; no read has a side
effect on CORE. -/
def Obligations.OtherAccessesActOnNothing : Prop :=
  ∀ (s : State) (o : BitVec 8) (v : Word) (n : Nat),
    ((n ≠ 4 ∨ o.toNat % 4 ≠ 0) → serve (.regWrite o v n) s = .next s ∧ portRead s o n = .zeros n) ∧
    serve (.regRead o n) s = .next { s with replies := s.replies ++ [portRead s o n] }

/-- R19, R22: `ID` reports `W` and `HRED_ORDER`, the same before and after a reset; writes to `ID` and `STATUS` are
ignored. -/
def Obligations.IdReportsTheParametersAndIsReadOnly : Prop :=
  ∀ (s : State) (v : Word) (n : Nat),
    (∃ w, portRead s 0x00#8 4 = .word w ∧
      (s.params.laneWidth = .four → w.extractLsb' 0 4 = 2#4) ∧
      (s.params.laneWidth = .eight → w.extractLsb' 0 4 = 3#4) ∧
      (s.params.hredOrder = .linear → w.extractLsb' 4 2 = 0#2) ∧
      (s.params.hredOrder = .pairwise → w.extractLsb' 4 2 = 1#2) ∧ w.extractLsb' 6 26 = 0#26) ∧
    serve (.regWrite 0x00#8 v n) s = .next s ∧ serve (.regWrite 0x0C#8 v n) s = .next s ∧
    ∀ (b : Bool) (t : State), serve (.rst b) s = .next t → portRead t 0x00#8 4 = portRead s 0x00#8 4

/-- R20: `CTRL`. Writing `START = 1` while idle accepts a command: `STATUS` becomes `0x00000001`, and the registers, memory
and parameters are kept. Bits 31:1 do not matter; writing 0, or writing while `BUSY`, has no effect; `CTRL` reads as zero. -/
def Obligations.StartAcceptsACommandOnlyWhenIdle : Prop :=
  ∀ (s : State) (v : Word),
    portRead s 0x04#8 4 = .word 0#32 ∧
    (AcceptsWrites s → v.getLsbD 0 = true →
      ∃ t, serve (.regWrite 0x04#8 v 4) s = .next t ∧ t.status = 0x00000001#32 ∧ t.phase = .busy ∧
        t.position = some startPosition ∧ t.words = s.words ∧ t.mem = s.mem ∧ t.params = s.params ∧
        t.lanes.gcnt = s.lanes.gcnt) ∧
    (v.getLsbD 0 = false → serve (.regWrite 0x04#8 v 4) s = .next s) ∧
    (statusBusy s.status = true → serve (.regWrite 0x04#8 v 4) s = .next s)

/-- R22, R106: once `DONE` is 1 it stays 1 until the next acceptance (`STATUS` is then `0x00000001`) or a reset. -/
def Obligations.DoneHoldsUntilAcceptanceOrReset : Prop :=
  ∀ s t : State, s.Inv → step s = .next t → statusDone s.status = true → t.status ≠ s.status →
    t.status = 0x00000001#32 ∨ (t.status = 0x00000000#32 ∧ t.rst = true)

/-! ### Reset -/

/-- R37, R115: a reset while no command runs that uses a region (idle, or busy with an illegal word) gives every register
its reset value and changes no memory and no parameter, so that `ID` is unchanged. Deasserting reset changes nothing but
the input, and CORE is then idle and takes a `CTRL.START` write. What `LG_A`, `LG_B` and `ACC` hold is not stated (the spec leaves it open; log 4). -/
def Obligations.ResetGivesEveryRegisterItsValue : Prop :=
  ∀ s : State,
    (runningPlan s = none →
      ∃ l : Lanes, l.gcnt = 0 ∧
        serve (.rst true) s = .next
          { s with
            cmd := 0#32, status := 0#32, srcA := 0#32, srcB := 0#32, dst := 0#32, lenA := 0#32, lenB := 0#32,
            lenC := 0#32, phase := .idle, position := none, lanes := l, latency := 0, raced := false, rst := true }) ∧
    serve (.rst false) s = .next { s with rst := false } ∧
    (s.Inv → s.rst = true → AcceptsWrites { s with rst := false })

/-- R116, R47, R37: a reset during a command, whether or not it would have passed its argument checks, abandons it: every
register has its reset value, every word of its used output region is a free value of its own, and every other byte reads
as before. That a command which would fail its checks is no exception is the model's reading (log 11), and that a word in
both the output region and a source region (a command that would end with `ALIAS`) is freed is the model's choice (log 24):
R116 also says that source regions are unchanged. -/
def Obligations.ResetAbandonsTheRunningCommand : Prop :=
  ∀ (s : State) (c : Plan), runningPlan s = some c → s.mem.wf = true →
    ∃ t, serve (.rst true) s = .next t ∧ t.status = 0#32 ∧ t.phase = .idle ∧ t.rst = true ∧
      t.words = ⟨0#32, 0#32, 0#32, 0#32, 0#32, 0#32, 0#32⟩ ∧ t.position = none ∧ t.lanes.gcnt = 0 ∧
      t.params = s.params ∧ OutputFreed c.out s t

/-- R115: as long as reset is asserted every register keeps its reset value, whatever the outside does. -/
def Obligations.AssertedResetHoldsTheRegisters : Prop :=
  ∀ s t : State, s.Inv → s.rst = true → step s = .next t → t.rst = true → HeldInReset t

/-- R38: starting a command with the reset values ends with `ILLEGAL_CMD`, memory unchanged. -/
def Obligations.StartingFromResetValuesIsIllegal : Prop :=
  ∃ t, Host.Core.run Sys2Proof.core 2 { State.reset with inputs := [wr32 0x04#8 1#32] } = .next t ∧
    t.status = 0x00000106#32 ∧ t.phase = .idle ∧ t.mem = State.reset.mem ∧ t.words = State.reset.words

/-! ### Memory and the other agents -/

/-- R39: a stored word lies little-endian, byte `i` at `p + i`; it reads back; every other byte is unchanged. -/
def Obligations.StoredWordsAreLittleEndian : Prop :=
  ∀ (m : Memory) (p : Nat) (v : Word), m.wf = true →
    (m.writeWord p v).readByte p = v.extractLsb' 0 8 ∧ (m.writeWord p v).readByte (p + 1) = v.extractLsb' 8 8 ∧
    (m.writeWord p v).readByte (p + 2) = v.extractLsb' 16 8 ∧ (m.writeWord p v).readByte (p + 3) = v.extractLsb' 24 8 ∧
    (m.writeWord p v).readWord p = v ∧ (m.writeWord p v).wf = true ∧
    ∀ q, q < p ∨ p + 4 ≤ q → (m.writeWord p v).readByte q = m.readByte q

/-- R39, R65: with no command running, `MW32` stores its word in ordinary memory that answers there, and `MR32` of the same
address then answers its bytes, lowest first. -/
def Obligations.HostMemoryWordsReadBack : Prop :=
  ∀ (s : State) (addr v : Word), s.phase = .idle → s.mem.wf = true → addr.toNat + 4 ≤ 2 ^ 32 →
    OrdinaryRegion s.params ⟨addr.toNat, 1⟩ →
    (∀ k, k < 4 → writeFails s.params ((addr.toNat + k) / 4 * 4) = false ∧
      readFails s.params ((addr.toNat + k) / 4 * 4) = false) →
    ∃ t u, serve (.memWrite addr [wordByte v 0, wordByte v 1, wordByte v 2, wordByte v 3]) s = .next t ∧
      t = { s with mem := s.mem.writeWord addr.toNat v, draws := s.draws + 4 } ∧ serve (.memRead addr 4) t = .next u ∧
      u.replies = s.replies ++ [.bytes [wordByte v 0, wordByte v 1, wordByte v 2, wordByte v 3]] ∧ u.mem = t.mem

/-- R119, U3: a write of another agent to a used region of the running command is a race: `STATUS` is not affected, and the
command, once it has ended, leaves every word of its output region a free value of its own and nothing else of memory
changed; so it does, by the model's reading, where it ends with an argument error (log 11), and for a word that also lies
in a source region that is the model's choice (log 24). -/
def Obligations.RacingWriteFreesTheOutput : Prop :=
  (∀ (s t : State) (addr : Word) (data : List Byte) (k : Nat),
    isRegisterAccess s.params addr.toNat data.length = false → k < data.length →
    inRunningRegions s (addr.toNat + k) = true → serve (.memWrite addr data) s = .next t →
    t.raced = true ∧ t.status = s.status ∧ t.phase = s.phase) ∧
  (∀ (i : Instr) (s : State) (c : Plan), c = planOf i s.params → c.error = none → c.refusal s.params = none →
    c.busError s.params = false → s.mem.wf = true → s.raced = true →
    ∃ t, exec i s = .next t ∧ t.status = 0x00000002#32 ∧ t.raced = false ∧ OutputFreed c.out s t) ∧
  (∀ (i : Instr) (s : State) (c : Plan) (e : ErrCode), c = planOf i s.params → c.error = some e → s.mem.wf = true →
    s.raced = true →
    ∃ t, exec i s = .next t ∧ t.status = errorStatus e ∧ t.raced = false ∧ OutputFreed c.out s t)

/-- R119, R39, R30: what a host read that is no register access answers: free values in the running command's output
region, 0 in CORE's window, free values at a device, at another instance's window and at a word that answers `ERROR` to
reads (the model's choice, log 13), and memory's byte everywhere else, source regions outside the output region included.
That a byte in both the output and a source region answers a free value is the model's choice (log 24): R119 also says
that source reads see memory unchanged. That a command which would fail its checks is no exception is its reading
(log 11). It changes no memory. A read that passes `2^32` faults (R18, log 13). -/
def Obligations.RacingReadAnswersAnyValue : Prop :=
  ∀ (s : State) (addr : Word) (n : Nat),
    (2 ^ 32 < addr.toNat + n → serve (.memRead addr n) s = .fault .addressOutside) ∧
    (addr.toNat + n ≤ 2 ^ 32 → isRegisterAccess s.params addr.toNat n = false →
      ∃ t bs, serve (.memRead addr n) s = .next t ∧ t.replies = s.replies ++ [.bytes bs] ∧ bs.length = n ∧
        t.mem = s.mem ∧ t.status = s.status ∧ t.raced = s.raced ∧
        ∀ k, k < n →
          (inRunningOutput s (addr.toNat + k) = true → inOwnWindow s.params (addr.toNat + k) = false →
            bs[k]? = some (drawByte (s.draws + k))) ∧
          (bytePlace s.params (readFails s.params) (addr.toNat + k) = .memory →
            inRunningOutput s (addr.toNat + k) = false → bs[k]? = some (s.mem.readByte (addr.toNat + k))) ∧
          (bytePlace s.params (readFails s.params) (addr.toNat + k) ∈ [.foreign, .failing] →
            bs[k]? = some (drawByte (s.draws + k))) ∧
          (inOwnWindow s.params (addr.toNat + k) = true → bs[k]? = some 0#8))

/-- R47: in one step a byte of memory changes only inside the running command's output region, or by another agent's write
that covers it. -/
def Obligations.OnlyOutputsAndOtherAgentsChangeMemory : Prop :=
  ∀ (s t : State) (p : Nat), step s = .next t → t.mem.readByte p ≠ s.mem.readByte p →
    inRunningOutput s p = true ∨
    ∃ addr data rest, s.inputs = .memWrite addr data :: rest ∧ addr.toNat ≤ p ∧ p < addr.toNat + data.length

/-- R36: no command, no register write and nothing else changes a parameter. -/
def Obligations.NoStepChangesAParameter : Prop :=
  ∀ s t : State, step s = .next t → t.params = s.params

/-! ### Whole runs -/

/-- The invariant holds after reset. -/
def Obligations.ResetMeetsTheInvariant : Prop := State.reset.Inv

/-- R22, R31, R32, R115: every step keeps the invariant: canonical memory within its space, `W` lanes, `GCNT` in `0..W`, a
legal `STATUS`, `PHASE = STATUS.BUSY`, a position exactly while busy, registers held in reset. -/
def Obligations.EveryStepKeepsTheInvariant : Prop :=
  ∀ s t : State, s.Inv → step s = .next t → t.Inv

/-- R66: a command statement's writes, issued to an idle CORE, end in the acceptance of exactly that command. -/
def Obligations.CommandStatementStartsItsCommand : Prop :=
  ∀ (i : Instr) (s : State) (rest : List Input), i.wf = true → AcceptsWrites s →
    s.inputs = commandStatement i ++ rest →
    ∃ k t, Host.Core.run Sys2Proof.core k s = .next t ∧ t.phase = .busy ∧ t.status = 0x00000001#32 ∧
      decode t.words = .command i ∧ t.mem = s.mem ∧ t.raced = false ∧ t.position = some startPosition ∧
      t.inputs = .wait :: rest

/-- R102, R126: an accepted command that no model must refuse ends after finitely many steps, whatever `LATENCY` is and
whatever the outside does meanwhile: polls, register accesses, memory accesses within the address space, reset. -/
def Obligations.RunningCommandEnds : Prop :=
  ∀ s : State, s.phase = .busy → statusBusy s.status = true → runningRefusal s = none →
    (∀ x ∈ s.inputs, InSpaceInput x) →
    ∃ k t, Host.Core.run Sys2Proof.core k s = .next t ∧ t.phase = .idle

/-- R66: one poll of `WAIT` answers the final `STATUS` once `DONE` is 1, and otherwise leaves the poll to be made again, with
no command running or while one runs whose end has not come (log 2, log 22). -/
def Obligations.WaitAnswersTheFinalStatus : Prop :=
  ∀ (s : State) (rest : List Input), (s.phase = .idle ∨ (s.latency ≠ 0 ∧ runningRefusal s = none)) →
    s.inputs = .wait :: rest →
    (statusDone s.status = true →
      step s = .next { s with inputs := rest, latency := s.latency - 1, replies := s.replies ++ [.word s.status] }) ∧
    (statusDone s.status = false → step s = .next { s with latency := s.latency - 1 })

/-- R127, R32: running a command as one transition is equivalent to running it access by access: from the acceptance on,
the stepwise engine reaches exactly what the command's meaning answers. -/
def Obligations.StepwiseEngineReachesTheAtomicResult : Prop :=
  ∀ (s : State) (i : Instr), s.phase = .busy → s.position = some startPosition → decode s.words = .command i →
    s.mem.wf = true → ∃ k, engineSteps k s = exec i s

/-- R34, R74: a command's outcome depends only on its operands, the parameters and the words it reads: not on the lane
state left by earlier commands nor on any other byte of memory. -/
def Obligations.OutcomeDependsOnOperandsAlone : Prop :=
  ∀ (i : Instr) (s t s' : State), s.params = t.params → s.raced = false → t.raced = false → LanesFit s → LanesFit t →
    s.mem.wf = true → t.mem.wf = true →
    (∀ r ∈ (planOf i s.params).srcs, ∀ k, k < r.count →
      s.mem.readWord (r.base + 4 * k) = t.mem.readWord (r.base + 4 * k)) →
    exec i s = .next s' →
    ∃ t', exec i t = .next t' ∧ t'.status = s'.status ∧
      (s'.status = 0x00000002#32 → ∀ n, n < (planOf i s.params).out.count →
        t'.mem.readWord ((planOf i s.params).out.base + 4 * n) =
          s'.mem.readWord ((planOf i s.params).out.base + 4 * n))

/-! ### Reduction, tensor and convolution laws -/

/-- R67: `HRED_4` and `HRED_8` in both orders. -/
def Obligations.HorizontalReductionFollowsItsOrder : Prop :=
  ∀ p0 p1 p2 p3 p4 p5 p6 p7 : Word,
    hred .linear [p0, p1, p2, p3] = fadd (fadd (fadd p0 p1) p2) p3 ∧
    hred .pairwise [p0, p1, p2, p3] = fadd (fadd p0 p1) (fadd p2 p3) ∧
    hred .linear [p0, p1, p2, p3, p4, p5, p6, p7] =
      fadd (fadd (fadd (fadd (fadd (fadd (fadd p0 p1) p2) p3) p4) p5) p6) p7 ∧
    hred .pairwise [p0, p1, p2, p3, p4, p5, p6, p7] =
      fadd (fadd (fadd p0 p1) (fadd p2 p3)) (fadd (fadd p4 p5) (fadd p6 p7))

/-- R72, R73, R79, R87, R88: no output word of any command but `TMUL.V` is ever `-0.0`. -/
def Obligations.AccumulatedResultsAreNeverNegativeZero : Prop :=
  ∀ (i : Instr) (s t : State), (∀ a b d, i ≠ .tmulV a b d) → s.raced = false → s.mem.wf = true →
    exec i s = .next t → t.status = 0x00000002#32 →
    ∀ n, n < (planOf i s.params).out.count →
      t.mem.readWord ((planOf i s.params).out.base + 4 * n) ≠ 0x80000000#32

/-- R76: when every product and every partial sum of products, over any selection of them, is exact, `SCALAR_DOT` and
`GROUPED_DOT_W` give the same word for either `W` and either `HRED_ORDER`: the exact sum, `+0.0` when that is zero. -/
def Obligations.ExactSumsAgreeInEveryOrder : Prop :=
  ∀ (w : LaneWidth) (order : HredOrder) (pairs : List (Word × Word)),
    (∀ p ∈ pairs, isFinite p.1 = true ∧ isFinite p.2 = true ∧ isFinite (fmul p.1 p.2) = true ∧
      units (fmul p.1 p.2) * 2 ^ 149 = units p.1 * units p.2) →
    (∀ l : List Word, l.Sublist (pairs.map (fun p => fmul p.1 p.2)) →
      ∃ r, isFinite r = true ∧ units r = (l.map units).sum) →
    scalarSum pairs = groupedSum w.lanes order pairs ∧ isFinite (scalarSum pairs) = true ∧
      units (scalarSum pairs) = ((pairs.map (fun p => fmul p.1 p.2)).map units).sum ∧
      scalarSum pairs ≠ 0x80000000#32

/-- R78: `DOT.V` with `n = W` and `b` all `1.0` returns `fadd(+0.0, HRED_W(a))`, for an `a` with no NaN. -/
def Obligations.DotGroupedProbesTheReduction : Prop :=
  ∀ (s : State) (a b d cap : Nat), DotReady s.params a b d s.params.laneWidth.lanes cap → s.raced = false →
    LanesFit s → s.mem.wf = true →
    (∀ k, k < s.params.laneWidth.lanes → s.mem.readWord (b + 4 * k) = 0x3F800000#32 ∧
      isNaN (s.mem.readWord (a + 4 * k)) = false) →
    ∃ t, exec (.dotV a b d s.params.laneWidth.lanes s.params.laneWidth.lanes cap) s = .next t ∧
      t.mem.readWord d = fadd 0x00000000#32 (hred s.params.hredOrder
        ((List.range s.params.laneWidth.lanes).map (fun k => s.mem.readWord (a + 4 * k))))

/-- R85: with `B` the identity and every element of `A` finite and not `-0.0`, both forms of TMUL write `A`. -/
def Obligations.TensorIdentityGivesBackTheTensor : Prop :=
  ∀ (s : State) (a b d : Nat), TmulReady s.params a b d → s.raced = false → LanesFit s → s.mem.wf = true →
    (∀ r c, r < 4 → c < 4 → s.mem.readWord (b + 4 * (4 * r + c)) = if r = c then 0x3F800000#32 else 0x00000000#32) →
    (∀ n, n < 16 → isFinite (s.mem.readWord (a + 4 * n)) = true ∧ s.mem.readWord (a + 4 * n) ≠ 0x80000000#32) →
    ∀ i ∈ [Instr.tmulS a b d, Instr.tmulV a b d],
      ∃ t, exec i s = .next t ∧ t.status = 0x00000002#32 ∧
        ∀ n, n < 16 → t.mem.readWord (d + 4 * n) = s.mem.readWord (a + 4 * n)

/-- R83: what `TMUL.V` writes does not depend on `W`. -/
def Obligations.TensorGroupedIgnoresTheLaneWidth : Prop :=
  ∀ (s : State) (a b d : Nat) (w : LaneWidth) (l : Lanes), TmulReady s.params a b d → s.raced = false → LanesFit s →
    l.lgA.length = w.lanes → l.lgB.length = w.lanes →
    ∃ t t', exec (.tmulV a b d) s = .next t ∧
      exec (.tmulV a b d) { s with params := { s.params with laneWidth := w }, lanes := l } = .next t' ∧
      t'.mem = t.mem ∧ t'.status = t.status

/-- R89, R90: the pairs behind `y[n]` are those of the range guard, and no other word is read: in particular never
`h[l2]`; for `n` in range there is at least one. -/
def Obligations.ConvolutionPairsMeetTheRangeGuard : Prop :=
  ∀ (p : Params) (i : Instr) (x h y l1 l2 cap n : Nat), 1 ≤ l1 → 1 ≤ l2 → n < l1 + l2 - 1 →
    i ∈ [Instr.convS x h y l1 l2 cap, Instr.convV x h y l1 l2 cap] →
    (∀ q, q ∈ (planOf i p).pairs n ↔
      ∃ k, k < l1 ∧ k ≤ n ∧ n - k < l2 ∧ q = (x + 4 * k, h + 4 * (n - k))) ∧
    (∀ q ∈ (planOf i p).pairs n, q.2 ≠ h + 4 * l2) ∧
    (planOf i p).pairs n ≠ [] ∧ ((planOf i p).pairs n).Pairwise (fun q q' => q.1 < q'.1)

/-- R91: the counts of valid `k`: between 1 and `min(l1, l2)`, symmetric, and `l1 * l2` in all. -/
def Obligations.ConvolutionCountsAddUp : Prop :=
  ∀ (x h l1 l2 : Nat), 1 ≤ l1 → 1 ≤ l2 →
    (∀ n, n < l1 + l2 - 1 →
      1 ≤ (convPairs x h l1 l2 n).length ∧ (convPairs x h l1 l2 n).length ≤ min l1 l2 ∧
      (convPairs x h l1 l2 n).length = (convPairs x h l1 l2 (l1 + l2 - 2 - n)).length) ∧
    ((List.range (l1 + l2 - 1)).map (fun n => (convPairs x h l1 l2 n).length)).sum = l1 * l2

/-! ### Arithmetic -/

/-- R12 items 1 and 2: a finite sum is the exact sum rounded to nearest, ties to an even significand, subnormals kept: no
binary32 number is nearer, and on a tie the significand is even. -/
def Obligations.SumIsRoundedToNearestEven : Prop :=
  ∀ a b c : Word, isFinite a = true → isFinite b = true → isFinite c = true → isFinite (fadd a b) = true →
    |units a + units b - units (fadd a b)| ≤ |units a + units b - units c| ∧
    (|units a + units b - units (fadd a b)| = |units a + units b - units c| → units c ≠ units (fadd a b) →
      fracField (fadd a b) % 2 = 0)

/-- R12 items 1 and 2: the same of a product, in units of `2^-298`. -/
def Obligations.ProductIsRoundedToNearestEven : Prop :=
  ∀ a b c : Word, isFinite a = true → isFinite b = true → isFinite c = true → isFinite (fmul a b) = true →
    |units a * units b - units (fmul a b) * 2 ^ 149| ≤ |units a * units b - units c * 2 ^ 149| ∧
    (|units a * units b - units (fmul a b) * 2 ^ 149| = |units a * units b - units c * 2 ^ 149| →
      units c ≠ units (fmul a b) → fracField (fmul a b) % 2 = 0)

/-- R12 items 1 and 3: finite operands overflow to the correctly signed infinity exactly from half a unit past the largest
finite number on. -/
def Obligations.OverflowGivesTheSignedInfinity : Prop :=
  ∀ a b : Word, isFinite a = true → isFinite b = true →
    ((2 ^ 25 - 1) * 2 ^ 252 ≤ units a + units b → fadd a b = 0x7F800000#32) ∧
    (units a + units b ≤ -((2 ^ 25 - 1) * 2 ^ 252) → fadd a b = 0xFF800000#32) ∧
    (|units a + units b| < (2 ^ 25 - 1) * 2 ^ 252 → isFinite (fadd a b) = true) ∧
    ((2 ^ 25 - 1) * 2 ^ 401 ≤ units a * units b → fmul a b = 0x7F800000#32) ∧
    (units a * units b ≤ -((2 ^ 25 - 1) * 2 ^ 401) → fmul a b = 0xFF800000#32) ∧
    (|units a * units b| < (2 ^ 25 - 1) * 2 ^ 401 → isFinite (fmul a b) = true)

/-- R12 items 3 and 5: the result is a NaN exactly when an operand is one or the operation is invalid; otherwise an
infinite operand gives the IEEE 754 infinite result. -/
def Obligations.NaNsAndInfinitiesFollowTheirRules : Prop :=
  ∀ a b : Word,
    (isNaN (fmul a b) = true ↔
      isNaN a = true ∨ isNaN b = true ∨ (isInf a = true ∧ isZero b = true) ∨ (isZero a = true ∧ isInf b = true)) ∧
    (isNaN (fadd a b) = true ↔
      isNaN a = true ∨ isNaN b = true ∨ (isInf a = true ∧ isInf b = true ∧ signBit a ≠ signBit b)) ∧
    (isNaN (fmul a b) = false → (isInf a = true ∨ isInf b = true) →
      fmul a b = if signBit a = signBit b then 0x7F800000#32 else 0xFF800000#32) ∧
    (isNaN (fadd a b) = false → isInf a = true → fadd a b = a) ∧
    (isNaN (fadd a b) = false → isInf b = true → fadd a b = b)

/-- R12 item 4: the signs of zeros: a sum is `-0.0` only from two `-0.0`, a zero exact sum is otherwise `+0.0`, and the sign
of every zero product, one that underflows included, is the exclusive or of the signs. -/
def Obligations.ZeroResultsHaveTheirSigns : Prop :=
  ∀ a b : Word,
    (fadd a b = 0x80000000#32 ↔ a = 0x80000000#32 ∧ b = 0x80000000#32) ∧
    (isFinite a = true → isFinite b = true → units a + units b = 0 →
      ¬(a = 0x80000000#32 ∧ b = 0x80000000#32) → fadd a b = 0x00000000#32) ∧
    (isFinite a = true → isFinite b = true → (isZero a = true ∨ isZero b = true) →
      fmul a b = if signBit a = signBit b then 0x00000000#32 else 0x80000000#32) ∧
    (isZero (fmul a b) = true → fmul a b = if signBit a = signBit b then 0x00000000#32 else 0x80000000#32)

/-- R12 item 8 with item 5 (log 8): swapping the operands changes nothing but the payload of a NaN result. -/
def Obligations.SwappingOperandsChangesOnlyPayloads : Prop :=
  ∀ a b : Word,
    (isNaN (fmul a b) = false → fmul b a = fmul a b) ∧ (isNaN (fadd a b) = false → fadd b a = fadd a b) ∧
    (isNaN (fmul a b) = true → isNaN (fmul b a) = true) ∧ (isNaN (fadd a b) = true → isNaN (fadd b a) = true)

/-! ### Accesses of the host's bus -/

/-- R39, R30: what a host write that is no register access leaves: its byte in memory, and what was there in CORE's window;
every other byte and every register are unchanged. The model's choice (log 13; R41, R110 and R120 do not say what the
host's own bus does there): a free value at a word that answers `ERROR` to writes, and no change of memory at a device or
at another instance's window. A write that passes `2^32` faults (R18, log 13). -/
def Obligations.HostWritesLandByTheirPlace : Prop :=
  ∀ (s : State) (addr : Word) (data : List Byte),
    (2 ^ 32 < addr.toNat + data.length → serve (.memWrite addr data) s = .fault .addressOutside) ∧
    (addr.toNat + data.length ≤ 2 ^ 32 → isRegisterAccess s.params addr.toNat data.length = false → s.mem.wf = true →
      ∃ t, serve (.memWrite addr data) s = .next t ∧ t = { s with mem := t.mem, raced := t.raced, draws := t.draws } ∧
        (∀ k b, data[k]? = some b →
          (bytePlace s.params (writeFails s.params) (addr.toNat + k) = .memory →
            t.mem.readByte (addr.toNat + k) = b) ∧
          (bytePlace s.params (writeFails s.params) (addr.toNat + k) = .failing →
            t.mem.readByte (addr.toNat + k) = drawByte (s.draws + k)) ∧
          (bytePlace s.params (writeFails s.params) (addr.toNat + k) ∈ [.window, .foreign] →
            t.mem.readByte (addr.toNat + k) = s.mem.readByte (addr.toNat + k))) ∧
        ∀ p, p < addr.toNat ∨ addr.toNat + data.length ≤ p → t.mem.readByte p = s.mem.readByte p)

/-- R18, R30, R65: an aligned 32-bit host access in CORE's window is the register access at that offset, with the bytes
little-endian (R39); one wholly in the window of another width or alignment writes nothing and reads 0 in every byte. -/
def Obligations.WindowAccessesAreRegisterAccesses : Prop :=
  (∀ (s : State) (o : BitVec 8) (v : Word), o.toNat % 4 = 0 →
    serve (.memWrite (s.params.basePage ++ o) [wordByte v 0, wordByte v 1, wordByte v 2, wordByte v 3]) s =
      serve (.regWrite o v 4) s ∧
    serve (.memRead (s.params.basePage ++ o) 4) s = serve (.regRead o 4) s) ∧
  (∀ (s : State) (addr : Word) (data : List Byte), isRegisterAccess s.params addr.toNat data.length = true →
    (data.length ≠ 4 ∨ addr.toNat % 4 ≠ 0) → serve (.memWrite addr data) s = .next s) ∧
  (∀ (s : State) (addr : Word) (n : Nat), isRegisterAccess s.params addr.toNat n = true →
    (n ≠ 4 ∨ addr.toNat % 4 ≠ 0) →
    serve (.memRead addr n) s = .next { s with replies := s.replies ++ [.zeros n] })

/-! ### Whose turn it is -/

/-- R124, R35: while it is not the engine's turn and no running command must be refused, a step serves exactly the oldest
transaction waiting: none is dropped or overtaken. What the step adds around serve is the model's: the transaction leaves
the queue (log 3), and the count to completion falls by one (log 2). -/
def Obligations.StepServesTheOldestTransaction : Prop :=
  ∀ (s : State) (x : Input) (rest : List Input), runningRefusal s = none → ¬EngineMoves s → s.inputs = x :: rest →
    step s = serve x { s with inputs := rest, latency := s.latency - 1 }
end

