-- ==== Sys2Proof/Laws/Float.lean ====
section
/-!
SUPPORT. Laws/Float.lean: the fields of a packed word, and what `NAN_PAYLOAD` yields.
-/
namespace Sys2Proof.Machine

theorem expField_eq (w : Word) : expField w = w.toNat / 2 ^ 23 % 2 ^ 8 := by
  simp [expField, BitVec.extractLsb'_toNat, Nat.shiftRight_eq_div_pow]

theorem fracField_eq (w : Word) : fracField w = w.toNat % 2 ^ 23 := by
  simp [fracField, BitVec.extractLsb'_toNat]

theorem signBit_eq (w : Word) : signBit w = decide (2 ^ 31 ≤ w.toNat) := by
  have := w.isLt
  rw [signBit, BitVec.getLsbD, Nat.testBit_eq_decide_div_mod_eq]
  by_cases h : 2 ^ 31 ≤ w.toNat
  · simp only [h, decide_true, decide_eq_true_eq]; omega
  · simp only [h, decide_false, decide_eq_false_iff_not]; omega

theorem fracField_lt (w : Word) : fracField w < 2 ^ 23 := by rw [fracField_eq]; exact Nat.mod_lt _ (by norm_num)

theorem expField_lt (w : Word) : expField w < 2 ^ 8 := by rw [expField_eq]; exact Nat.mod_lt _ (by norm_num)

theorem packSign_toNat (n : Bool) {f : Nat} (h : f < 2 ^ 31) :
    (packSign n f).toNat = f + if n then 2 ^ 31 else 0 := by
  rw [packSign, BitVec.toNat_ofNat, Nat.mod_eq_of_lt]
  split <;> omega

@[simp] theorem signBit_packSign (n : Bool) {f : Nat} (h : f < 2 ^ 31) : signBit (packSign n f) = n := by
  rw [signBit_eq, packSign_toNat n h]
  cases n
  · simpa using h
  · simp

@[simp] theorem expField_packSign (n : Bool) {f : Nat} (h : f < 2 ^ 31) : expField (packSign n f) = f / 2 ^ 23 := by
  rw [expField_eq, packSign_toNat n h]
  cases n <;> simp <;> omega

@[simp] theorem fracField_packSign (n : Bool) {f : Nat} (h : f < 2 ^ 31) : fracField (packSign n f) = f % 2 ^ 23 := by
  rw [fracField_eq, packSign_toNat n h]
  cases n
  · simp
  · simp only [if_true]; omega

/-- `NAN_PAYLOAD` yields a NaN encoding (R12 item 5). -/
theorem isNaN_nanPayload (op : FloatOp) (a b : Word) : isNaN (nanPayload op a b) = true := by
  have hf := fracField_lt (Config.nanBits op a b)
  unfold nanPayload isNaN
  simp only [infField]
  split
  · rw [expField_packSign _ (by norm_num), fracField_packSign _ (by norm_num)]; rfl
  · next h0 =>
    rw [expField_packSign _ (by omega), fracField_packSign _ (by omega)]
    simp only [Bool.and_eq_true, beq_iff_eq, bne_iff_ne]
    omega

/-- Every NaN encoding is some `NAN_PAYLOAD`: no encoding is ruled out. -/
theorem nanPayload_covers (w : Word) (h : isNaN w = true) :
    packSign (signBit w) (infField + if fracField w = 0 then 0x400000 else fracField w) = w := by
  simp only [isNaN, Bool.and_eq_true, beq_iff_eq, bne_iff_ne, expField_eq, fracField_eq] at h
  have hw := w.isLt
  apply BitVec.eq_of_toNat_eq
  rw [fracField_eq, if_neg h.2, packSign_toNat _ (by simp only [infField]; omega), signBit_eq]
  simp only [infField]
  split <;> simp_all <;> omega

end Sys2Proof.Machine
end

