-- ==== Sys2Proof/Laws/Lanes.lean ====
section
/-!
SUPPORT. Laws/Lanes.lean: what the kernels do to the lane-group state.
-/
namespace Sys2Proof.Machine

theorem padGroup_length {w n : Nat} {g : List Word} (hg : g.length = w) (hn : n ≤ w) : (padGroup w n g).length = w := by
  simp [padGroup, hg]; omega

/-- Folding a committing function that ignores the index over indexed pairs. -/
theorem foldl_zipIdx_fst {α β : Type} (f : β → α → β) (l : List α) (b : β) (n : Nat) :
    (l.zipIdx n).foldl (fun b p => f b p.1) b = l.foldl f b := by
  induction l generalizing b n with
  | nil => rfl
  | cons a rest ih => simp only [List.zipIdx_cons, List.foldl_cons, ih]

/-- The scalar kernel computes `SCALAR_DOT` and touches `ACC` alone (R71). -/
theorem scalarKernel_run (pairs : List (Word × Word)) (l : Lanes) :
    scalarKernel.run pairs l = ({ l with acc := scalarSum pairs }, scalarSum pairs) := by
  have h : ∀ (ps : List (Word × Word)) (l : Lanes),
      ps.foldl (fun (l : Lanes) p => { l with acc := fadd l.acc (fmul p.1 p.2) }) l =
        { l with acc := ps.foldl (fun acc p => fadd acc (fmul p.1 p.2)) l.acc } := by
    intro ps
    induction ps with
    | nil => intro l; rfl
    | cons p rest ih => intro l; rw [List.foldl_cons, ih]; rfl
  unfold Kernel.run scalarKernel
  simp only [foldl_zipIdx_fst (fun (l : Lanes) (p : Word × Word) => { l with acc := fadd l.acc (fmul p.1 p.2) }), h]
  rfl

theorem reduceGroup_lengths (o : HredOrder) (l : Lanes) :
    (reduceGroup o l).lgA = l.lgA ∧ (reduceGroup o l).lgB = l.lgB ∧ (reduceGroup o l).gcnt = 0 := ⟨rfl, rfl, rfl⟩

theorem commitPair_lengths (w : Nat) (o : HredOrder) (l : Lanes) (u v : Word) :
    (commitPair w o l u v).lgA.length = l.lgA.length ∧ (commitPair w o l u v).lgB.length = l.lgB.length := by
  unfold commitPair
  dsimp only
  split <;> simp [reduceGroup]

/-- `GCNT` stays below `W` between commits (R31). -/
theorem commitPair_gcnt {w : Nat} (o : HredOrder) {l : Lanes} (u v : Word) (h : l.gcnt < w) :
    (commitPair w o l u v).gcnt < w := by
  unfold commitPair
  dsimp only
  split
  · simp only [reduceGroup]; omega
  · simp only; omega

end Sys2Proof.Machine
end

