-- ==== Sys2Proof/Laws/Memory.lean ====
section
/-!
SUPPORT. Laws/Memory.lean: reading after writing, bytes and words; every memory operation keeps the canonical form and the
address space; canonical memories that read alike are equal.
-/
namespace Sys2Proof.Machine

/-! ### Bytes -/

@[simp] theorem Memory.readByte_nil (p : Nat) : Memory.readByte [] p = unlistedByte := rfl

theorem Memory.readByte_cons (a : Nat) (v : Byte) (m : Memory) (p : Nat) :
    Memory.readByte ((a, v) :: m) p = if a = p then v else Memory.readByte m p := rfl

theorem Memory.wfFrom_mono {lo lo' : Nat} {m : Memory} (hle : lo' ≤ lo) (h : Memory.wfFrom lo m = true) :
    Memory.wfFrom lo' m = true := by
  cases m with
  | nil => rfl
  | cons c rest =>
    simp only [Memory.wfFrom, Bool.and_eq_true, decide_eq_true_eq] at h ⊢
    exact ⟨⟨le_trans hle h.1.1, h.1.2⟩, h.2⟩

/-- An address below every listed one reads as an unlisted address. -/
theorem Memory.readByte_of_wfFrom_lt {lo : Nat} {m : Memory} {p : Nat} (h : Memory.wfFrom lo m = true) (hp : p < lo) :
    m.readByte p = unlistedByte := by
  induction m generalizing lo with
  | nil => rfl
  | cons c rest ih =>
    obtain ⟨a, v⟩ := c
    simp only [Memory.wfFrom, Bool.and_eq_true, decide_eq_true_eq] at h
    rw [Memory.readByte_cons, if_neg (by omega)]
    exact ih h.2 (by omega)

/-- A write to another address is not seen. -/
theorem Memory.readByte_writeByte_ne (m : Memory) {p q : Nat} (v : Byte) (h : q ≠ p) :
    (m.writeByte p v).readByte q = m.readByte q := by
  induction m with
  | nil =>
    unfold Memory.writeByte
    split
    · rfl
    · rw [Memory.readByte_cons, if_neg (Ne.symm h)]
  | cons c rest ih =>
    obtain ⟨a, w⟩ := c
    unfold Memory.writeByte
    split_ifs with h1 h2 h3 h4
    · rfl
    · rw [Memory.readByte_cons, if_neg (Ne.symm h)]
    · rw [Memory.readByte_cons, if_neg (by omega)]
    · rw [Memory.readByte_cons, Memory.readByte_cons, if_neg (Ne.symm h), if_neg (by omega)]
    · rw [Memory.readByte_cons, Memory.readByte_cons, ih]

theorem Memory.readByte_writeByte_same_from {lo : Nat} {m : Memory} (h : Memory.wfFrom lo m = true) (p : Nat) (v : Byte) :
    (m.writeByte p v).readByte p = v := by
  induction m generalizing lo with
  | nil =>
    unfold Memory.writeByte
    split
    · next hv => exact hv.symm
    · simp [Memory.readByte_cons]
  | cons c rest ih =>
    obtain ⟨a, w⟩ := c
    have hw := h
    simp only [Memory.wfFrom, Bool.and_eq_true, decide_eq_true_eq] at h
    unfold Memory.writeByte
    split_ifs with h1 h2 h3 h4
    · have hp : Memory.wfFrom a ((a, w) :: rest) = true := by
        simp only [Memory.wfFrom, Bool.and_eq_true, decide_eq_true_eq]
        exact ⟨⟨le_refl _, h.1.2⟩, h.2⟩
      rw [Memory.readByte_of_wfFrom_lt hp h1, h2]
    · simp [Memory.readByte_cons]
    · rw [Memory.readByte_of_wfFrom_lt h.2 (by omega), h4]
    · simp [Memory.readByte_cons]
    · rw [Memory.readByte_cons, if_neg (by omega)]
      exact ih h.2

/-- A read after a write to the same address gives the byte written. -/
theorem Memory.readByte_writeByte_same {m : Memory} (h : m.wf = true) (p : Nat) (v : Byte) :
    (m.writeByte p v).readByte p = v :=
  Memory.readByte_writeByte_same_from h p v

theorem Memory.writeByte_wfFrom {lo : Nat} {m : Memory} {p : Nat} (v : Byte) (h : Memory.wfFrom lo m = true) (hp : lo ≤ p) :
    Memory.wfFrom lo (m.writeByte p v) = true := by
  induction m generalizing lo with
  | nil =>
    unfold Memory.writeByte
    split
    · rfl
    · next hv => simp [Memory.wfFrom, hp, hv]
  | cons c rest ih =>
    obtain ⟨a, w⟩ := c
    have hw := h
    simp only [Memory.wfFrom, Bool.and_eq_true, decide_eq_true_eq, bne_iff_ne] at h
    unfold Memory.writeByte
    split_ifs with h1 h2 h3 h4
    · exact hw
    · simp only [Memory.wfFrom, Bool.and_eq_true, decide_eq_true_eq, bne_iff_ne]
      exact ⟨⟨hp, h2⟩, ⟨⟨by omega, h.1.2⟩, h.2⟩⟩
    · exact Memory.wfFrom_mono (by omega) h.2
    · simp only [Memory.wfFrom, Bool.and_eq_true, decide_eq_true_eq, bne_iff_ne]
      exact ⟨⟨hp, h4⟩, by rw [h3]; exact h.2⟩
    · simp only [Memory.wfFrom, Bool.and_eq_true, decide_eq_true_eq, bne_iff_ne]
      exact ⟨⟨h.1.1, h.1.2⟩, ih h.2 (by omega)⟩

/-- A byte write keeps the canonical form. -/
theorem Memory.writeByte_wf {m : Memory} (h : m.wf = true) (p : Nat) (v : Byte) : (m.writeByte p v).wf = true :=
  Memory.writeByte_wfFrom v h (Nat.zero_le p)

/-- A byte write inside the address space keeps memory inside it. -/
theorem Memory.writeByte_inSpace {m : Memory} (h : m.inSpace = true) {p : Nat} (v : Byte) (hp : p < 2 ^ 32) :
    (m.writeByte p v).inSpace = true := by
  unfold Memory.inSpace at *
  rw [List.all_eq_true] at h ⊢
  simp only [decide_eq_true_eq] at h ⊢
  induction m with
  | nil =>
    intro c hc
    unfold Memory.writeByte at hc
    split at hc
    · cases hc
    · rw [List.mem_singleton] at hc
      exact hc ▸ hp
  | cons c rest ih =>
    obtain ⟨a, w⟩ := c
    have ha := h (a, w) List.mem_cons_self
    have hr : ∀ c ∈ rest, c.1 < 2 ^ 32 := fun c hc => h c (List.mem_cons_of_mem _ hc)
    intro c hc
    unfold Memory.writeByte at hc
    split_ifs at hc
    · exact h c hc
    · exact (List.mem_cons.mp hc).elim (· ▸ hp) (h c)
    · exact hr c hc
    · exact (List.mem_cons.mp hc).elim (· ▸ hp) (hr c)
    · exact (List.mem_cons.mp hc).elim (· ▸ ha) (ih hr c)

/-- Canonical memories that read alike everywhere are equal lists. -/
theorem Memory.ext_of_readByte_from {lo : Nat} {m m' : Memory} (h : Memory.wfFrom lo m = true)
    (h' : Memory.wfFrom lo m' = true) (heq : ∀ p, m.readByte p = m'.readByte p) : m = m' := by
  induction m generalizing lo m' with
  | nil =>
    cases m' with
    | nil => rfl
    | cons c rest =>
      obtain ⟨a, v⟩ := c
      simp only [Memory.wfFrom, Bool.and_eq_true, decide_eq_true_eq, bne_iff_ne] at h'
      have := heq a
      simp only [Memory.readByte_nil, Memory.readByte_cons, if_true] at this
      exact absurd this.symm h'.1.2
  | cons c rest ih =>
    obtain ⟨a, v⟩ := c
    have hw := h
    simp only [Memory.wfFrom, Bool.and_eq_true, decide_eq_true_eq, bne_iff_ne] at h
    cases m' with
    | nil =>
      have := heq a
      simp only [Memory.readByte_nil, Memory.readByte_cons, if_true] at this
      exact absurd this h.1.2
    | cons c' rest' =>
      obtain ⟨a', v'⟩ := c'
      have hw' := h'
      simp only [Memory.wfFrom, Bool.and_eq_true, decide_eq_true_eq, bne_iff_ne] at h'
      have haa : a = a' := by
        rcases Nat.lt_trichotomy a a' with hlt | heq' | hgt
        · have hr := heq a
          rw [Memory.readByte_cons, if_pos rfl, Memory.readByte_cons, if_neg (by omega),
            Memory.readByte_of_wfFrom_lt h'.2 (by omega)] at hr
          exact absurd hr h.1.2
        · exact heq'
        · have hr := heq a'
          rw [Memory.readByte_cons, if_neg (by omega), Memory.readByte_of_wfFrom_lt h.2 (by omega),
            Memory.readByte_cons, if_pos rfl] at hr
          exact absurd hr.symm h'.1.2
      subst haa
      have hv : v = v' := by
        have hr := heq a
        simpa only [Memory.readByte_cons, if_true] using hr
      subst hv
      have : rest = rest' := by
        refine ih h.2 h'.2 (fun p => ?_)
        by_cases hp : a = p
        · subst hp
          rw [Memory.readByte_of_wfFrom_lt h.2 (by omega), Memory.readByte_of_wfFrom_lt h'.2 (by omega)]
        · have hr := heq p
          simpa only [Memory.readByte_cons, if_neg hp] using hr
      rw [this]

theorem Memory.ext_of_readByte {m m' : Memory} (h : m.wf = true) (h' : m'.wf = true)
    (heq : ∀ p, m.readByte p = m'.readByte p) : m = m' :=
  Memory.ext_of_readByte_from h h' heq

/-! ### Words -/

/-- The four bytes of a word, put together again, are the word (R39). -/
theorem wordByte_append (v : Word) : wordByte v 3 ++ wordByte v 2 ++ wordByte v 1 ++ wordByte v 0 = v := by
  apply BitVec.eq_of_getLsbD_eq
  intro i hi
  simp only [wordByte, BitVec.getLsbD_append, BitVec.getLsbD_extractLsb']
  interval_cases i <;> simp

/-- A word write is not seen outside its four bytes. -/
theorem Memory.readByte_writeWord_ne (m : Memory) {p q : Nat} (v : Word) (h : q < p ∨ p + 4 ≤ q) :
    (m.writeWord p v).readByte q = m.readByte q := by
  unfold Memory.writeWord
  rw [Memory.readByte_writeByte_ne _ _ (by omega), Memory.readByte_writeByte_ne _ _ (by omega),
    Memory.readByte_writeByte_ne _ _ (by omega), Memory.readByte_writeByte_ne _ _ (by omega)]

/-- Byte `i` of a stored word lies at its address plus `i` (R39). -/
theorem Memory.readByte_writeWord_same {m : Memory} (h : m.wf = true) (p : Nat) (v : Word) {i : Nat} (hi : i < 4) :
    (m.writeWord p v).readByte (p + i) = wordByte v i := by
  have h0 := Memory.writeByte_wf h p (wordByte v 0)
  have h1 := Memory.writeByte_wf h0 (p + 1) (wordByte v 1)
  have h2 := Memory.writeByte_wf h1 (p + 2) (wordByte v 2)
  unfold Memory.writeWord
  have hcases : i = 0 ∨ i = 1 ∨ i = 2 ∨ i = 3 := by omega
  rcases hcases with rfl | rfl | rfl | rfl
  · rw [Memory.readByte_writeByte_ne _ _ (by omega), Memory.readByte_writeByte_ne _ _ (by omega),
      Memory.readByte_writeByte_ne _ _ (by omega), Nat.add_zero, Memory.readByte_writeByte_same h]
  · rw [Memory.readByte_writeByte_ne _ _ (by omega), Memory.readByte_writeByte_ne _ _ (by omega),
      Memory.readByte_writeByte_same h0]
  · rw [Memory.readByte_writeByte_ne _ _ (by omega), Memory.readByte_writeByte_same h1]
  · rw [Memory.readByte_writeByte_same h2]

/-- A word read after a word write to the same address gives the word written. -/
theorem Memory.readWord_writeWord_same {m : Memory} (h : m.wf = true) (p : Nat) (v : Word) :
    (m.writeWord p v).readWord p = v := by
  have hb := fun i (hi : i < 4) => Memory.readByte_writeWord_same h p v hi
  have h0 := hb 0 (by omega)
  rw [Nat.add_zero] at h0
  unfold Memory.readWord
  rw [hb 3 (by omega), hb 2 (by omega), hb 1 (by omega), h0, wordByte_append]

/-- A word read is not changed by a write to other bytes. -/
theorem Memory.readWord_writeWord_ne (m : Memory) {p q : Nat} (v : Word) (h : q + 4 ≤ p ∨ p + 4 ≤ q) :
    (m.writeWord p v).readWord q = m.readWord q := by
  unfold Memory.readWord
  rw [Memory.readByte_writeWord_ne _ _ (by omega), Memory.readByte_writeWord_ne _ _ (by omega),
    Memory.readByte_writeWord_ne _ _ (by omega), Memory.readByte_writeWord_ne _ _ (by omega)]

theorem Memory.writeWord_wf {m : Memory} (h : m.wf = true) (p : Nat) (v : Word) : (m.writeWord p v).wf = true :=
  Memory.writeByte_wf (Memory.writeByte_wf (Memory.writeByte_wf (Memory.writeByte_wf h _ _) _ _) _ _) _ _

theorem Memory.writeWord_inSpace {m : Memory} (h : m.inSpace = true) {p : Nat} (v : Word) (hp : p + 4 ≤ 2 ^ 32) :
    (m.writeWord p v).inSpace = true := by
  unfold Memory.writeWord
  exact Memory.writeByte_inSpace (Memory.writeByte_inSpace (Memory.writeByte_inSpace
    (Memory.writeByte_inSpace h _ (by omega)) _ (by omega)) _ (by omega)) _ (by omega)

/-! ### Runs of bytes and words -/

theorem Memory.readByte_writeBytes_ne (m : Memory) {p q : Nat} (bs : List Byte) (h : q < p ∨ p + bs.length ≤ q) :
    (m.writeBytes p bs).readByte q = m.readByte q := by
  induction bs generalizing m p with
  | nil => rfl
  | cons b rest ih =>
    simp only [List.length_cons] at h
    rw [Memory.writeBytes, ih _ (by omega), Memory.readByte_writeByte_ne _ _ (by omega)]

theorem Memory.writeBytes_wf {m : Memory} (h : m.wf = true) (p : Nat) (bs : List Byte) : (m.writeBytes p bs).wf = true := by
  induction bs generalizing m p with
  | nil => exact h
  | cons b rest ih => exact ih (Memory.writeByte_wf h _ _) _

theorem Memory.writeBytes_inSpace {m : Memory} (h : m.inSpace = true) {p : Nat} (bs : List Byte)
    (hp : p + bs.length ≤ 2 ^ 32) : (m.writeBytes p bs).inSpace = true := by
  induction bs generalizing m p with
  | nil => exact h
  | cons b rest ih =>
    simp only [List.length_cons] at hp
    exact ih (Memory.writeByte_inSpace h _ (by omega)) (by omega)

/-- Byte `k` of a run of bytes lies at `p + k`. -/
theorem Memory.readByte_writeBytes_get {m : Memory} (h : m.wf = true) (p : Nat) (bs : List Byte) {k : Nat}
    (hk : k < bs.length) : (m.writeBytes p bs).readByte (p + k) = bs[k] := by
  induction bs generalizing m p k with
  | nil => simp at hk
  | cons b rest ih =>
    cases k with
    | zero =>
      rw [Memory.writeBytes, Memory.readByte_writeBytes_ne _ _ (by omega)]
      exact Memory.readByte_writeByte_same h p b
    | succ k =>
      simp only [List.length_cons] at hk
      have := ih (Memory.writeByte_wf h p b) (p + 1) (k := k) (by omega)
      rw [Memory.writeBytes, show p + (k + 1) = p + 1 + k by ring, this]
      rfl

theorem Memory.readByte_writeWords_ne (m : Memory) {p q : Nat} (ws : List Word) (h : q < p ∨ p + 4 * ws.length ≤ q) :
    (m.writeWords p ws).readByte q = m.readByte q := by
  induction ws generalizing m p with
  | nil => rfl
  | cons w rest ih =>
    simp only [List.length_cons] at h
    rw [Memory.writeWords, ih _ (by omega), Memory.readByte_writeWord_ne _ _ (by omega)]

theorem Memory.writeWords_wf {m : Memory} (h : m.wf = true) (p : Nat) (ws : List Word) : (m.writeWords p ws).wf = true := by
  induction ws generalizing m p with
  | nil => exact h
  | cons w rest ih => exact ih (Memory.writeWord_wf h _ _) _

theorem Memory.writeWords_inSpace {m : Memory} (h : m.inSpace = true) {p : Nat} (ws : List Word)
    (hp : p + 4 * ws.length ≤ 2 ^ 32) : (m.writeWords p ws).inSpace = true := by
  induction ws generalizing m p with
  | nil => exact h
  | cons w rest ih =>
    simp only [List.length_cons] at hp
    exact ih (Memory.writeWord_inSpace h _ (by omega)) (by omega)

theorem Memory.readWord_writeWords_ne (m : Memory) {p q : Nat} (ws : List Word)
    (h : q + 4 ≤ p ∨ p + 4 * ws.length ≤ q) : (m.writeWords p ws).readWord q = m.readWord q := by
  unfold Memory.readWord
  rw [Memory.readByte_writeWords_ne _ _ (by omega), Memory.readByte_writeWords_ne _ _ (by omega),
    Memory.readByte_writeWords_ne _ _ (by omega), Memory.readByte_writeWords_ne _ _ (by omega)]

/-- Word `n` of a run of words lies at `p + 4*n`. -/
theorem Memory.readWord_writeWords_get {m : Memory} (h : m.wf = true) (p : Nat) (ws : List Word) {n : Nat}
    (hn : n < ws.length) : (m.writeWords p ws).readWord (p + 4 * n) = ws[n] := by
  induction ws generalizing m p n with
  | nil => simp at hn
  | cons w rest ih =>
    cases n with
    | zero =>
      rw [Memory.writeWords, Memory.readWord_writeWords_ne _ _ (by omega)]
      exact Memory.readWord_writeWord_same h p w
    | succ n =>
      simp only [List.length_cons] at hn
      rw [Memory.writeWords]
      have := ih (Memory.writeWord_wf h p w) (p + 4) (n := n) (by omega)
      rw [show p + 4 * (n + 1) = p + 4 + 4 * n by ring, this]
      rfl

/-- A run of words ends with its last word's write. -/
theorem Memory.writeWords_append (m : Memory) (p : Nat) (ws vs : List Word) :
    m.writeWords p (ws ++ vs) = (m.writeWords p ws).writeWords (p + 4 * ws.length) vs := by
  induction ws generalizing m p with
  | nil => rfl
  | cons w rest ih =>
    simp only [List.cons_append, Memory.writeWords, List.length_cons]
    rw [ih, show p + 4 + 4 * rest.length = p + 4 * (rest.length + 1) by ring]

end Sys2Proof.Machine
end

