-- ==== Sys2Proof/Laws/State.lean ====
section
/-!
SUPPORT. Laws/State.lean: what every named update of State does to every field, so that no proof unfolds a record update.
-/
namespace Sys2Proof.Machine

/-! ### endCommand -/

@[simp] theorem endCommand_params (w : Word) (s : State) : (endCommand w s).params = s.params := rfl
@[simp] theorem endCommand_cmd (w : Word) (s : State) : (endCommand w s).cmd = s.cmd := rfl
@[simp] theorem endCommand_status (w : Word) (s : State) : (endCommand w s).status = w := rfl
@[simp] theorem endCommand_srcA (w : Word) (s : State) : (endCommand w s).srcA = s.srcA := rfl
@[simp] theorem endCommand_srcB (w : Word) (s : State) : (endCommand w s).srcB = s.srcB := rfl
@[simp] theorem endCommand_dst (w : Word) (s : State) : (endCommand w s).dst = s.dst := rfl
@[simp] theorem endCommand_lenA (w : Word) (s : State) : (endCommand w s).lenA = s.lenA := rfl
@[simp] theorem endCommand_lenB (w : Word) (s : State) : (endCommand w s).lenB = s.lenB := rfl
@[simp] theorem endCommand_lenC (w : Word) (s : State) : (endCommand w s).lenC = s.lenC := rfl
@[simp] theorem endCommand_phase (w : Word) (s : State) : (endCommand w s).phase = .idle := rfl
@[simp] theorem endCommand_position (w : Word) (s : State) : (endCommand w s).position = none := rfl
@[simp] theorem endCommand_lanes (w : Word) (s : State) : (endCommand w s).lanes = s.lanes := rfl
@[simp] theorem endCommand_mem (w : Word) (s : State) : (endCommand w s).mem = s.mem := rfl
@[simp] theorem endCommand_rst (w : Word) (s : State) : (endCommand w s).rst = s.rst := rfl
@[simp] theorem endCommand_inputs (w : Word) (s : State) : (endCommand w s).inputs = s.inputs := rfl
@[simp] theorem endCommand_replies (w : Word) (s : State) : (endCommand w s).replies = s.replies := rfl
@[simp] theorem endCommand_latency (w : Word) (s : State) : (endCommand w s).latency = s.latency := rfl
@[simp] theorem endCommand_raced (w : Word) (s : State) : (endCommand w s).raced = false := rfl
@[simp] theorem endCommand_draws (w : Word) (s : State) : (endCommand w s).draws = s.draws := rfl

/-! ### raiseCmdError -/

@[simp] theorem raiseCmdError_params (e : ErrCode) (s : State) : (raiseCmdError e s).params = s.params := rfl
@[simp] theorem raiseCmdError_cmd (e : ErrCode) (s : State) : (raiseCmdError e s).cmd = s.cmd := rfl
@[simp] theorem raiseCmdError_status (e : ErrCode) (s : State) : (raiseCmdError e s).status = errorStatus e := rfl
@[simp] theorem raiseCmdError_srcA (e : ErrCode) (s : State) : (raiseCmdError e s).srcA = s.srcA := rfl
@[simp] theorem raiseCmdError_srcB (e : ErrCode) (s : State) : (raiseCmdError e s).srcB = s.srcB := rfl
@[simp] theorem raiseCmdError_dst (e : ErrCode) (s : State) : (raiseCmdError e s).dst = s.dst := rfl
@[simp] theorem raiseCmdError_lenA (e : ErrCode) (s : State) : (raiseCmdError e s).lenA = s.lenA := rfl
@[simp] theorem raiseCmdError_lenB (e : ErrCode) (s : State) : (raiseCmdError e s).lenB = s.lenB := rfl
@[simp] theorem raiseCmdError_lenC (e : ErrCode) (s : State) : (raiseCmdError e s).lenC = s.lenC := rfl
@[simp] theorem raiseCmdError_phase (e : ErrCode) (s : State) : (raiseCmdError e s).phase = .idle := rfl
@[simp] theorem raiseCmdError_position (e : ErrCode) (s : State) : (raiseCmdError e s).position = none := rfl
@[simp] theorem raiseCmdError_lanes (e : ErrCode) (s : State) : (raiseCmdError e s).lanes = s.lanes := rfl
@[simp] theorem raiseCmdError_mem (e : ErrCode) (s : State) : (raiseCmdError e s).mem = s.mem := rfl
@[simp] theorem raiseCmdError_rst (e : ErrCode) (s : State) : (raiseCmdError e s).rst = s.rst := rfl
@[simp] theorem raiseCmdError_inputs (e : ErrCode) (s : State) : (raiseCmdError e s).inputs = s.inputs := rfl
@[simp] theorem raiseCmdError_replies (e : ErrCode) (s : State) : (raiseCmdError e s).replies = s.replies := rfl
@[simp] theorem raiseCmdError_latency (e : ErrCode) (s : State) : (raiseCmdError e s).latency = s.latency := rfl
@[simp] theorem raiseCmdError_raced (e : ErrCode) (s : State) : (raiseCmdError e s).raced = false := rfl
@[simp] theorem raiseCmdError_draws (e : ErrCode) (s : State) : (raiseCmdError e s).draws = s.draws := rfl

/-! ### freeRegion -/

@[simp] theorem freeRegion_params (out : Region) (s : State) : (freeRegion out s).params = s.params := rfl
@[simp] theorem freeRegion_cmd (out : Region) (s : State) : (freeRegion out s).cmd = s.cmd := rfl
@[simp] theorem freeRegion_status (out : Region) (s : State) : (freeRegion out s).status = s.status := rfl
@[simp] theorem freeRegion_srcA (out : Region) (s : State) : (freeRegion out s).srcA = s.srcA := rfl
@[simp] theorem freeRegion_srcB (out : Region) (s : State) : (freeRegion out s).srcB = s.srcB := rfl
@[simp] theorem freeRegion_dst (out : Region) (s : State) : (freeRegion out s).dst = s.dst := rfl
@[simp] theorem freeRegion_lenA (out : Region) (s : State) : (freeRegion out s).lenA = s.lenA := rfl
@[simp] theorem freeRegion_lenB (out : Region) (s : State) : (freeRegion out s).lenB = s.lenB := rfl
@[simp] theorem freeRegion_lenC (out : Region) (s : State) : (freeRegion out s).lenC = s.lenC := rfl
@[simp] theorem freeRegion_phase (out : Region) (s : State) : (freeRegion out s).phase = s.phase := rfl
@[simp] theorem freeRegion_position (out : Region) (s : State) : (freeRegion out s).position = s.position := rfl
@[simp] theorem freeRegion_lanes (out : Region) (s : State) : (freeRegion out s).lanes = s.lanes := rfl
@[simp] theorem freeRegion_mem (out : Region) (s : State) : (freeRegion out s).mem = s.mem.writeBytes out.base (freeBytes s.draws out) := rfl
@[simp] theorem freeRegion_rst (out : Region) (s : State) : (freeRegion out s).rst = s.rst := rfl
@[simp] theorem freeRegion_inputs (out : Region) (s : State) : (freeRegion out s).inputs = s.inputs := rfl
@[simp] theorem freeRegion_replies (out : Region) (s : State) : (freeRegion out s).replies = s.replies := rfl
@[simp] theorem freeRegion_latency (out : Region) (s : State) : (freeRegion out s).latency = s.latency := rfl
@[simp] theorem freeRegion_raced (out : Region) (s : State) : (freeRegion out s).raced = s.raced := rfl
@[simp] theorem freeRegion_draws (out : Region) (s : State) : (freeRegion out s).draws = s.draws + out.count := rfl

/-! ### freeLanes -/

@[simp] theorem freeLanes_params (s : State) : (freeLanes s).params = s.params := rfl
@[simp] theorem freeLanes_cmd (s : State) : (freeLanes s).cmd = s.cmd := rfl
@[simp] theorem freeLanes_status (s : State) : (freeLanes s).status = s.status := rfl
@[simp] theorem freeLanes_srcA (s : State) : (freeLanes s).srcA = s.srcA := rfl
@[simp] theorem freeLanes_srcB (s : State) : (freeLanes s).srcB = s.srcB := rfl
@[simp] theorem freeLanes_dst (s : State) : (freeLanes s).dst = s.dst := rfl
@[simp] theorem freeLanes_lenA (s : State) : (freeLanes s).lenA = s.lenA := rfl
@[simp] theorem freeLanes_lenB (s : State) : (freeLanes s).lenB = s.lenB := rfl
@[simp] theorem freeLanes_lenC (s : State) : (freeLanes s).lenC = s.lenC := rfl
@[simp] theorem freeLanes_phase (s : State) : (freeLanes s).phase = s.phase := rfl
@[simp] theorem freeLanes_position (s : State) : (freeLanes s).position = s.position := rfl
@[simp] theorem freeLanes_mem (s : State) : (freeLanes s).mem = s.mem := rfl
@[simp] theorem freeLanes_rst (s : State) : (freeLanes s).rst = s.rst := rfl
@[simp] theorem freeLanes_inputs (s : State) : (freeLanes s).inputs = s.inputs := rfl
@[simp] theorem freeLanes_replies (s : State) : (freeLanes s).replies = s.replies := rfl
@[simp] theorem freeLanes_latency (s : State) : (freeLanes s).latency = s.latency := rfl
@[simp] theorem freeLanes_raced (s : State) : (freeLanes s).raced = s.raced := rfl
@[simp] theorem freeLanes_draws (s : State) : (freeLanes s).draws = s.draws + (2 * s.params.laneWidth.lanes + 1) := rfl

/-! ### freeGroup -/

@[simp] theorem freeGroup_params (s : State) : (freeGroup s).params = s.params := rfl
@[simp] theorem freeGroup_cmd (s : State) : (freeGroup s).cmd = s.cmd := rfl
@[simp] theorem freeGroup_status (s : State) : (freeGroup s).status = s.status := rfl
@[simp] theorem freeGroup_srcA (s : State) : (freeGroup s).srcA = s.srcA := rfl
@[simp] theorem freeGroup_srcB (s : State) : (freeGroup s).srcB = s.srcB := rfl
@[simp] theorem freeGroup_dst (s : State) : (freeGroup s).dst = s.dst := rfl
@[simp] theorem freeGroup_lenA (s : State) : (freeGroup s).lenA = s.lenA := rfl
@[simp] theorem freeGroup_lenB (s : State) : (freeGroup s).lenB = s.lenB := rfl
@[simp] theorem freeGroup_lenC (s : State) : (freeGroup s).lenC = s.lenC := rfl
@[simp] theorem freeGroup_phase (s : State) : (freeGroup s).phase = s.phase := rfl
@[simp] theorem freeGroup_position (s : State) : (freeGroup s).position = s.position := rfl
@[simp] theorem freeGroup_mem (s : State) : (freeGroup s).mem = s.mem := rfl
@[simp] theorem freeGroup_rst (s : State) : (freeGroup s).rst = s.rst := rfl
@[simp] theorem freeGroup_inputs (s : State) : (freeGroup s).inputs = s.inputs := rfl
@[simp] theorem freeGroup_replies (s : State) : (freeGroup s).replies = s.replies := rfl
@[simp] theorem freeGroup_latency (s : State) : (freeGroup s).latency = s.latency := rfl
@[simp] theorem freeGroup_raced (s : State) : (freeGroup s).raced = s.raced := rfl

/-! ### raiseBus -/

@[simp] theorem raiseBus_params (out : Region) (s : State) : (raiseBus out s).params = s.params := rfl
@[simp] theorem raiseBus_cmd (out : Region) (s : State) : (raiseBus out s).cmd = s.cmd := rfl
@[simp] theorem raiseBus_status (out : Region) (s : State) : (raiseBus out s).status = errorStatus .bus := rfl
@[simp] theorem raiseBus_srcA (out : Region) (s : State) : (raiseBus out s).srcA = s.srcA := rfl
@[simp] theorem raiseBus_srcB (out : Region) (s : State) : (raiseBus out s).srcB = s.srcB := rfl
@[simp] theorem raiseBus_dst (out : Region) (s : State) : (raiseBus out s).dst = s.dst := rfl
@[simp] theorem raiseBus_lenA (out : Region) (s : State) : (raiseBus out s).lenA = s.lenA := rfl
@[simp] theorem raiseBus_lenB (out : Region) (s : State) : (raiseBus out s).lenB = s.lenB := rfl
@[simp] theorem raiseBus_lenC (out : Region) (s : State) : (raiseBus out s).lenC = s.lenC := rfl
@[simp] theorem raiseBus_phase (out : Region) (s : State) : (raiseBus out s).phase = .idle := rfl
@[simp] theorem raiseBus_position (out : Region) (s : State) : (raiseBus out s).position = none := rfl
@[simp] theorem raiseBus_mem (out : Region) (s : State) : (raiseBus out s).mem = s.mem.writeBytes out.base (freeBytes s.draws out) := rfl
@[simp] theorem raiseBus_rst (out : Region) (s : State) : (raiseBus out s).rst = s.rst := rfl
@[simp] theorem raiseBus_inputs (out : Region) (s : State) : (raiseBus out s).inputs = s.inputs := rfl
@[simp] theorem raiseBus_replies (out : Region) (s : State) : (raiseBus out s).replies = s.replies := rfl
@[simp] theorem raiseBus_latency (out : Region) (s : State) : (raiseBus out s).latency = s.latency := rfl
@[simp] theorem raiseBus_raced (out : Region) (s : State) : (raiseBus out s).raced = false := rfl

/-! ### settleRace -/

@[simp] theorem settleRace_params (out : Region) (s : State) : (settleRace out s).params = s.params := by unfold settleRace; split <;> rfl
@[simp] theorem settleRace_cmd (out : Region) (s : State) : (settleRace out s).cmd = s.cmd := by unfold settleRace; split <;> rfl
@[simp] theorem settleRace_status (out : Region) (s : State) : (settleRace out s).status = s.status := by unfold settleRace; split <;> rfl
@[simp] theorem settleRace_srcA (out : Region) (s : State) : (settleRace out s).srcA = s.srcA := by unfold settleRace; split <;> rfl
@[simp] theorem settleRace_srcB (out : Region) (s : State) : (settleRace out s).srcB = s.srcB := by unfold settleRace; split <;> rfl
@[simp] theorem settleRace_dst (out : Region) (s : State) : (settleRace out s).dst = s.dst := by unfold settleRace; split <;> rfl
@[simp] theorem settleRace_lenA (out : Region) (s : State) : (settleRace out s).lenA = s.lenA := by unfold settleRace; split <;> rfl
@[simp] theorem settleRace_lenB (out : Region) (s : State) : (settleRace out s).lenB = s.lenB := by unfold settleRace; split <;> rfl
@[simp] theorem settleRace_lenC (out : Region) (s : State) : (settleRace out s).lenC = s.lenC := by unfold settleRace; split <;> rfl
@[simp] theorem settleRace_phase (out : Region) (s : State) : (settleRace out s).phase = s.phase := by unfold settleRace; split <;> rfl
@[simp] theorem settleRace_position (out : Region) (s : State) : (settleRace out s).position = s.position := by unfold settleRace; split <;> rfl
@[simp] theorem settleRace_rst (out : Region) (s : State) : (settleRace out s).rst = s.rst := by unfold settleRace; split <;> rfl
@[simp] theorem settleRace_inputs (out : Region) (s : State) : (settleRace out s).inputs = s.inputs := by unfold settleRace; split <;> rfl
@[simp] theorem settleRace_replies (out : Region) (s : State) : (settleRace out s).replies = s.replies := by unfold settleRace; split <;> rfl
@[simp] theorem settleRace_latency (out : Region) (s : State) : (settleRace out s).latency = s.latency := by unfold settleRace; split <;> rfl
@[simp] theorem settleRace_raced (out : Region) (s : State) : (settleRace out s).raced = s.raced := by unfold settleRace; split <;> rfl

/-! ### completeOk -/

@[simp] theorem completeOk_params (out : Region) (s : State) : (completeOk out s).params = s.params := by unfold completeOk settleRace; split <;> rfl
@[simp] theorem completeOk_cmd (out : Region) (s : State) : (completeOk out s).cmd = s.cmd := by unfold completeOk settleRace; split <;> rfl
@[simp] theorem completeOk_status (out : Region) (s : State) : (completeOk out s).status = okStatus := by unfold completeOk settleRace; split <;> rfl
@[simp] theorem completeOk_srcA (out : Region) (s : State) : (completeOk out s).srcA = s.srcA := by unfold completeOk settleRace; split <;> rfl
@[simp] theorem completeOk_srcB (out : Region) (s : State) : (completeOk out s).srcB = s.srcB := by unfold completeOk settleRace; split <;> rfl
@[simp] theorem completeOk_dst (out : Region) (s : State) : (completeOk out s).dst = s.dst := by unfold completeOk settleRace; split <;> rfl
@[simp] theorem completeOk_lenA (out : Region) (s : State) : (completeOk out s).lenA = s.lenA := by unfold completeOk settleRace; split <;> rfl
@[simp] theorem completeOk_lenB (out : Region) (s : State) : (completeOk out s).lenB = s.lenB := by unfold completeOk settleRace; split <;> rfl
@[simp] theorem completeOk_lenC (out : Region) (s : State) : (completeOk out s).lenC = s.lenC := by unfold completeOk settleRace; split <;> rfl
@[simp] theorem completeOk_phase (out : Region) (s : State) : (completeOk out s).phase = .idle := by unfold completeOk settleRace; split <;> rfl
@[simp] theorem completeOk_position (out : Region) (s : State) : (completeOk out s).position = none := by unfold completeOk settleRace; split <;> rfl
@[simp] theorem completeOk_rst (out : Region) (s : State) : (completeOk out s).rst = s.rst := by unfold completeOk settleRace; split <;> rfl
@[simp] theorem completeOk_inputs (out : Region) (s : State) : (completeOk out s).inputs = s.inputs := by unfold completeOk settleRace; split <;> rfl
@[simp] theorem completeOk_replies (out : Region) (s : State) : (completeOk out s).replies = s.replies := by unfold completeOk settleRace; split <;> rfl
@[simp] theorem completeOk_latency (out : Region) (s : State) : (completeOk out s).latency = s.latency := by unfold completeOk settleRace; split <;> rfl
@[simp] theorem completeOk_raced (out : Region) (s : State) : (completeOk out s).raced = false := by unfold completeOk settleRace; split <;> rfl

/-! ### accept -/

@[simp] theorem accept_params (s : State) : (accept s).params = s.params := rfl
@[simp] theorem accept_cmd (s : State) : (accept s).cmd = s.cmd := rfl
@[simp] theorem accept_status (s : State) : (accept s).status = acceptedStatus := rfl
@[simp] theorem accept_srcA (s : State) : (accept s).srcA = s.srcA := rfl
@[simp] theorem accept_srcB (s : State) : (accept s).srcB = s.srcB := rfl
@[simp] theorem accept_dst (s : State) : (accept s).dst = s.dst := rfl
@[simp] theorem accept_lenA (s : State) : (accept s).lenA = s.lenA := rfl
@[simp] theorem accept_lenB (s : State) : (accept s).lenB = s.lenB := rfl
@[simp] theorem accept_lenC (s : State) : (accept s).lenC = s.lenC := rfl
@[simp] theorem accept_phase (s : State) : (accept s).phase = .busy := rfl
@[simp] theorem accept_position (s : State) : (accept s).position = some startPosition := rfl
@[simp] theorem accept_mem (s : State) : (accept s).mem = s.mem := rfl
@[simp] theorem accept_rst (s : State) : (accept s).rst = s.rst := rfl
@[simp] theorem accept_inputs (s : State) : (accept s).inputs = s.inputs := rfl
@[simp] theorem accept_replies (s : State) : (accept s).replies = s.replies := rfl
@[simp] theorem accept_latency (s : State) : (accept s).latency = Config.latency s.draws := rfl
@[simp] theorem accept_raced (s : State) : (accept s).raced = false := rfl

/-! ### outputStep -/

@[simp] theorem outputStep_params (c : Plan) (s : State) (n : Nat) : (outputStep c s n).params = s.params := rfl
@[simp] theorem outputStep_cmd (c : Plan) (s : State) (n : Nat) : (outputStep c s n).cmd = s.cmd := rfl
@[simp] theorem outputStep_status (c : Plan) (s : State) (n : Nat) : (outputStep c s n).status = s.status := rfl
@[simp] theorem outputStep_srcA (c : Plan) (s : State) (n : Nat) : (outputStep c s n).srcA = s.srcA := rfl
@[simp] theorem outputStep_srcB (c : Plan) (s : State) (n : Nat) : (outputStep c s n).srcB = s.srcB := rfl
@[simp] theorem outputStep_dst (c : Plan) (s : State) (n : Nat) : (outputStep c s n).dst = s.dst := rfl
@[simp] theorem outputStep_lenA (c : Plan) (s : State) (n : Nat) : (outputStep c s n).lenA = s.lenA := rfl
@[simp] theorem outputStep_lenB (c : Plan) (s : State) (n : Nat) : (outputStep c s n).lenB = s.lenB := rfl
@[simp] theorem outputStep_lenC (c : Plan) (s : State) (n : Nat) : (outputStep c s n).lenC = s.lenC := rfl
@[simp] theorem outputStep_phase (c : Plan) (s : State) (n : Nat) : (outputStep c s n).phase = s.phase := rfl
@[simp] theorem outputStep_position (c : Plan) (s : State) (n : Nat) : (outputStep c s n).position = s.position := rfl
@[simp] theorem outputStep_lanes (c : Plan) (s : State) (n : Nat) : (outputStep c s n).lanes = (c.kernel.run (readPairs s.mem (c.pairs n)) s.lanes).1 := rfl
@[simp] theorem outputStep_mem (c : Plan) (s : State) (n : Nat) : (outputStep c s n).mem = s.mem.writeWord (elementAddr c.out.base n) (c.kernel.run (readPairs s.mem (c.pairs n)) s.lanes).2 := rfl
@[simp] theorem outputStep_rst (c : Plan) (s : State) (n : Nat) : (outputStep c s n).rst = s.rst := rfl
@[simp] theorem outputStep_inputs (c : Plan) (s : State) (n : Nat) : (outputStep c s n).inputs = s.inputs := rfl
@[simp] theorem outputStep_replies (c : Plan) (s : State) (n : Nat) : (outputStep c s n).replies = s.replies := rfl
@[simp] theorem outputStep_latency (c : Plan) (s : State) (n : Nat) : (outputStep c s n).latency = s.latency := rfl
@[simp] theorem outputStep_raced (c : Plan) (s : State) (n : Nat) : (outputStep c s n).raced = s.raced := rfl
@[simp] theorem outputStep_draws (c : Plan) (s : State) (n : Nat) : (outputStep c s n).draws = s.draws := rfl

/-! ### resetRegisters -/

@[simp] theorem resetRegisters_params (s : State) : (resetRegisters s).params = s.params := rfl
@[simp] theorem resetRegisters_cmd (s : State) : (resetRegisters s).cmd = 0#32 := rfl
@[simp] theorem resetRegisters_status (s : State) : (resetRegisters s).status = 0#32 := rfl
@[simp] theorem resetRegisters_srcA (s : State) : (resetRegisters s).srcA = 0#32 := rfl
@[simp] theorem resetRegisters_srcB (s : State) : (resetRegisters s).srcB = 0#32 := rfl
@[simp] theorem resetRegisters_dst (s : State) : (resetRegisters s).dst = 0#32 := rfl
@[simp] theorem resetRegisters_lenA (s : State) : (resetRegisters s).lenA = 0#32 := rfl
@[simp] theorem resetRegisters_lenB (s : State) : (resetRegisters s).lenB = 0#32 := rfl
@[simp] theorem resetRegisters_lenC (s : State) : (resetRegisters s).lenC = 0#32 := rfl
@[simp] theorem resetRegisters_phase (s : State) : (resetRegisters s).phase = .idle := rfl
@[simp] theorem resetRegisters_position (s : State) : (resetRegisters s).position = none := rfl
@[simp] theorem resetRegisters_lanes (s : State) : (resetRegisters s).lanes = Lanes.atReset s.params.laneWidth.lanes := rfl
@[simp] theorem resetRegisters_mem (s : State) : (resetRegisters s).mem = s.mem := rfl
@[simp] theorem resetRegisters_rst (s : State) : (resetRegisters s).rst = s.rst := rfl
@[simp] theorem resetRegisters_inputs (s : State) : (resetRegisters s).inputs = s.inputs := rfl
@[simp] theorem resetRegisters_replies (s : State) : (resetRegisters s).replies = s.replies := rfl
@[simp] theorem resetRegisters_latency (s : State) : (resetRegisters s).latency = 0 := rfl
@[simp] theorem resetRegisters_raced (s : State) : (resetRegisters s).raced = false := rfl
@[simp] theorem resetRegisters_draws (s : State) : (resetRegisters s).draws = s.draws := rfl

/-! ### pushReply -/

@[simp] theorem pushReply_params (r : Reply) (s : State) : (pushReply r s).params = s.params := rfl
@[simp] theorem pushReply_cmd (r : Reply) (s : State) : (pushReply r s).cmd = s.cmd := rfl
@[simp] theorem pushReply_status (r : Reply) (s : State) : (pushReply r s).status = s.status := rfl
@[simp] theorem pushReply_srcA (r : Reply) (s : State) : (pushReply r s).srcA = s.srcA := rfl
@[simp] theorem pushReply_srcB (r : Reply) (s : State) : (pushReply r s).srcB = s.srcB := rfl
@[simp] theorem pushReply_dst (r : Reply) (s : State) : (pushReply r s).dst = s.dst := rfl
@[simp] theorem pushReply_lenA (r : Reply) (s : State) : (pushReply r s).lenA = s.lenA := rfl
@[simp] theorem pushReply_lenB (r : Reply) (s : State) : (pushReply r s).lenB = s.lenB := rfl
@[simp] theorem pushReply_lenC (r : Reply) (s : State) : (pushReply r s).lenC = s.lenC := rfl
@[simp] theorem pushReply_phase (r : Reply) (s : State) : (pushReply r s).phase = s.phase := rfl
@[simp] theorem pushReply_position (r : Reply) (s : State) : (pushReply r s).position = s.position := rfl
@[simp] theorem pushReply_lanes (r : Reply) (s : State) : (pushReply r s).lanes = s.lanes := rfl
@[simp] theorem pushReply_mem (r : Reply) (s : State) : (pushReply r s).mem = s.mem := rfl
@[simp] theorem pushReply_rst (r : Reply) (s : State) : (pushReply r s).rst = s.rst := rfl
@[simp] theorem pushReply_inputs (r : Reply) (s : State) : (pushReply r s).inputs = s.inputs := rfl
@[simp] theorem pushReply_replies (r : Reply) (s : State) : (pushReply r s).replies = s.replies ++ [r] := rfl
@[simp] theorem pushReply_latency (r : Reply) (s : State) : (pushReply r s).latency = s.latency := rfl
@[simp] theorem pushReply_raced (r : Reply) (s : State) : (pushReply r s).raced = s.raced := rfl
@[simp] theorem pushReply_draws (r : Reply) (s : State) : (pushReply r s).draws = s.draws := rfl

/-! ### withFetchWord -/

@[simp] theorem withFetchWord_params (s : State) (n w : Nat) : (s.withFetchWord n w).params = s.params := rfl
@[simp] theorem withFetchWord_cmd (s : State) (n w : Nat) : (s.withFetchWord n w).cmd = (wordsOfNumber n w).cmd := rfl
@[simp] theorem withFetchWord_status (s : State) (n w : Nat) : (s.withFetchWord n w).status = acceptedStatus := rfl
@[simp] theorem withFetchWord_srcA (s : State) (n w : Nat) : (s.withFetchWord n w).srcA = (wordsOfNumber n w).srcA := rfl
@[simp] theorem withFetchWord_srcB (s : State) (n w : Nat) : (s.withFetchWord n w).srcB = (wordsOfNumber n w).srcB := rfl
@[simp] theorem withFetchWord_dst (s : State) (n w : Nat) : (s.withFetchWord n w).dst = (wordsOfNumber n w).dst := rfl
@[simp] theorem withFetchWord_lenA (s : State) (n w : Nat) : (s.withFetchWord n w).lenA = (wordsOfNumber n w).lenA := rfl
@[simp] theorem withFetchWord_lenB (s : State) (n w : Nat) : (s.withFetchWord n w).lenB = (wordsOfNumber n w).lenB := rfl
@[simp] theorem withFetchWord_lenC (s : State) (n w : Nat) : (s.withFetchWord n w).lenC = (wordsOfNumber n w).lenC := rfl
@[simp] theorem withFetchWord_phase (s : State) (n w : Nat) : (s.withFetchWord n w).phase = .busy := rfl
@[simp] theorem withFetchWord_position (s : State) (n w : Nat) : (s.withFetchWord n w).position = some startPosition := rfl
@[simp] theorem withFetchWord_lanes (s : State) (n w : Nat) : (s.withFetchWord n w).lanes = s.lanes := rfl
@[simp] theorem withFetchWord_mem (s : State) (n w : Nat) : (s.withFetchWord n w).mem = s.mem := rfl
@[simp] theorem withFetchWord_rst (s : State) (n w : Nat) : (s.withFetchWord n w).rst = false := rfl
@[simp] theorem withFetchWord_inputs (s : State) (n w : Nat) : (s.withFetchWord n w).inputs = s.inputs := rfl
@[simp] theorem withFetchWord_replies (s : State) (n w : Nat) : (s.withFetchWord n w).replies = s.replies := rfl
@[simp] theorem withFetchWord_latency (s : State) (n w : Nat) : (s.withFetchWord n w).latency = 0 := rfl
@[simp] theorem withFetchWord_raced (s : State) (n w : Nat) : (s.withFetchWord n w).raced = false := rfl
@[simp] theorem withFetchWord_draws (s : State) (n w : Nat) : (s.withFetchWord n w).draws = s.draws := rfl

/-! ### writeOutputs -/

/-- A field that no output word's step changes is not changed by all of them. -/
theorem writeOutputs_field {α : Type} (f : State → α) (c : Plan) (hf : ∀ s n, f (outputStep c s n) = f s) (s : State) :
    f (writeOutputs c s) = f s := by
  unfold writeOutputs
  induction List.range c.out.count generalizing s with
  | nil => rfl
  | cons n rest ih => rw [List.foldl_cons, ih, hf]

@[simp] theorem writeOutputs_params (c : Plan) (s : State) : (writeOutputs c s).params = s.params :=
  writeOutputs_field (·.params) c (fun _ _ => rfl) s
@[simp] theorem writeOutputs_cmd (c : Plan) (s : State) : (writeOutputs c s).cmd = s.cmd :=
  writeOutputs_field (·.cmd) c (fun _ _ => rfl) s
@[simp] theorem writeOutputs_status (c : Plan) (s : State) : (writeOutputs c s).status = s.status :=
  writeOutputs_field (·.status) c (fun _ _ => rfl) s
@[simp] theorem writeOutputs_srcA (c : Plan) (s : State) : (writeOutputs c s).srcA = s.srcA :=
  writeOutputs_field (·.srcA) c (fun _ _ => rfl) s
@[simp] theorem writeOutputs_srcB (c : Plan) (s : State) : (writeOutputs c s).srcB = s.srcB :=
  writeOutputs_field (·.srcB) c (fun _ _ => rfl) s
@[simp] theorem writeOutputs_dst (c : Plan) (s : State) : (writeOutputs c s).dst = s.dst :=
  writeOutputs_field (·.dst) c (fun _ _ => rfl) s
@[simp] theorem writeOutputs_lenA (c : Plan) (s : State) : (writeOutputs c s).lenA = s.lenA :=
  writeOutputs_field (·.lenA) c (fun _ _ => rfl) s
@[simp] theorem writeOutputs_lenB (c : Plan) (s : State) : (writeOutputs c s).lenB = s.lenB :=
  writeOutputs_field (·.lenB) c (fun _ _ => rfl) s
@[simp] theorem writeOutputs_lenC (c : Plan) (s : State) : (writeOutputs c s).lenC = s.lenC :=
  writeOutputs_field (·.lenC) c (fun _ _ => rfl) s
@[simp] theorem writeOutputs_phase (c : Plan) (s : State) : (writeOutputs c s).phase = s.phase :=
  writeOutputs_field (·.phase) c (fun _ _ => rfl) s
@[simp] theorem writeOutputs_position (c : Plan) (s : State) : (writeOutputs c s).position = s.position :=
  writeOutputs_field (·.position) c (fun _ _ => rfl) s
@[simp] theorem writeOutputs_rst (c : Plan) (s : State) : (writeOutputs c s).rst = s.rst :=
  writeOutputs_field (·.rst) c (fun _ _ => rfl) s
@[simp] theorem writeOutputs_inputs (c : Plan) (s : State) : (writeOutputs c s).inputs = s.inputs :=
  writeOutputs_field (·.inputs) c (fun _ _ => rfl) s
@[simp] theorem writeOutputs_replies (c : Plan) (s : State) : (writeOutputs c s).replies = s.replies :=
  writeOutputs_field (·.replies) c (fun _ _ => rfl) s
@[simp] theorem writeOutputs_latency (c : Plan) (s : State) : (writeOutputs c s).latency = s.latency :=
  writeOutputs_field (·.latency) c (fun _ _ => rfl) s
@[simp] theorem writeOutputs_raced (c : Plan) (s : State) : (writeOutputs c s).raced = s.raced :=
  writeOutputs_field (·.raced) c (fun _ _ => rfl) s
@[simp] theorem writeOutputs_draws (c : Plan) (s : State) : (writeOutputs c s).draws = s.draws :=
  writeOutputs_field (·.draws) c (fun _ _ => rfl) s

end Sys2Proof.Machine
end

