-- ==== Sys2Proof/Laws/Ops.lean ====
section
/-!
SUPPORT. Laws/Ops.lean: what each shared operation can do, said once: a command's outcomes, the memory it leaves, the register
port, one transaction, one step.
-/
namespace Sys2Proof.Machine

/-! ### Commands -/

/-- Every command's meaning runs its plan. -/
theorem exec_eq_runPlan (i : Instr) (s : State) : exec i s = runPlan (planOf i s.params) s := by
  cases i <;> rfl

/-- Without a race there is nothing to settle. -/
@[simp] theorem settleRace_of_not_raced {out : Region} {s : State} (h : s.raced = false) : settleRace out s = s := by
  simp [settleRace, h]

theorem settleRace_of_raced {out : Region} {s : State} (h : s.raced = true) :
    settleRace out s = freeGroup (freeRegion out s) := by
  simp [settleRace, h]

/-- What running a plan can answer: the argument error, a refusal, the bus error, or completion. -/
theorem runPlan_cases (c : Plan) (s : State) :
    (∃ e, c.error = some e ∧ runPlan c s = .next (raiseCmdError e (settleRace c.out s))) ∨
    (∃ r, c.error = none ∧ c.refusal s.params = some r ∧ runPlan c s = .refused r) ∨
    (c.error = none ∧ c.refusal s.params = none ∧ c.busError s.params = true ∧
      runPlan c s = .next (raiseBus c.out s)) ∨
    (c.error = none ∧ c.refusal s.params = none ∧ c.busError s.params = false ∧
      runPlan c s = .next (completeOk c.out (writeOutputs c s))) := by
  cases he : c.error with
  | some e => exact .inl ⟨e, rfl, by simp [runPlan, he]⟩
  | none =>
    cases hr : c.refusal s.params with
    | some r => exact .inr (.inl ⟨r, rfl, rfl, by simp [runPlan, he, hr]⟩)
    | none =>
      cases hb : c.busError s.params with
      | true => exact .inr (.inr (.inl ⟨rfl, rfl, rfl, by simp [runPlan, he, hr, hb]⟩))
      | false => exact .inr (.inr (.inr ⟨rfl, rfl, rfl, by simp [runPlan, he, hr, hb]⟩))

/-- The states a plan can end in. -/
theorem runPlan_next {c : Plan} {s t : State} (h : runPlan c s = .next t) :
    (∃ e, c.error = some e ∧ t = raiseCmdError e (settleRace c.out s)) ∨
    (c.error = none ∧ c.refusal s.params = none ∧ c.busError s.params = true ∧ t = raiseBus c.out s) ∨
    (c.error = none ∧ c.refusal s.params = none ∧ c.busError s.params = false ∧
      t = completeOk c.out (writeOutputs c s)) := by
  rcases runPlan_cases c s with ⟨e, he, hn⟩ | ⟨r, -, -, hn⟩ | ⟨he, hr, hb, hn⟩ | ⟨he, hr, hb, hn⟩ <;> rw [hn] at h
  · exact .inl ⟨e, he, by injection h with h; exact h.symm⟩
  · cases h
  · exact .inr (.inl ⟨he, hr, hb, by injection h with h; exact h.symm⟩)
  · exact .inr (.inr ⟨he, hr, hb, by injection h with h; exact h.symm⟩)

/-- The three region checks pass exactly when the regions are aligned, in range, and no source overlaps the output. -/
theorem checkRegions_eq_none {srcs : List Region} {out : Region} :
    checkRegions srcs out = none ↔
      (∀ r ∈ srcs ++ [out], r.base % 4 = 0) ∧ (∀ r ∈ srcs ++ [out], regionEnd r ≤ 2 ^ 32) ∧
      ∀ r ∈ srcs, regionsOverlap r out = false := by
  unfold checkRegions
  split_ifs with h1 h2 h3
  · simp only [List.any_eq_true, bne_iff_ne] at h1
    obtain ⟨r, hr, hne⟩ := h1
    exact ⟨fun h => (by cases h), fun h => absurd (h.1 r hr) hne⟩
  · simp only [List.any_eq_true, decide_eq_true_eq] at h2
    obtain ⟨r, hr, hlt⟩ := h2
    exact ⟨fun h => (by cases h), fun h => absurd (h.2.1 r hr) (by omega)⟩
  · simp only [List.any_eq_true] at h3
    obtain ⟨r, hr, hov⟩ := h3
    exact ⟨fun h => (by cases h), fun h => by rw [h.2.2 r hr] at hov; cases hov⟩
  · simp only [List.any_eq_true, bne_iff_ne, not_exists, not_and, not_not, decide_eq_true_eq, not_lt,
      Bool.not_eq_true] at h1 h2 h3
    exact ⟨fun _ => ⟨h1, h2, h3⟩, fun _ => rfl⟩

/-- A plan that passed its checks has an aligned output region within the address space. -/
theorem planOf_out_fits {i : Instr} {p : Params} (h : (planOf i p).error = none) :
    (planOf i p).out.base % 4 = 0 ∧ regionEnd (planOf i p).out ≤ 2 ^ 32 := by
  have key : ∀ {e : Option ErrCode} {srcs out}, e.or (checkRegions srcs out) = none →
      out.base % 4 = 0 ∧ regionEnd out ≤ 2 ^ 32 := by
    intro e srcs out hor
    have hc := checkRegions_eq_none.mp (Option.or_eq_none_iff.mp hor).2
    exact ⟨hc.1 out (by simp), hc.2.1 out (by simp)⟩
  cases i <;> first
    | exact key h
    | exact key (e := none) (by simpa [planOf, tmulPlan] using h)

/-! ### Memory left by a command -/

/-- A byte outside a region lies below its base or past its end. -/
theorem regionHas_eq_false {r : Region} {p : Nat} :
    regionHas r p = false ↔ p < r.base ∨ r.base + 4 * r.count ≤ p := by
  by_cases h1 : r.base ≤ p <;> by_cases h2 : p < regionEnd r <;>
    simp only [regionHas, h1, h2, decide_true, decide_false, Bool.and_true, Bool.and_false] <;>
    simp only [regionEnd] at h2 <;> simp <;> omega

theorem freeWords_length (d n : Nat) : (freeWords d n).length = n := by simp [freeWords]

theorem freeBytes_length (d : Nat) (out : Region) :
    (freeBytes d out).length = min (4 * out.count) (2 ^ 32 - out.base) := by simp [freeBytes]

/-- Freeing a region is not seen outside it. -/
theorem readByte_freeRegion {out : Region} {s : State} {p : Nat} (h : regionHas out p = false) :
    (freeRegion out s).mem.readByte p = s.mem.readByte p := by
  rw [regionHas_eq_false] at h
  rw [freeRegion_mem, Memory.readByte_writeBytes_ne _ _ (by rw [freeBytes_length]; omega)]

/-- Byte `k` of a freed region is byte `k % 4` of its free word number `k / 4`. -/
theorem readByte_freeRegion_get {out : Region} {s : State} (h : s.mem.wf = true) {k : Nat} (hk : k < 4 * out.count)
    (ht : out.base + k < 2 ^ 32) : (freeRegion out s).mem.readByte (out.base + k) = freeByte s.draws k := by
  rw [freeRegion_mem, Memory.readByte_writeBytes_get h _ _ (by rw [freeBytes_length]; omega)]
  simp [freeBytes]

/-- The output words are not seen outside the output region (R47). -/
theorem readByte_writeOutputs {c : Plan} {s : State} {p : Nat} (h : regionHas c.out p = false) :
    (writeOutputs c s).mem.readByte p = s.mem.readByte p := by
  rw [regionHas_eq_false] at h
  have hfold : ∀ (ns : List Nat) (s : State), (∀ n ∈ ns, n < c.out.count) →
      (ns.foldl (outputStep c) s).mem.readByte p = s.mem.readByte p := by
    intro ns
    induction ns with
    | nil => intro s _; rfl
    | cons n rest ih =>
      intro s hn
      have hlt := hn n List.mem_cons_self
      rw [List.foldl_cons, ih _ (fun m hm => hn m (List.mem_cons_of_mem _ hm)), outputStep_mem, elementAddr,
        Memory.readByte_writeWord_ne _ _ (by omega)]
  exact hfold _ s (fun n hn => List.mem_range.mp hn)

theorem freeRegion_mem_wf {out : Region} {s : State} (h : s.mem.wf = true) : (freeRegion out s).mem.wf = true :=
  Memory.writeBytes_wf h _ _

/-- Freeing a region keeps memory inside the address space, wherever the region lies. -/
theorem freeRegion_mem_inSpace {out : Region} {s : State} (h : s.mem.inSpace = true) :
    (freeRegion out s).mem.inSpace = true := by
  rw [freeRegion_mem]
  by_cases hb : out.base ≤ 2 ^ 32
  · exact Memory.writeBytes_inSpace h _ (by rw [freeBytes_length]; omega)
  · rw [List.eq_nil_of_length_eq_zero (by rw [freeBytes_length]; omega : (freeBytes s.draws out).length = 0)]
    exact h

theorem writeOutputs_mem_wf {c : Plan} {s : State} (h : s.mem.wf = true) : (writeOutputs c s).mem.wf = true := by
  unfold writeOutputs
  induction List.range c.out.count generalizing s with
  | nil => exact h
  | cons n rest ih => exact ih (Memory.writeWord_wf h _ _)

/-- Word `n` of a freed region within the address space is draw number `s.draws + n`. -/
theorem readWord_freeRegion {out : Region} {s : State} (h : s.mem.wf = true) (hfit : regionEnd out ≤ 2 ^ 32) {n : Nat}
    (hn : n < out.count) : (freeRegion out s).mem.readWord (out.base + 4 * n) = Config.freeWord (s.draws + n) := by
  unfold regionEnd at hfit
  have hb : ∀ i, i < 4 → (freeRegion out s).mem.readByte (out.base + 4 * n + i) =
      wordByte (Config.freeWord (s.draws + n)) i := by
    intro i hi
    rw [Nat.add_assoc, readByte_freeRegion_get h (by omega) (by omega), freeByte,
      show (4 * n + i) / 4 = n by omega, show (4 * n + i) % 4 = i by omega]
  have h0 := hb 0 (by omega)
  rw [Nat.add_zero] at h0
  unfold Memory.readWord
  rw [hb 3 (by omega), hb 2 (by omega), hb 1 (by omega), h0, wordByte_append]

/-! ### The running command -/

/-- A command runs exactly when the engine is busy and the accepted registers decode. -/
theorem runningPlan_eq_some {s : State} {c : Plan} :
    runningPlan s = some c ↔ s.phase = .busy ∧ ∃ i, decode s.words = .command i ∧ c = planOf i s.params := by
  unfold runningPlan
  cases s.phase with
  | idle => simp
  | busy =>
    cases decode s.words with
    | illegal why => simp
    | command i => simp [eq_comm]

/-- A running command that is refused is one whose meaning is refused. -/
theorem runningRefusal_eq_some {s : State} {r : Refusal} :
    runningRefusal s = some r ↔ ∃ c, runningPlan s = some c ∧ c.error = none ∧ c.refusal s.params = some r := by
  unfold runningRefusal
  cases runningPlan s with
  | none => simp
  | some c =>
    by_cases he : c.error = none <;> simp [he]

/-- Whether the running command is refused does not depend on the transactions waiting. -/
@[simp] theorem runningRefusal_queue (s : State) (xs : List Input) (n : Nat) :
    runningRefusal { s with inputs := xs, latency := n } = runningRefusal s := rfl

/-! ### The register port -/

/-- What a 32-bit register write can do while CORE takes writes. -/
theorem writeRegister_cases (s : State) (o : Nat) (v : Word) :
    (o = 0x04 ∧ v.getLsbD 0 = true ∧ writeRegister s o v = accept s) ∨
    (o = 0x08 ∧ writeRegister s o v = { s with cmd := v }) ∨
    (o = 0x10 ∧ writeRegister s o v = { s with srcA := v }) ∨
    (o = 0x14 ∧ writeRegister s o v = { s with srcB := v }) ∨
    (o = 0x18 ∧ writeRegister s o v = { s with dst := v }) ∨
    (o = 0x1C ∧ writeRegister s o v = { s with lenA := v }) ∨
    (o = 0x20 ∧ writeRegister s o v = { s with lenB := v }) ∨
    (o = 0x24 ∧ writeRegister s o v = { s with lenC := v }) ∨
    writeRegister s o v = s := by
  unfold writeRegister
  split
  · split
    · next h => exact .inl ⟨rfl, h, rfl⟩
    · simp
  all_goals simp

/-- A register write either is a write that CORE takes, or changes nothing. -/
theorem portWrite_cases (s : State) (o : BitVec 8) (v : Word) (n : Nat) :
    (n = 4 ∧ o.toNat % 4 = 0 ∧ statusBusy s.status = false ∧ s.rst = false ∧
      portWrite s o v n = writeRegister s o.toNat v) ∨
    portWrite s o v n = s := by
  unfold portWrite
  split
  · next h => exact .inl ⟨h.1, h.2.1, h.2.2.1, h.2.2.2, rfl⟩
  · exact .inr rfl

/-! ### One transaction, one step -/

theorem landedBytes_length (s : State) (a : Nat) (bs : List Byte) : (landedBytes s a bs).length = bs.length := by
  simp [landedBytes]

/-- A write of bytes answers exactly when it stays within the address space. -/
theorem writeMemory_fault_iff {s : State} {a : Word} {bs : List Byte} :
    writeMemory s a bs = .fault .addressOutside ↔ 2 ^ 32 < a.toNat + bs.length := by
  unfold writeMemory
  split_ifs with h1 h2 <;> simp <;> omega

/-- What a write of bytes by another agent can do: a register write through the window, or a write of bytes. -/
theorem writeMemory_next {s t : State} {a : Word} {bs : List Byte} (h : writeMemory s a bs = .next t) :
    a.toNat + bs.length ≤ 2 ^ 32 ∧
    ((isRegisterAccess s.params a.toNat bs.length = true ∧ ∃ o v, t = portWrite s o v bs.length) ∨
     (isRegisterAccess s.params a.toNat bs.length = false ∧
      t = { s with
        mem := s.mem.writeBytes a.toNat (landedBytes s a.toNat bs),
        raced := s.raced || (accessBytes a.toNat bs.length).any (inRunningRegions s),
        draws := s.draws + bs.length })) := by
  unfold writeMemory at h
  split_ifs at h with h1 h2
  · injection h with h; exact ⟨by omega, .inl ⟨h2, _, _, h.symm⟩⟩
  · injection h with h; exact ⟨by omega, .inr ⟨by simpa using h2, h.symm⟩⟩

/-- What a read of bytes can do: it answers, and draws at most. -/
theorem readMemory_next {s t : State} {a : Word} {n : Nat} (h : readMemory s a n = .next t) :
    ∃ r d, t = pushReply r { s with draws := d } := by
  unfold readMemory at h
  split_ifs at h
  · injection h with h; exact ⟨_, s.draws, h.symm⟩
  · injection h with h; exact ⟨_, _, h.symm⟩

/-- What a step can do. -/
theorem step_cases (s : State) :
    (∃ r, runningRefusal s = some r ∧ step s = .refused r) ∨
    (runningRefusal s = none ∧ engineTurn s = true ∧ step s = runEngine s) ∨
    (runningRefusal s = none ∧ engineTurn s = false ∧ s.inputs = [] ∧ step s = .next s) ∨
    (∃ x rest, runningRefusal s = none ∧ engineTurn s = false ∧ s.inputs = x :: rest ∧
      step s = serve x { s with inputs := rest, latency := s.latency - 1 }) := by
  unfold step
  cases hr : runningRefusal s with
  | some r => exact .inl ⟨r, rfl, rfl⟩
  | none =>
    cases he : engineTurn s with
    | true => exact .inr (.inl ⟨rfl, rfl, rfl⟩)
    | false =>
      cases hi : s.inputs with
      | nil => exact .inr (.inr (.inl ⟨rfl, rfl, rfl, by simp [serveNext, hi]⟩))
      | cons x rest => exact .inr (.inr (.inr ⟨x, rest, rfl, rfl, rfl, by simp [serveNext, hi]⟩))

/-- What the engine's turn can do. -/
theorem runEngine_cases (s : State) :
    (∃ why, decode s.words = .illegal why ∧ runEngine s = .next (raiseCmdError .illegalCmd s)) ∨
    (∃ i, decode s.words = .command i ∧ runEngine s = exec i s) := by
  unfold runEngine
  cases hd : decode s.words with
  | illegal why => exact .inl ⟨why, rfl, rfl⟩
  | command i => exact .inr ⟨i, rfl, rfl⟩

end Sys2Proof.Machine
end

