-- ==== Sys2Proof/Laws/PerInstr.lean ====
section
/-!
SUPPORT. Laws/PerInstr.lean: statements about every command as syntax, one lemma per constructor.
-/
namespace Sys2Proof.Laws

namespace LegalWord

/-- The `CMD` word of a command has a zero reserved field and a legal `OP` (30_encoding.md R59, R61). -/
def Statement (i : Instr) : Prop :=
  reservedField (encode i).cmd = 0 ∧ opField (encode i).cmd ∈ [1, 2, 3]

theorem dotS (a b d la lb lc : Nat) : Statement (.dotS a b d la lb lc) := by
  show reservedField 0x00000001#32 = 0 ∧ opField 0x00000001#32 ∈ [1, 2, 3]
  decide
theorem dotV (a b d la lb lc : Nat) : Statement (.dotV a b d la lb lc) := by
  show reservedField 0x00000011#32 = 0 ∧ opField 0x00000011#32 ∈ [1, 2, 3]
  decide
theorem tmulS (a b d : Nat) : Statement (.tmulS a b d) := by
  show reservedField 0x00000002#32 = 0 ∧ opField 0x00000002#32 ∈ [1, 2, 3]
  decide
theorem tmulV (a b d : Nat) : Statement (.tmulV a b d) := by
  show reservedField 0x00000012#32 = 0 ∧ opField 0x00000012#32 ∈ [1, 2, 3]
  decide
theorem convS (x h y l1 l2 lc : Nat) : Statement (.convS x h y l1 l2 lc) := by
  show reservedField 0x00000003#32 = 0 ∧ opField 0x00000003#32 ∈ [1, 2, 3]
  decide
theorem convV (x h y l1 l2 lc : Nat) : Statement (.convV x h y l1 l2 lc) := by
  show reservedField 0x00000013#32 = 0 ∧ opField 0x00000013#32 ∈ [1, 2, 3]
  decide

end LegalWord

end Sys2Proof.Laws
end

