-- ==== Sys2Proof/Tests/Slice0.lean ====
section
/-!
SUPPORT. Tests/Slice0.lean: the model's own tests, and a witness for the hypotheses of every statement that has some. Expected
values are those of spec/95_test_vectors.md, or worked out by hand from the encodings and rules named.
-/
namespace Sys2Proof.Machine.Tests

/-! ### Helpers -/

/-- A platform of ordinary memory with `CORE_BASE = 0xF0000000`. -/
def platform (w : LaneWidth) (o : HredOrder) : Params := ⟨w, o, 0xF00000#24, ⟨[], [], [], []⟩⟩

/-- The platform with one word that answers `ERROR` to reads. -/
def readErrorAt (p : Nat) : Params := ⟨.four, .linear, 0xF00000#24, ⟨[⟨p, 1⟩], [], [], []⟩⟩

/-- The platform with a device region of one word. -/
def deviceAt (p : Nat) : Params := ⟨.four, .linear, 0xF00000#24, ⟨[], [], [⟨p, 1⟩], []⟩⟩

/-- Memory with runs of words at addresses. -/
def wordsAt (l : List (Nat × List Word)) : Memory := l.foldl (fun m p => m.writeWords p.1 p.2) []

/-- Idle, just out of reset, with a memory. -/
def idle (p : Params) (l : List (Nat × List Word)) : State :=
  { State.reset with params := p, mem := wordsAt l, lanes := Lanes.atReset p.laneWidth.lanes }

/-- The command tuple has been accepted, and the engine moves next. -/
def running (p : Params) (c : CommandWords) (l : List (Nat × List Word)) : State :=
  { idle p l with
    cmd := c.cmd, srcA := c.srcA, srcB := c.srcB, dst := c.dst, lenA := c.lenA, lenB := c.lenB, lenC := c.lenC,
    status := acceptedStatus, phase := .busy, position := some startPosition }

/-- The outcome is a next state with this `STATUS` and these words of memory. -/
def endsWith (o : Host.Outcome State Fault Refusal) (status : Word) (l : List (Nat × List Word)) : Bool :=
  match o with
  | .next t => t.status == status && l.all (fun p => p.2.zipIdx.all (fun w => t.mem.readWord (p.1 + 4 * w.2) == w.1))
  | _ => false

theorem next_of_endsWith {o : Host.Outcome State Fault Refusal} {st : Word} {l : List (Nat × List Word)}
    (h : endsWith o st l = true) : ∃ t, o = .next t ∧ t.status = st := by
  cases o with
  | next t => exact ⟨t, rfl, by simp only [endsWith, Bool.and_eq_true, beq_iff_eq] at h; exact h.1⟩
  | fault r => cases h
  | refused r => cases h

/-- A property of the next state. -/
def nextMeets (o : Host.Outcome State Fault Refusal) (f : State → Bool) : Bool :=
  match o with
  | .next t => f t
  | _ => false

theorem next_of_nextMeets {o : Host.Outcome State Fault Refusal} {f : State → Bool} (h : nextMeets o f = true) :
    ∃ t, o = .next t ∧ f t = true := by
  cases o with
  | next t => exact ⟨t, rfl, h⟩
  | fault r => cases h
  | refused r => cases h

/-- 1.0, 2.0, 3.0, 4.0 and 5.0 (section 0 of 95_test_vectors.md). -/
def oneToFive : List Word := [0x3F800000#32, 0x40000000#32, 0x40400000#32, 0x40800000#32, 0x40A00000#32]

/-- `n` words of 1.0. -/
def ones (n : Nat) : List Word := List.replicate n 0x3F800000#32

/-- `[2^24, 1, 1, -2^24]` (V-DOT-2). -/
def probe : List Word := [0x4B800000#32, 0x3F800000#32, 0x3F800000#32, 0xCB800000#32]

/-! ### Form and encoding -/

theorem test_wf_refuses_addresses :
    (Instr.dotS (2 ^ 32) 0 0 1 1 1).wf = false ∧ (Instr.tmulV 0 (2 ^ 32) 0).wf = false ∧
    (Instr.convV 0 0 (2 ^ 32) 1 1 1).wf = false ∧ addressFits (2 ^ 32) = false := by decide

theorem test_wf_refuses_counts :
    (Instr.dotV 0 0 0 (2 ^ 32) 1 1).wf = false ∧ (Instr.convS 0 0 0 1 (2 ^ 32) 1).wf = false ∧
    (Instr.dotS 0 0 0 1 1 (2 ^ 32)).wf = false ∧ countFits (2 ^ 32) = false := by decide

theorem test_wf_accepts : (Instr.convV (2 ^ 32 - 1) 0 4 1 1 (2 ^ 32 - 1)).wf = true := by decide

/-- Format C (R56): reserved, `V`, `OP`. -/
def cmdWord (v : BitVec 1) (op : BitVec 4) : Word := 0#27 ++ v ++ op

theorem test_decode_dotS :
    decode ⟨cmdWord 0#1 1#4, 0x10#32, 0x20#32, 0x30#32, 2#32, 3#32, 1#32⟩ = .command (.dotS 0x10 0x20 0x30 2 3 1) := by decide
theorem test_decode_dotV :
    decode ⟨cmdWord 1#1 1#4, 0x10#32, 0x20#32, 0x30#32, 2#32, 3#32, 1#32⟩ = .command (.dotV 0x10 0x20 0x30 2 3 1) := by decide
theorem test_decode_tmulS :
    decode ⟨cmdWord 0#1 2#4, 0x10#32, 0x20#32, 0x30#32, 2#32, 3#32, 1#32⟩ = .command (.tmulS 0x10 0x20 0x30) := by decide
theorem test_decode_tmulV :
    decode ⟨cmdWord 1#1 2#4, 0x10#32, 0x20#32, 0x30#32, 2#32, 3#32, 1#32⟩ = .command (.tmulV 0x10 0x20 0x30) := by decide
theorem test_decode_convS :
    decode ⟨cmdWord 0#1 3#4, 0x10#32, 0x20#32, 0x30#32, 2#32, 3#32, 1#32⟩ = .command (.convS 0x10 0x20 0x30 2 3 1) := by decide
theorem test_decode_convV :
    decode ⟨cmdWord 1#1 3#4, 0x10#32, 0x20#32, 0x30#32, 2#32, 3#32, 1#32⟩ = .command (.convV 0x10 0x20 0x30 2 3 1) := by decide

/-- V-ERR-2's words, and `OP = 0`. -/
theorem test_decode_illegal :
    decode ⟨0x31#32, 0#32, 0#32, 0#32, 0#32, 0#32, 0#32⟩ = .illegal .reservedBits ∧
    decode ⟨0x04#32, 0#32, 0#32, 0#32, 0#32, 0#32, 0#32⟩ = .illegal .reservedOp ∧
    decode ⟨0x14#32, 0#32, 0#32, 0#32, 0#32, 0#32, 0#32⟩ = .illegal .reservedOp ∧
    decode ⟨0x00#32, 0#32, 0#32, 0#32, 0#32, 0#32, 0#32⟩ = .illegal .reservedOp := by decide

theorem test_table_words :
    decodeTableWord 32 0x13 = some (.convV 0 0 0 0 0 0) ∧ decodeTableWord 32 0x20 = none ∧
    decodeTableWord 224 (0x12 + 0x100 * 2 ^ 32 + 0x200 * 2 ^ 64 + 0x300 * 2 ^ 96) = some (.tmulV 0x100 0x200 0x300) := by
  decide

/-- The syntax of R64. -/
theorem test_assembler_text :
    assemblerText (.tmulV 8192 8256 8320) = some "TMUL.V a=8192, b=8256, d=8320" ∧
    assemblerText (.dotS 0 4 8 1 2 1) = none := by decide

/-- P1's encoding of a command statement (R66). -/
theorem test_command_statement :
    commandStatement (.convV 0x1000 0x1010 0x1020 3 3 6) =
      [.regWrite 0x10#8 0x1000#32 4, .regWrite 0x14#8 0x1010#32 4, .regWrite 0x18#8 0x1020#32 4,
       .regWrite 0x1C#8 3#32 4, .regWrite 0x20#8 3#32 4, .regWrite 0x24#8 6#32 4, .regWrite 0x08#8 0x13#32 4,
       .regWrite 0x04#8 1#32 4, .wait] := by decide

/-! ### Arithmetic (R12) -/

/-- `2^24 + 1` ties to the even `2^24`; `1 - 2^24` is exact (section 0 of 95_test_vectors.md). -/
theorem test_fadd_ties_to_even :
    fadd 0x4B800000#32 0x3F800000#32 = 0x4B800000#32 ∧ fadd 0x3F800000#32 0xCB800000#32 = 0xCB7FFFFF#32 ∧
    fadd 0x40000000#32 0x4B800000#32 = 0x4B800001#32 := by decide +kernel

/-- Overflow, and the signs of zero sums (V-DOT-5, R12 item 4). -/
theorem test_fadd_corners :
    fadd 0x7F7FFFFF#32 0x7F7FFFFF#32 = 0x7F800000#32 ∧ fadd 0x00000000#32 0x80000000#32 = 0x00000000#32 ∧
    fadd 0x80000000#32 0x80000000#32 = 0x80000000#32 ∧ fadd 0xBF800000#32 0x3F800000#32 = 0x00000000#32 := by
  decide +kernel

/-- Subnormals are kept, and `2^-150` ties to zero (V-DOT-8, V-DOT-9); the sign of a zero product. -/
theorem test_fmul_corners :
    fmul 0x00000001#32 0x3F800000#32 = 0x00000001#32 ∧ fmul 0x00000001#32 0x3F000000#32 = 0x00000000#32 ∧
    fmul 0xBF800000#32 0x00000000#32 = 0x80000000#32 := by decide +kernel

/-- `HRED_4` tells the orders apart (V-DOT-2). -/
theorem test_hred_orders : hred .linear probe = 0x00000000#32 ∧ hred .pairwise probe = 0x3F800000#32 := by decide +kernel

/-! ### The six commands -/

/-- V-DOT-3. -/
theorem test_dotS_left_to_right :
    endsWith (exec (.dotS 0x4000 0x4020 0x4040 5 5 1)
      (idle (platform .four .pairwise) [(0x4000, probe ++ ones 1), (0x4020, ones 5)])) 0x2#32
      [(0x4040, [0x3F800000#32])] = true := by decide +kernel

/-- V-DOT-11 and V-DOT-12: overlapping sources; the words past the result are not written. -/
theorem test_dotS_sum_of_squares :
    endsWith (exec (.dotS 0x3000 0x3000 0x3040 3 3 3)
      (idle (platform .eight .linear) [(0x3000, oneToFive), (0x3040, [0xDEADBEEF#32, 0xDEADBEEF#32])])) 0x2#32
      [(0x3040, [0x41600000#32, 0xDEADBEEF#32])] = true := by decide +kernel

/-- V-DOT-3, at both widths: the flushed group counts. -/
theorem test_dotV_flush :
    (∀ w ∈ [LaneWidth.four, LaneWidth.eight],
      endsWith (exec (.dotV 0x4000 0x4020 0x4040 5 5 1)
        (idle (platform w .pairwise) [(0x4000, probe ++ ones 1), (0x4020, ones 5)])) 0x2#32
        [(0x4040, [0x40000000#32])] = true) := by decide +kernel

/-- V-DOT-10 at `W = 4`: two full groups and no flush. -/
theorem test_dotV_full_groups :
    endsWith (exec (.dotV 0x4000 0x4020 0x4040 8 8 1)
      (idle (platform .four .linear)
        [(0x4000, oneToFive ++ [0x40C00000#32, 0x40E00000#32, 0x41000000#32]), (0x4020, ones 8)])) 0x2#32
      [(0x4040, [0x42100000#32])] = true := by decide +kernel

/-- The tensor of V-TMUL-4: row 0 all -1.0, the other rows 1.0. -/
def negativeRow : List Word := List.replicate 4 0xBF800000#32 ++ ones 12

/-- V-TMUL-4. -/
theorem test_tmulS_no_negative_zero :
    endsWith (exec (.tmulS 0x2000 0x2040 0x2080) (idle (platform .four .linear) [(0x2000, negativeRow)])) 0x2#32
      [(0x2080, List.replicate 16 0#32)] = true := by decide +kernel

/-- The rows 1..4, 5..8, 9..12, 13..16 of `A16` (section 2.3 of 95_test_vectors.md). -/
def a16 : List Word :=
  oneToFive ++ [0x40C00000#32, 0x40E00000#32, 0x41000000#32, 0x41100000#32, 0x41200000#32, 0x41300000#32,
    0x41400000#32, 0x41500000#32, 0x41600000#32, 0x41700000#32, 0x41800000#32]

/-- The identity tensor. -/
def identity16 : List Word := (List.range 16).map (fun n => if n % 5 = 0 then 0x3F800000#32 else 0#32)

/-- V-TMUL-3's first row and `C[1][2] = 254`. -/
theorem test_tmulS_square :
    nextMeets (exec (.tmulS 0x2000 0x2000 0x20C0) (idle (platform .four .linear) [(0x2000, a16)]))
      (fun t => (List.range 4).map (fun j => t.mem.readWord (0x20C0 + 4 * j)) ==
          [0x42B40000#32, 0x42C80000#32, 0x42DC0000#32, 0x42F00000#32] &&
        t.mem.readWord (0x20C0 + 4 * 6) == 0x437E0000#32) = true := by decide +kernel

/-- V-TMUL-5: `HRED_4` at `W = 8`. -/
theorem test_tmulV_negative_zero_row :
    endsWith (exec (.tmulV 0x2000 0x2040 0x2080) (idle (platform .eight .linear) [(0x2000, negativeRow)])) 0x2#32
      [(0x2080, List.replicate 4 0x80000000#32 ++ List.replicate 12 0#32)] = true := by decide +kernel

/-- V-TMUL-2: `A16 × I = A16`. -/
theorem test_tmulV_identity :
    endsWith (exec (.tmulV 0x2000 0x2040 0x2080)
      (idle (platform .four .pairwise) [(0x2000, a16), (0x2040, identity16)])) 0x2#32 [(0x2080, a16)] = true := by
  decide +kernel

/-- V-CONV-7: the direction of `k`. -/
theorem test_convS_direction :
    endsWith (exec (.convS 0x1000 0x1010 0x1020 3 3 5)
      (idle (platform .four .linear) [(0x1000, [0x4B800000#32, 0x3F800000#32, 0x3F800000#32]), (0x1010, ones 3)])) 0x2#32
      [(0x1020, [0x4B800000#32, 0x4B800000#32, 0x4B800000#32, 0x40000000#32, 0x3F800000#32])] = true := by
  decide +kernel

/-- V-CONV-5: words past the used length are not written. -/
theorem test_convS_length :
    endsWith (exec (.convS 0x1000 0x1010 0x1020 3 3 7)
      (idle (platform .eight .linear) [(0x1000, ones 3), (0x1010, ones 3), (0x1020, List.replicate 7 0xDEADBEEF#32)])) 0x2#32
      [(0x1020, [0x3F800000#32, 0x40000000#32, 0x40400000#32, 0x40000000#32, 0x3F800000#32, 0xDEADBEEF#32,
        0xDEADBEEF#32])] = true := by decide +kernel

/-- V-CONV-2: every output is one flushed group. -/
theorem test_convV_flush :
    endsWith (exec (.convV 0x1000 0x1020 0x1040 5 3 7)
      (idle (platform .four .pairwise)
        [(0x1000, oneToFive), (0x1020, [0x3F800000#32, 0x41200000#32, 0x42C80000#32])])) 0x2#32
      [(0x1040, [0x3F800000#32, 0x41400000#32, 0x42F60000#32, 0x436A0000#32, 0x43AC8000#32, 0x43E10000#32,
        0x43FA0000#32])] = true := by decide +kernel

/-- V-CONV-9 under `PAIRWISE`: `y[3]` and `y[4]`. -/
theorem test_convV_full_and_flushed :
    endsWith (exec (.convV 0x1000 0x1020 0x1040 5 5 9)
      (idle (platform .four .pairwise) [(0x1000, probe ++ ones 1), (0x1020, ones 5)])) 0x2#32
      [(0x104C, [0x3F800000#32, 0x40000000#32, 0xCB7FFFFD#32])] = true := by decide +kernel

/-! ### Registers, reset, engine -/

/-- P4: `ID` for each parameter value. -/
theorem test_id_words :
    idWord (platform .four .linear) = 0x02#32 ∧ idWord (platform .eight .linear) = 0x03#32 ∧
    idWord (platform .four .pairwise) = 0x12#32 ∧ idWord (platform .eight .pairwise) = 0x13#32 := by decide

/-- R101's examples. -/
theorem test_error_status : errorStatus .aliased = 0x00000706#32 ∧ errorStatus .bus = 0x00000806#32 := by decide

/-- V-ERR-13: the word at `SRC_B + 8` answers `ERROR`; what the output then holds is not checked. -/
theorem test_bus_error :
    endsWith (exec (.dotS 0x1000 0x1010 0x1020 4 4 1)
      (idle (readErrorAt 0x1018) [(0x1000, ones 4), (0x1010, ones 4)])) 0x00000806#32 [] = true := by
  decide +kernel

/-- The host stores through `CORE_BASE`: the register `LEN_A` (log 13). -/
theorem test_window_write :
    nextMeets (serve (.memWrite 0xF000001C#32 [0x63#8, 0#8, 0#8, 0#8]) (idle (platform .four .linear) []))
      (fun t => t.lenA == 99#32 && t.mem == []) = true := by decide

/-- A host write across the lower edge of CORE's window: the bytes below it land, and no register changes (R30, log 13). -/
theorem test_write_across_window_edge :
    nextMeets (serve (.memWrite 0xEFFFFFFE#32 [1#8, 2#8, 3#8, 4#8]) (idle (platform .four .linear) []))
      (fun t => t.mem == [(0xEFFFFFFE, 1#8), (0xEFFFFFFF, 2#8)] && t.words == State.reset.words) = true := by
  decide +kernel

/-- A host write to a device leaves memory, and a host read in CORE's window of another width answers zeros (R30). -/
theorem test_host_access_elsewhere :
    nextMeets (serve (.memWrite 0x20BC#32 [9#8]) (idle (deviceAt 0x20BC) [])) (fun t => t.mem == []) = true ∧
    nextMeets (serve (.memRead 0xF0000000#32 2) (idle (platform .four .linear) []))
      (fun t => t.replies == [.zeros 2]) = true := by decide +kernel

/-- The stepwise engine agrees with the atomic one on P1's last output words. -/
theorem test_stepwise_dot :
    nextMeets (engineSteps 4 (running (platform .four .linear)
        ⟨0x1#32, 0x1000#32, 0x1010#32, 0x1020#32, 2#32, 2#32, 1#32⟩ [(0x1000, ones 2), (0x1010, ones 2)]))
      (fun t => t.mem.readWord 0x1020 == 0x40000000#32 && t.status == 0x2#32) = true := by decide +kernel

/-! ### Witnesses: states and operands that meet the hypotheses of each statement -/

/-- A DOT of length 5 that has been accepted. -/
def dotWords : CommandWords := ⟨0x11#32, 0x4000#32, 0x4020#32, 0x4040#32, 5#32, 5#32, 1#32⟩

/-- The state in which it is running. -/
def dotRunning : State := running (platform .four .pairwise) dotWords [(0x4000, oneToFive), (0x4020, ones 5)]

/-- Its command. -/
def dotCommand : Instr := .dotV 0x4000 0x4020 0x4040 5 5 1

theorem witness_encode : ∃ i : Instr, i.wf = true := ⟨.convV (2 ^ 32 - 1) 0 4 (2 ^ 32 - 1) 1 0, by decide⟩

theorem witness_decode : ∃ c i, decode c = .command i := ⟨dotWords, dotCommand, by decide⟩

theorem witness_opcode_map :
    (∃ c : CommandWords, c.cmd = 0x00000012#32) ∧
    ∃ c : CommandWords, c.cmd ∉ [0x00000001#32, 0x00000011#32, 0x00000002#32, 0x00000012#32, 0x00000003#32, 0x00000013#32] :=
  ⟨⟨⟨0x12#32, 0#32, 0#32, 0#32, 0#32, 0#32, 0#32⟩, rfl⟩, ⟨0x21#32, 0#32, 0#32, 0#32, 0#32, 0#32, 0#32⟩, by decide⟩

theorem witness_step : EngineMoves dotRunning ∧ decode dotRunning.words = .command dotCommand := by decide +kernel

theorem witness_placed : ∃ i, decodeTableWord 32 0x11 = some i := ⟨_, rfl⟩

/-- One witness for each of the two clauses, at the values next to the legal ones. -/
theorem witness_illegal :
    (∃ s : State, EngineMoves s ∧ s.cmd.extractLsb' 5 27 ≠ 0#27) ∧
    ∃ s : State, EngineMoves s ∧ s.cmd.extractLsb' 5 27 = 0#27 ∧ s.cmd.extractLsb' 0 4 ∉ [1#4, 2#4, 3#4] :=
  ⟨⟨{ dotRunning with cmd := 0x21#32 }, by decide +kernel⟩, ⟨{ dotRunning with cmd := 0x04#32 }, by decide +kernel⟩⟩

theorem witness_idle : State.reset.phase = .idle ∧ State.reset.inputs = [] := ⟨rfl, rfl⟩

theorem witness_dot_ready : DotReady dotRunning.params 0x4000 0x4020 0x4040 5 1 ∧ dotRunning.raced = false ∧
    LanesFit dotRunning := by decide +kernel

theorem witness_tmul_ready : TmulReady dotRunning.params 0x2000 0x2040 0x2080 ∧ dotRunning.raced = false ∧
    LanesFit dotRunning := by decide +kernel

theorem witness_conv_ready : ConvReady dotRunning.params 0x1000 0x1020 0x1040 5 3 7 ∧ dotRunning.raced = false ∧
    LanesFit dotRunning := by decide +kernel

theorem witness_frame : ∃ t, exec dotCommand dotRunning = .next t :=
  (next_of_endsWith (st := 0x2#32) (l := []) (by decide +kernel)).imp (fun _ h => h.1)

/-- The length clauses of DOT and CONV, each at the value next to the passing one. -/
theorem witness_length_checks :
    (∃ la lb : Nat, la = 0 ∨ lb = 0) ∧ (∃ la lb : Nat, 1 ≤ la ∧ 1 ≤ lb ∧ la ≠ lb) ∧
    (∃ la lb lc : Nat, 1 ≤ la ∧ la = lb ∧ lc = 0) ∧ (∃ la lb lc : Nat, 1 ≤ la ∧ 1 ≤ lb ∧ lc < la + lb - 1) :=
  ⟨⟨0, 5, by decide⟩, ⟨1, 2, by decide⟩, ⟨1, 1, 0, by decide⟩, ⟨3, 3, 4, by decide⟩⟩

/-- `MISALIGNED`: one byte off. -/
theorem witness_misaligned : ∃ r ∈ [(⟨0x2000, 16⟩ : Region), ⟨0x2041, 16⟩] ++ [⟨0x2080, 16⟩], r.base % 4 ≠ 0 := by
  decide +kernel

/-- `RANGE`: one word past the top. -/
theorem witness_range :
    (∀ r ∈ [(⟨0xFFFFFFFC, 2⟩ : Region), ⟨0x2000, 2⟩] ++ [⟨0x3000, 1⟩], r.base % 4 = 0) ∧
    ∃ r ∈ [(⟨0xFFFFFFFC, 2⟩ : Region), ⟨0x2000, 2⟩] ++ [⟨0x3000, 1⟩], 2 ^ 32 < r.base + 4 * r.count := by
  decide +kernel

/-- The regions of `ALIAS`: the output is the last word of a source. -/
def aliasSources : List Region := [⟨0x1000, 5⟩, ⟨0x2000, 5⟩]

theorem witness_alias :
    (∀ r ∈ aliasSources ++ [⟨0x1010, 1⟩], r.base % 4 = 0) ∧
    (∀ r ∈ aliasSources ++ [⟨0x1010, 1⟩], r.base + 4 * r.count ≤ 2 ^ 32) ∧
    ∃ r ∈ aliasSources, ∃ p : Nat, (r.base ≤ p ∧ p < r.base + 4 * r.count) ∧ 0x1010 ≤ p ∧ p < 0x1010 + 4 * 1 :=
  ⟨by decide +kernel, by decide +kernel, ⟨0x1000, 5⟩, by decide +kernel, 0x1013, by decide +kernel⟩

/-- No argument error: two equal sources that end at `2^32`, and the output next to them. -/
def topSources : List Region := [⟨0xFFFFFFF8, 2⟩, ⟨0xFFFFFFF8, 2⟩]

theorem witness_no_argument_error :
    (∀ r ∈ topSources ++ [⟨0xFFFFFFF4, 1⟩], r.base % 4 = 0) ∧
    (∀ r ∈ topSources ++ [⟨0xFFFFFFF4, 1⟩], r.base + 4 * r.count ≤ 2 ^ 32) ∧
    ∀ r ∈ topSources, ∀ p, r.base ≤ p → p < r.base + 4 * r.count → p < 0xFFFFFFF4 ∨ 0xFFFFFFF4 + 4 * 1 ≤ p := by
  refine ⟨by decide +kernel, by decide +kernel, ?_⟩
  intro r hr p hp _
  have h : r = ⟨0xFFFFFFF8, 2⟩ := by simpa [topSources] using hr
  subst h
  exact .inr (by simp at hp; omega)

theorem witness_no_argument_error_next :
    ∃ t, exec (.dotS 0xFFFFFFF8 0xFFFFFFF8 0xFFFFFFF4 2 2 1) (idle (platform .four .linear) []) = .next t :=
  (next_of_endsWith (st := 0x2#32) (l := []) (by decide +kernel)).imp (fun _ h => h.1)

theorem witness_illegal_step : EngineMoves { dotRunning with cmd := 0x00#32 } ∧
    ∃ why, decode { dotRunning with cmd := 0x00#32 : State }.words = .illegal why :=
  ⟨by decide +kernel, .reservedOp, by decide +kernel⟩

/-- The bus statement, with an `ERROR` word and with none. -/
theorem witness_bus :
    ((planOf dotCommand (readErrorAt 0x4030)).error = none ∧ (planOf dotCommand (readErrorAt 0x4030)).refusal
        (readErrorAt 0x4030) = none ∧ (idle (readErrorAt 0x4030) []).mem.wf = true ∧
      ∃ r ∈ (planOf dotCommand (readErrorAt 0x4030)).srcs, ∃ k, k < r.count ∧
        readFails (readErrorAt 0x4030) (r.base + 4 * k) = true) ∧
    ((planOf dotCommand dotRunning.params).error = none ∧ (planOf dotCommand dotRunning.params).refusal
        dotRunning.params = none ∧ dotRunning.mem.wf = true ∧
      (∀ r ∈ (planOf dotCommand dotRunning.params).srcs, ReadableRegion dotRunning.params r) ∧
      WritableRegion dotRunning.params (planOf dotCommand dotRunning.params).out) :=
  ⟨⟨by decide, by decide, by decide, ⟨0x4020, 5⟩, by decide, 4, by decide⟩, by decide +kernel⟩

/-- A region that reaches the last byte of CORE's window, and one on a device. -/
theorem witness_refused :
    (∃ (i : Instr) (p : Params) (r q : Region), (planOf i p).error = none ∧ r ∈ (planOf i p).regions ∧
      r.base < q.base + 4 * q.count ∧ q.base < r.base + 4 * r.count ∧ q ∈ windows p) ∧
    (∃ (i : Instr) (p : Params) (r q : Region), (planOf i p).error = none ∧ r ∈ (planOf i p).regions ∧
      r.base < q.base + 4 * q.count ∧ q.base < r.base + 4 * r.count ∧ q ∈ p.memMap.devices) :=
  ⟨⟨.tmulS 0xF00000FC 0x2040 0x2080, platform .four .linear, ⟨0xF00000FC, 16⟩, ⟨0xF0000000, 64⟩, by decide⟩,
   ⟨.tmulS 0x2000 0x2040 0x2080, deviceAt 0x20BC, ⟨0x2080, 16⟩, ⟨0x20BC, 1⟩, by decide⟩⟩

/-- The last two clauses: such a command is the running one, with an input still to be served. -/
theorem witness_refused_step :
    (∃ (i : Instr) (s : State) (r q : Region), (planOf i s.params).error = none ∧ r ∈ (planOf i s.params).regions ∧
      r.base < q.base + 4 * q.count ∧ q.base < r.base + 4 * r.count ∧ q ∈ windows s.params ∧ s.phase = .busy ∧
      decode s.words = .command i ∧ s.inputs ≠ [] ∧ s.latency = 1) ∧
    (∃ (i : Instr) (s : State) (r q : Region), (planOf i s.params).error = none ∧ r ∈ (planOf i s.params).regions ∧
      r.base < q.base + 4 * q.count ∧ q.base < r.base + 4 * r.count ∧ q ∈ s.params.memMap.devices ∧ s.phase = .busy ∧
      decode s.words = .command i ∧ s.inputs ≠ [] ∧ s.latency = 1) :=
  ⟨⟨.tmulS 0xF00000FC 0x2040 0x2080,
    { running (platform .four .linear) ⟨0x02#32, 0xF00000FC#32, 0x2040#32, 0x2080#32, 0#32, 0#32, 0#32⟩ [] with
      latency := 1, inputs := [.wait] }, ⟨0xF00000FC, 16⟩, ⟨0xF0000000, 64⟩, by decide +kernel⟩,
   ⟨.tmulS 0x2000 0x2040 0x2080,
    { running (deviceAt 0x20BC) ⟨0x02#32, 0x2000#32, 0x2040#32, 0x2080#32, 0#32, 0#32, 0#32⟩ [] with
      latency := 1, inputs := [.wait] }, ⟨0x2080, 16⟩, ⟨0x20BC, 1⟩, by decide +kernel⟩⟩

theorem witness_accepts_writes : AcceptsWrites (idle (platform .four .linear) []) := by decide

theorem witness_busy : statusBusy dotRunning.status = true ∧ dotRunning.Inv ∧ dotRunning.phase = .busy := by
  decide +kernel

/-- A step that leaves the command running: a register read is served first. -/
theorem witness_busy_step : ∃ s t : State, s.Inv ∧ s.phase = .busy ∧ step s = .next t ∧ t.phase = .busy := by
  obtain ⟨t, ht, hp⟩ := next_of_nextMeets (f := fun t => t.phase == .busy)
    (o := step { dotRunning with latency := 1, inputs := [.regRead 0x0C#8 4] }) (by decide +kernel)
  exact ⟨_, t, by decide +kernel, by decide, ht, by simpa using hp⟩

theorem witness_reserved : 0x28 ≤ (0x28#8).toNat ∧ 0x28 ≤ (0xFC#8).toNat ∧ (0xFC#8).toNat % 4 = 0 := by decide

theorem witness_other_access : (2 : Nat) ≠ 4 ∧ (0x09#8).toNat % 4 ≠ 0 := by decide

theorem witness_id :
    (platform .four .linear).laneWidth = .four ∧ (platform .eight .pairwise).laneWidth = .eight ∧
    (platform .four .linear).hredOrder = .linear ∧ (platform .eight .pairwise).hredOrder = .pairwise ∧
    ∃ t, serve (.rst true) (idle (platform .four .linear) []) = .next t := ⟨rfl, rfl, rfl, rfl, _, rfl⟩

theorem witness_start : AcceptsWrites (idle (platform .four .linear) []) ∧ (0xFFFFFFFF#32).getLsbD 0 = true ∧
    (0xFFFFFFFE#32).getLsbD 0 = false ∧ statusBusy dotRunning.status = true := by decide

/-- `DONE` is lost by an acceptance. -/
theorem witness_done : ∃ s t : State, s.Inv ∧ step s = .next t ∧ statusDone s.status = true ∧ t.status ≠ s.status := by
  obtain ⟨t, ht, hp⟩ := next_of_nextMeets (f := fun t => t.status == 0x1#32)
    (o := step { idle (platform .four .linear) [] with status := 0x2#32, inputs := [wr32 0x04#8 1#32] }) (by decide)
  refine ⟨_, t, by decide +kernel, ht, by decide, ?_⟩
  rw [beq_iff_eq.mp hp]
  decide

/-- No command that uses a region: idle, and busy with the illegal word 0. -/
theorem witness_reset_no_region :
    runningPlan (idle (platform .four .linear) []) = none ∧ runningPlan { dotRunning with cmd := 0#32 } = none :=
  ⟨rfl, rfl⟩

/-- A CONV that will fail the `RANGE` check: its output region begins with the last word of the address space. -/
def rangeWords : CommandWords := ⟨0x03#32, 0x1000#32, 0x1010#32, 0xFFFFFFFC#32, 3#32, 3#32, 5#32⟩
def rangeRunning : State := running (platform .four .linear) rangeWords []

/-- A command that passes its checks, and one that fails them. -/
theorem witness_reset_running :
    (∃ c, runningPlan dotRunning = some c ∧ dotRunning.mem.wf = true ∧ c.error = none) ∧
    (∃ c, runningPlan rangeRunning = some c ∧ rangeRunning.mem.wf = true ∧ c.error = some .range ∧
      ∃ k, k < 4 * c.out.count ∧ c.out.base + k < 2 ^ 32) :=
  ⟨⟨planOf dotCommand dotRunning.params, rfl, by decide +kernel⟩,
   ⟨planOf (.convS 0x1000 0x1010 0xFFFFFFFC 3 3 5) rangeRunning.params, rfl, by decide +kernel, by decide +kernel, 3,
    by decide +kernel⟩⟩

/-- Held in reset, with the invariant. -/
theorem witness_held_in_reset : ({ idle (platform .four .linear) [] with rst := true } : State).Inv ∧
    ({ idle (platform .four .linear) [] with rst := true } : State).rst = true := by decide +kernel

theorem witness_in_reset : ∃ s t : State, s.Inv ∧ s.rst = true ∧ step s = .next t ∧ t.rst = true := by
  obtain ⟨t, ht, hp⟩ := next_of_nextMeets (f := fun t => t.rst)
    (o := step { idle (platform .four .linear) [] with rst := true, inputs := [wr32 0x10#8 4#32] }) (by decide)
  exact ⟨_, t, by decide +kernel, rfl, ht, hp⟩

theorem witness_canonical : (wordsAt [(0x1000, oneToFive)]).wf = true := by decide +kernel

/-- A word of ordinary memory on a platform where another word answers `ERROR` to reads. -/
theorem witness_host_memory :
    (0x1000#32).toNat + 4 ≤ 2 ^ 32 ∧ OrdinaryRegion (readErrorAt 0x1004) ⟨(0x1000#32).toNat, 1⟩ ∧
    (∀ k, k < 4 → writeFails (readErrorAt 0x1004) (((0x1000#32).toNat + k) / 4 * 4) = false ∧
      readFails (readErrorAt 0x1004) (((0x1000#32).toNat + k) / 4 * 4) = false) ∧
    (idle (readErrorAt 0x1004) []).phase = .idle ∧ (idle (readErrorAt 0x1004) []).mem.wf = true := by decide +kernel

/-- A byte write to the last source byte of the running DOT, and to the top byte of the output of a command that will fail
its checks. -/
theorem witness_race :
    (isRegisterAccess dotRunning.params (0x4033#32).toNat 1 = false ∧
      inRunningRegions dotRunning ((0x4033#32).toNat + 0) = true ∧
      ∃ t, serve (.memWrite 0x4033#32 [1#8]) dotRunning = .next t) ∧
    (isRegisterAccess rangeRunning.params (0xFFFFFFFF#32).toNat 1 = false ∧
      inRunningRegions rangeRunning ((0xFFFFFFFF#32).toNat + 0) = true ∧
      ∃ t, serve (.memWrite 0xFFFFFFFF#32 [1#8]) rangeRunning = .next t) :=
  ⟨⟨by decide +kernel, by decide +kernel,
    (next_of_nextMeets (f := fun t => t.raced) (by decide +kernel)).imp (fun _ h => h.1)⟩,
   ⟨by decide +kernel, by decide +kernel,
    (next_of_nextMeets (f := fun t => t.raced) (by decide +kernel)).imp (fun _ h => h.1)⟩⟩

/-- Raced states of a command that completes and of one that fails its checks. -/
theorem witness_raced :
    ((planOf dotCommand dotRunning.params).error = none ∧
      (planOf dotCommand dotRunning.params).refusal dotRunning.params = none ∧
      (planOf dotCommand dotRunning.params).busError dotRunning.params = false ∧
      { dotRunning with raced := true : State }.mem.wf = true) ∧
    ((planOf (.convS 0x1000 0x1010 0xFFFFFFFC 3 3 5) rangeRunning.params).error = some .range ∧
      { rangeRunning with raced := true : State }.mem.wf = true) := by decide +kernel

/-- A read of five bytes whose last one is the first of the output word. -/
theorem witness_racing_read :
    (0x403C#32).toNat + 5 ≤ 2 ^ 32 ∧ isRegisterAccess dotRunning.params (0x403C#32).toNat 5 = false ∧
    inRunningOutput dotRunning ((0x403C#32).toNat + 4) = true ∧
    inOwnWindow dotRunning.params ((0x403C#32).toNat + 4) = false ∧
    bytePlace dotRunning.params (readFails dotRunning.params) ((0x403C#32).toNat + 3) = .memory ∧
    inRunningOutput dotRunning ((0x403C#32).toNat + 3) = false := by decide +kernel

/-- The places of an access: the last byte of the window, a device, a word that answers `ERROR`, and memory; an access
across the window's upper edge is no register access. -/
theorem witness_byte_places :
    bytePlace (platform .four .linear) (readFails (platform .four .linear)) 0xF00000FF = .window ∧
    bytePlace (deviceAt 0x20BC) (writeFails (deviceAt 0x20BC)) 0x20BF = .foreign ∧
    bytePlace (readErrorAt 0x1018) (readFails (readErrorAt 0x1018)) 0x101B = .failing ∧
    bytePlace (readErrorAt 0x1018) (readFails (readErrorAt 0x1018)) 0x101C = .memory ∧
    isRegisterAccess (platform .four .linear) (0xF00000FE#32).toNat 4 = false ∧
    (0xF00000FE#32).toNat + 4 ≤ 2 ^ 32 ∧ (idle (platform .four .linear) []).mem.wf = true ∧
    isRegisterAccess (deviceAt 0x20BC) (0x20BC#32).toNat 4 = false ∧
    isRegisterAccess (readErrorAt 0x1018) (0x1018#32).toNat 4 = false := by decide +kernel

/-- Accesses wholly in the window that are no aligned 32-bit access: one byte at `CTRL`, four bytes at `CORE_BASE + 1`, and the
last byte; and an access whose last byte is past the top. -/
theorem witness_window_other :
    isRegisterAccess (platform .four .linear) (0xF0000004#32).toNat 1 = true ∧ 1 ≠ 4 ∧
    isRegisterAccess (platform .four .linear) (0xF0000001#32).toNat 4 = true ∧ (0xF0000001#32).toNat % 4 ≠ 0 ∧
    isRegisterAccess (platform .four .linear) (0xF00000FF#32).toNat 1 = true ∧
    2 ^ 32 < (0xFFFFFFFF#32).toNat + 2 ∧ ¬2 ^ 32 < (0xFFFFFFFF#32).toNat + 1 := by decide +kernel

theorem witness_window_access : (0xFC#8).toNat % 4 = 0 ∧ (0x00#8).toNat % 4 = 0 := by decide

/-- A step that changes memory, by the running command and by another agent. -/
theorem witness_memory_changes :
    (∃ t, step dotRunning = .next t ∧ t.mem.readByte 0x4043 ≠ dotRunning.mem.readByte 0x4043) ∧
    ∃ t, step { idle (platform .four .linear) [] with inputs := [.memWrite 0x10#32 [7#8]] } = .next t ∧
      t.mem.readByte 0x10 ≠ (idle (platform .four .linear) []).mem.readByte 0x10 := by
  constructor
  · obtain ⟨t, ht, hp⟩ := next_of_nextMeets (f := fun t => t.mem.readByte 0x4043 != dotRunning.mem.readByte 0x4043)
      (o := step dotRunning) (by decide +kernel)
    exact ⟨t, ht, by simpa using hp⟩
  · obtain ⟨t, ht, hp⟩ := next_of_nextMeets
      (f := fun t => t.mem.readByte 0x10 != (idle (platform .four .linear) []).mem.readByte 0x10)
      (o := step { idle (platform .four .linear) [] with inputs := [.memWrite 0x10#32 [7#8]] }) (by decide)
    exact ⟨t, ht, by simpa using hp⟩

theorem witness_params : ∃ s t : State, step s = .next t := ⟨State.reset, State.reset, rfl⟩

theorem witness_invariant : ∃ s t : State, s.Inv ∧ step s = .next t ∧ t.status = 0x2#32 := by
  obtain ⟨t, ht, hs⟩ := next_of_endsWith (o := step dotRunning) (st := 0x2#32) (l := [(0x4040, [0x41700000#32])])
    (by decide +kernel)
  exact ⟨dotRunning, t, by decide +kernel, ht, hs⟩

theorem witness_statement : ∃ (i : Instr) (s : State), i.wf = true ∧ AcceptsWrites s ∧
    s.inputs = commandStatement i ++ [.regRead 0x0C#8 4] :=
  ⟨dotCommand, { idle (platform .four .linear) [] with inputs := commandStatement dotCommand ++ [.regRead 0x0C#8 4] },
    by decide, by decide, rfl⟩

/-- A running command with polls, an ignored register write, a write of its operands and a reset still to be served. -/
def endingState : State :=
  { dotRunning with
    latency := 3, inputs := [wr32 0x10#8 4#32, .memWrite 0x4000#32 [1#8], .memRead 0xFFFFFFFC#32 4, .wait, .rst true] }

theorem witness_ends : endingState.phase = .busy ∧ statusBusy endingState.status = true ∧
    runningRefusal endingState = none ∧ ∀ x ∈ endingState.inputs, InSpaceInput x := by
  refine ⟨rfl, by decide +kernel, by decide +kernel, ?_⟩
  intro x hx
  simp only [endingState, List.mem_cons, List.not_mem_nil, or_false] at hx
  rcases hx with rfl | rfl | rfl | rfl | rfl
  · trivial
  · show (0x4000#32).toNat + 1 ≤ 2 ^ 32; decide
  · show (0xFFFFFFFC#32).toNat + 4 ≤ 2 ^ 32; decide
  · trivial
  · trivial

theorem witness_wait : ∃ s s' : State, s.phase = .idle ∧ s.inputs = [.wait] ∧ statusDone s.status = true ∧
    s'.phase = .idle ∧ s'.inputs = [.wait] ∧ statusDone s'.status = false :=
  ⟨{ idle (platform .four .linear) [] with status := 0x706#32, inputs := [.wait] },
   { idle (platform .four .linear) [] with inputs := [.wait] }, by decide⟩

/-- A poll while a command runs, and a transaction of every kind that is next to be served in such a state. -/
theorem witness_served_while_running :
    ({ dotRunning with latency := 1, inputs := [.wait] } : State).latency ≠ 0 ∧
    runningRefusal { dotRunning with latency := 1, inputs := [.wait] } = none ∧
    statusDone dotRunning.status = false ∧
    ∀ x ∈ [Input.rst true, .memWrite 0x10#32 [7#8], .memRead 0x10#32 1, .regRead 0x0C#8 4, .regWrite 0x10#8 4#32 4, .wait],
      runningRefusal { dotRunning with latency := 1, inputs := [x] } = none ∧
      ¬EngineMoves { dotRunning with latency := 1, inputs := [x] } := by
  refine ⟨by decide, by decide +kernel, by decide, ?_⟩
  intro x _
  refine ⟨?_, by rintro ⟨-, h | h⟩ <;> cases h⟩
  rw [runningRefusal_queue]
  decide +kernel

theorem witness_stepwise : dotRunning.phase = .busy ∧ dotRunning.position = some startPosition ∧
    decode dotRunning.words = .command dotCommand ∧ dotRunning.mem.wf = true := by decide +kernel

/-- Two states that agree on what the DOT reads and differ elsewhere. -/
theorem witness_dependence : ∃ s t s' : State, s.params = t.params ∧ s.raced = false ∧ t.raced = false ∧
    LanesFit s ∧ LanesFit t ∧ s.mem.wf = true ∧ t.mem.wf = true ∧ s ≠ t ∧
    (∀ r ∈ (planOf dotCommand s.params).srcs, ∀ k, k < r.count →
      s.mem.readWord (r.base + 4 * k) = t.mem.readWord (r.base + 4 * k)) ∧ exec dotCommand s = .next s' := by
  obtain ⟨s', hs, -⟩ := next_of_endsWith (o := exec dotCommand dotRunning) (st := 0x2#32) (l := []) (by decide +kernel)
  refine ⟨dotRunning, { dotRunning with mem := dotRunning.mem.writeWord 0x9000 7#32, draws := 5 }, s', ?_⟩
  refine ⟨rfl, rfl, rfl, ?_, ?_, ?_, ?_, ?_, ?_, hs⟩
  · decide +kernel
  · decide +kernel
  · decide +kernel
  · decide +kernel
  · intro h
    have := congrArg State.draws h
    exact absurd this (by decide)
  · decide +kernel

theorem witness_no_negative_zero : (∀ a b d, dotCommand ≠ .tmulV a b d) ∧ dotRunning.raced = false ∧
    dotRunning.mem.wf = true ∧ ∃ t, exec dotCommand dotRunning = .next t ∧ t.status = 0x2#32 :=
  ⟨(by intro a b d h; cases h), rfl, by decide +kernel, next_of_endsWith (l := []) (by decide +kernel)⟩

/-- 1·1 + 2·1: every product and every partial sum is exact. -/
def exactPairs : List (Word × Word) := [(0x3F800000#32, 0x3F800000#32), (0x40000000#32, 0x3F800000#32)]

theorem witness_exact_pairs (p : Word × Word)
    (hp : p ∈ exactPairs) :
    isFinite p.1 = true ∧ isFinite p.2 = true ∧ isFinite (fmul p.1 p.2) = true ∧
      units (fmul p.1 p.2) * 2 ^ 149 = units p.1 * units p.2 := by
  simp only [exactPairs, List.mem_cons, List.not_mem_nil, or_false] at hp
  rcases hp with rfl | rfl <;> decide +kernel

theorem witness_exact_sums (l : List Word)
    (hl : l.Sublist (exactPairs.map
      (fun p => fmul p.1 p.2))) : ∃ r, isFinite r = true ∧ units r = (l.map units).sum := by
  rw [show exactPairs.map
    (fun p => fmul p.1 p.2) = [0x3F800000#32, 0x40000000#32] by decide +kernel] at hl
  have hm := List.mem_sublists'.mpr hl
  simp only [List.sublists'_cons, List.sublists'_nil, List.map_cons, List.map_nil, List.cons_append, List.nil_append,
    List.mem_cons, List.not_mem_nil, or_false] at hm
  rcases hm with rfl | rfl | rfl | rfl
  · exact ⟨0x00000000#32, by decide +kernel⟩
  · exact ⟨0x40000000#32, by decide +kernel⟩
  · exact ⟨0x3F800000#32, by decide +kernel⟩
  · exact ⟨0x40400000#32, by decide +kernel⟩

theorem witness_exact :
    (∀ p ∈ exactPairs, isFinite p.1 = true ∧ isFinite p.2 = true ∧ isFinite (fmul p.1 p.2) = true ∧
      units (fmul p.1 p.2) * 2 ^ 149 = units p.1 * units p.2) ∧
    ∀ l : List Word, l.Sublist (exactPairs.map (fun p => fmul p.1 p.2)) →
      ∃ r, isFinite r = true ∧ units r = (l.map units).sum := ⟨witness_exact_pairs, witness_exact_sums⟩

theorem witness_probe :
    DotReady (platform .four .linear) 0x4000 0x4020 0x4040 4 1 ∧
    ∀ k, k < 4 → (wordsAt [(0x4000, probe), (0x4020, ones 4)]).readWord (0x4020 + 4 * k) = 0x3F800000#32 ∧
      isNaN ((wordsAt [(0x4000, probe), (0x4020, ones 4)]).readWord (0x4000 + 4 * k)) = false := by decide +kernel

theorem witness_identity :
    TmulReady (platform .four .linear) 0x2000 0x2040 0x2080 ∧
    (∀ r, r < 4 → ∀ c, c < 4 → (wordsAt [(0x2000, a16), (0x2040, identity16)]).readWord (0x2040 + 4 * (4 * r + c)) =
      if r = c then 0x3F800000#32 else 0x00000000#32) ∧
    ∀ n, n < 16 → isFinite ((wordsAt [(0x2000, a16), (0x2040, identity16)]).readWord (0x2000 + 4 * n)) = true ∧
      (wordsAt [(0x2000, a16), (0x2040, identity16)]).readWord (0x2000 + 4 * n) ≠ 0x80000000#32 := by decide +kernel

theorem witness_lane_width : TmulReady dotRunning.params 0x2000 0x2040 0x2080 ∧ LanesFit dotRunning ∧
    (Lanes.atReset 8).lgA.length = LaneWidth.eight.lanes ∧ (Lanes.atReset 8).lgB.length = LaneWidth.eight.lanes := by
  decide +kernel

theorem witness_guard : 1 ≤ 5 ∧ 1 ≤ 3 ∧ 6 < 5 + 3 - 1 ∧
    Instr.convV 0 0x20 0x40 5 3 7 ∈ [Instr.convS 0 0x20 0x40 5 3 7, Instr.convV 0 0x20 0x40 5 3 7] := by decide

theorem witness_finite : isFinite 0x7F7FFFFF#32 = true ∧ isFinite 0x00000001#32 = true ∧ isFinite 0x3F800000#32 = true ∧
    isFinite (fadd 0x7F7FFFFF#32 0x00000001#32) = true ∧ isFinite (fmul 0x7F7FFFFF#32 0x00000001#32) = true := by
  decide +kernel

/-- The overflow clauses at their boundary: the largest finite number plus half a unit, and one unit less. -/
theorem witness_overflow :
    (2 ^ 25 - 1) * 2 ^ 252 ≤ units 0x7F7FFFFF#32 + units 0x73000000#32 ∧
    units 0xFF7FFFFF#32 + units 0xF3000000#32 ≤ -((2 ^ 25 - 1) * 2 ^ 252) ∧
    |units 0x7F7FFFFF#32 + units 0x72FFFFFF#32| < (2 ^ 25 - 1) * 2 ^ 252 ∧
    (2 ^ 25 - 1) * 2 ^ 401 ≤ units 0x7F7FFFFF#32 * units 0x3F800001#32 ∧
    units 0xFF7FFFFF#32 * units 0x3F800001#32 ≤ -((2 ^ 25 - 1) * 2 ^ 401) ∧
    |units 0x7F7FFFFF#32 * units 0x3F800000#32| < (2 ^ 25 - 1) * 2 ^ 401 := by decide +kernel

theorem witness_infinities :
    isNaN (fmul 0x7F800000#32 0x3F800000#32) = false ∧ isInf 0x7F800000#32 = true ∧
    isNaN (fadd 0x3F800000#32 0xFF800000#32) = false ∧ isInf 0xFF800000#32 = true := by decide +kernel

/-- The last clause: `-2^-149 * 2^-1` underflows to a zero. -/
theorem witness_underflow : isZero (fmul 0x80000001#32 0x3F000000#32) = true ∧ isZero 0x80000001#32 = false := by
  decide +kernel

theorem witness_zeros : isFinite 0x80000000#32 = true ∧ isZero 0x80000000#32 = true ∧
    units 0x80000000#32 + units 0x00000000#32 = 0 := by decide

/-- The last two clauses of the swap statement: a sum of two infinities of opposite sign. -/
theorem witness_swap : isNaN (fadd 0x7F800000#32 0xFF800000#32) = true ∧ isNaN (fmul 0x7F800000#32 0x00000000#32) = true ∧
    isNaN (fmul 0x3F800000#32 0x3F800000#32) = false ∧ isNaN (fadd 0x3F800000#32 0x3F800000#32) = false :=
  ⟨by rw [show fadd 0x7F800000#32 0xFF800000#32 = nanPayload .add 0x7F800000#32 0xFF800000#32 by rfl]
      exact isNaN_nanPayload _ _ _,
   by rw [show fmul 0x7F800000#32 0x00000000#32 = nanPayload .mul 0x7F800000#32 0x00000000#32 by rfl]
      exact isNaN_nanPayload _ _ _, by decide +kernel, by decide +kernel⟩

end Sys2Proof.Machine.Tests
end

section
/-!
PROOFS. The statements about CORE's registers: what the register port keeps and answers, the value of `ID`, and what one
transaction and one step leave of an accepted command.
-/
namespace Sys2Proof.Machine

/-! ### The register port -/

/-- A 32-bit aligned read answers the value of its register (R30). -/
theorem portRead_of_aligned (s : State) {o : BitVec 8} (h : o.toNat % 4 = 0) :
    portRead s o 4 = .word (readRegister s o.toNat) :=
  if_pos ⟨rfl, h⟩

/-- While `BUSY` every register write is ignored (R20, R33). -/
theorem portWrite_of_busy {s : State} (h : statusBusy s.status = true) (o : BitVec 8) (v : Word) (n : Nat) :
    portWrite s o v n = s := by
  rcases portWrite_cases s o v n with ⟨-, -, hidle, -, -⟩ | hkept
  · rw [h] at hidle; cases hidle
  · exact hkept

/-- A write of any width is ignored at an offset that holds no writable register. -/
theorem portWrite_of_not_writable {s : State} {o : BitVec 8} {v : Word} (h : writeRegister s o.toNat v = s) (n : Nat) :
    portWrite s o v n = s := by
  rcases portWrite_cases s o v n with ⟨-, -, -, -, htaken⟩ | hkept
  · rw [htaken, h]
  · exact hkept

theorem readRegister_of_reserved (s : State) {o : Nat} (h : 0x28 ≤ o) : readRegister s o = 0#32 := by
  unfold readRegister
  split
  case h_11 => rfl
  all_goals omega

theorem writeRegister_of_reserved (s : State) {o : Nat} (v : Word) (h : 0x28 ≤ o) : writeRegister s o v = s := by
  rcases writeRegister_cases s o v with
    ⟨ho, -⟩ | ⟨ho, -⟩ | ⟨ho, -⟩ | ⟨ho, -⟩ | ⟨ho, -⟩ | ⟨ho, -⟩ | ⟨ho, -⟩ | ⟨ho, -⟩ | hkept
  case inr.inr.inr.inr.inr.inr.inr.inr => exact hkept
  all_goals omega

/-- Settles O22: a reserved offset is past every register, so a read falls to the zero and a write to the unchanged
state. -/
theorem reservedOffsetsReadZeroIgnoreWrites : Obligations.ReservedOffsetsReadZeroIgnoreWrites := by
  intro s o v n hreserved
  constructor
  · intro haligned
    rw [portRead_of_aligned s haligned, readRegister_of_reserved s hreserved]
  · exact congrArg _ (portWrite_of_not_writable (writeRegister_of_reserved s v hreserved) n)

/-! ### `ID` -/

theorem idWord_log2W (p : Params) : (idWord p).extractLsb' 0 4 = BitVec.ofNat 4 (log2W p.laneWidth) := by
  unfold idWord
  cases p.laneWidth <;> cases p.hredOrder <;> rfl

theorem idWord_hredOrder (p : Params) : (idWord p).extractLsb' 4 2 = BitVec.ofNat 2 (hredOrderCode p.hredOrder) := by
  unfold idWord
  cases p.laneWidth <;> cases p.hredOrder <;> rfl

theorem idWord_upper (p : Params) : (idWord p).extractLsb' 6 26 = 0#26 := by
  unfold idWord
  cases p.laneWidth <;> cases p.hredOrder <;> rfl

@[simp] theorem abandonCommand_params (s : State) : (abandonCommand s).params = s.params := by
  unfold abandonCommand
  split <;> rfl

/-- The parameters are fixed for an instance: no change of the reset input reaches them (R37). -/
@[simp] theorem setReset_params (b : Bool) (s : State) : (setReset b s).params = s.params := by
  cases b with
  | false => rfl
  | true => exact abandonCommand_params s

/-- Settles O24: `ID` is a function of the parameters alone, which a reset keeps, and neither `ID` nor `STATUS` is a
writable register. -/
theorem idReportsTheParametersAndIsReadOnly : Obligations.IdReportsTheParametersAndIsReadOnly := by
  intro s v n
  refine ⟨⟨idWord s.params, rfl, ?_, ?_, ?_, ?_, idWord_upper s.params⟩, ?_, ?_, ?_⟩
  · intro hw; rw [idWord_log2W, hw]; rfl
  · intro hw; rw [idWord_log2W, hw]; rfl
  · intro ho; rw [idWord_hredOrder, ho]; rfl
  · intro ho; rw [idWord_hredOrder, ho]; rfl
  · exact congrArg _ (portWrite_of_not_writable rfl n)
  · exact congrArg _ (portWrite_of_not_writable rfl n)
  · intro b t hreset
    have ht : setReset b s = t := Host.Outcome.next.inj hreset
    have hparams : t.params = s.params := by rw [← ht, setReset_params]
    exact congrArg (fun p => Reply.word (idWord p)) hparams

/-! ### A running command -/

/-- The invariant ties the phase to `STATUS.BUSY` (R32). -/
theorem statusBusy_of_inv {s : State} (h : s.Inv) (hbusy : s.phase = .busy) : statusBusy s.status = true := by
  obtain ⟨-, -, -, hphase, -⟩ := h
  rw [hphase.mp hbusy]
  rfl

/-- A command's own run ends it, with an error or without (R101, R102). -/
theorem runPlan_next_phase {c : Plan} {s t : State} (h : runPlan c s = .next t) : t.phase = .idle := by
  rcases runPlan_next h with ⟨e, -, rfl⟩ | ⟨-, -, -, rfl⟩ | ⟨-, -, -, rfl⟩
  · exact raiseCmdError_phase e _
  · exact raiseBus_phase _ _
  · exact completeOk_phase _ _

/-- The engine's turn ends the command. -/
theorem runEngine_next_phase {s t : State} (h : runEngine s = .next t) : t.phase = .idle := by
  rcases runEngine_cases s with ⟨why, -, hrun⟩ | ⟨i, -, hrun⟩ <;> rw [hrun] at h
  · rw [← Host.Outcome.next.inj h, raiseCmdError_phase]
  · exact runPlan_next_phase ((exec_eq_runPlan i s).symm.trans h)

@[simp] theorem pushReply_words (r : Reply) (s : State) : (pushReply r s).words = s.words := rfl

@[simp] theorem pollWait_words (s : State) : (pollWait s).words = s.words := by
  unfold pollWait
  split <;> rfl

/-- A transaction served while `BUSY` either keeps the seven registers or is a reset, which ends the command. -/
theorem serve_next_words_of_busy {x : Input} {s t : State} (hbusy : statusBusy s.status = true)
    (h : serve x s = .next t) (hrunning : t.phase = .busy) : t.words = s.words := by
  cases x with
  | regWrite o v n => rw [← Host.Outcome.next.inj h, portWrite_of_busy hbusy]
  | regRead o n => rw [← Host.Outcome.next.inj h, pushReply_words]
  | memWrite a bs =>
    obtain ⟨-, ⟨-, o, v, rfl⟩ | ⟨-, rfl⟩⟩ := writeMemory_next h
    · rw [portWrite_of_busy hbusy]
    · rfl
  | memRead a n =>
    obtain ⟨r, d, rfl⟩ := readMemory_next h
    rfl
  | wait => rw [← Host.Outcome.next.inj h, pollWait_words]
  | rst b =>
    have ht : setReset b s = t := Host.Outcome.next.inj h
    cases b with
    | false => rw [← ht]; rfl
    | true =>
      have hidle : (setReset true s).phase = .idle := rfl
      rw [← ht, hidle] at hrunning
      cases hrunning

/-- A step that leaves the command running leaves its registers (R33). -/
theorem step_next_words_of_busy {s t : State} (hbusy : statusBusy s.status = true) (h : step s = .next t)
    (hrunning : t.phase = .busy) : t.words = s.words := by
  rcases step_cases s with ⟨r, -, hstep⟩ | ⟨-, -, hstep⟩ | ⟨-, -, -, hstep⟩ | ⟨x, rest, -, -, -, hstep⟩ <;>
    rw [hstep] at h
  · cases h
  · rw [runEngine_next_phase h] at hrunning
    cases hrunning
  · rw [Host.Outcome.next.inj h]
  · exact serve_next_words_of_busy (s := { s with inputs := rest, latency := s.latency - 1 }) hbusy h hrunning

/-- Settles O21: writes are ignored while `BUSY`, the engine's turn and a reset end the command, and every other step
keeps the registers. -/
theorem runningCommandRegistersHold : Obligations.RunningCommandRegistersHold := by
  refine ⟨?_, ?_, ?_, ?_⟩
  · intro s o v hbusy _
    exact congrArg _ (portWrite_of_busy hbusy o v 4)
  · intro s t hinv hphase
    exact step_next_words_of_busy (statusBusy_of_inv hinv hphase)
  · intro s o n _
    rfl
  · intro s
    exact ⟨rfl, rfl, rfl, rfl, rfl, rfl, rfl, rfl⟩

end Sys2Proof.Machine
end

section
/-!
PROOFS. The statement about the opcode map: the fields of a `CMD` word determine it, and they pick the
command.
-/
namespace Sys2Proof.Machine

/-! ### The fields of a `CMD` word -/

/-- Format C (R56): with the reserved field clear, `OP` and `V` are the whole word. -/
theorem toNat_of_reservedField_eq_zero {w : Word} (h : reservedField w = 0) :
    w.toNat = opField w + 16 * (vBit w).toNat := by
  simp only [reservedField, opField, vBit, BitVec.extractLsb'_toNat, BitVec.getLsbD, Nat.toNat_testBit,
    Nat.shiftRight_eq_div_pow] at h ⊢
  omega

/-- Two words with a clear reserved field, the same `V` and the same `OP` are the same word. -/
theorem word_eq_of_fields {w x : Word} (hw : reservedField w = 0) (hx : reservedField x = 0)
    (hop : opField w = opField x) (hv : vBit w = vBit x) : w = x := by
  apply BitVec.eq_of_toNat_eq
  rw [toNat_of_reservedField_eq_zero hw, toNat_of_reservedField_eq_zero hx, hop, hv]

/-! ### The legal words -/

/-- `OP` 1 is a dot product, in the form `V` picks (R59). -/
theorem decode_of_opField_one {c : CommandWords} {w : Word} (hcmd : c.cmd = w) (hreserved : reservedField w = 0)
    (hop : opField w = 1) : decode c = .command (if vBit w
      then .dotV c.srcA.toNat c.srcB.toNat c.dst.toNat c.lenA.toNat c.lenB.toNat c.lenC.toNat
      else .dotS c.srcA.toNat c.srcB.toNat c.dst.toNat c.lenA.toNat c.lenB.toNat c.lenC.toNat) := by
  subst hcmd
  rw [decode, if_neg (not_not_intro hreserved), hop]
  rfl

/-- `OP` 2 is a tile product, in the form `V` picks; it has no length operands (R58, R59). -/
theorem decode_of_opField_two {c : CommandWords} {w : Word} (hcmd : c.cmd = w) (hreserved : reservedField w = 0)
    (hop : opField w = 2) : decode c = .command (if vBit w
      then .tmulV c.srcA.toNat c.srcB.toNat c.dst.toNat
      else .tmulS c.srcA.toNat c.srcB.toNat c.dst.toNat) := by
  subst hcmd
  rw [decode, if_neg (not_not_intro hreserved), hop]
  rfl

/-- `OP` 3 is a convolution, in the form `V` picks (R59). -/
theorem decode_of_opField_three {c : CommandWords} {w : Word} (hcmd : c.cmd = w) (hreserved : reservedField w = 0)
    (hop : opField w = 3) : decode c = .command (if vBit w
      then .convV c.srcA.toNat c.srcB.toNat c.dst.toNat c.lenA.toNat c.lenB.toNat c.lenC.toNat
      else .convS c.srcA.toNat c.srcB.toNat c.dst.toNat c.lenA.toNat c.lenB.toNat c.lenC.toNat) := by
  subst hcmd
  rw [decode, if_neg (not_not_intro hreserved), hop]
  rfl

/-! ### The illegal words -/

/-- A set reserved field is illegal whatever `OP` holds (R61). -/
theorem decode_of_reservedField_ne_zero {c : CommandWords} (h : reservedField c.cmd ≠ 0) :
    decode c = .illegal .reservedBits :=
  if_pos h

/-- An `OP` field other than 1, 2 and 3 is illegal (R62). -/
theorem decode_of_reserved_opField {c : CommandWords} (hreserved : reservedField c.cmd = 0)
    (h1 : opField c.cmd ≠ 1) (h2 : opField c.cmd ≠ 2) (h3 : opField c.cmd ≠ 3) :
    decode c = .illegal .reservedOp := by
  unfold decode
  rw [if_neg (not_not_intro hreserved)]
  split
  case h_4 => rfl
  all_goals contradiction

/-- A word with a clear reserved field and `OP` 1, 2 or 3 stands in the opcode map (R59): `V` picks the form. -/
theorem mem_opcodeMap_of_fields {w : Word} (hreserved : reservedField w = 0)
    (hop : opField w = 1 ∨ opField w = 2 ∨ opField w = 3) :
    w ∈ [0x00000001#32, 0x00000011#32, 0x00000002#32, 0x00000012#32, 0x00000003#32, 0x00000013#32] := by
  rcases hop with hop | hop | hop <;> cases hv : vBit w
  · rw [word_eq_of_fields (x := 0x00000001#32) hreserved rfl hop hv]; decide
  · rw [word_eq_of_fields (x := 0x00000011#32) hreserved rfl hop hv]; decide
  · rw [word_eq_of_fields (x := 0x00000002#32) hreserved rfl hop hv]; decide
  · rw [word_eq_of_fields (x := 0x00000012#32) hreserved rfl hop hv]; decide
  · rw [word_eq_of_fields (x := 0x00000003#32) hreserved rfl hop hv]; decide
  · rw [word_eq_of_fields (x := 0x00000013#32) hreserved rfl hop hv]; decide

/-- A `CMD` word outside the opcode map is illegal: its reserved field is set or its `OP` is reserved (R61). -/
theorem decode_illegal_of_not_mem_opcodeMap {c : CommandWords}
    (h : c.cmd ∉ [0x00000001#32, 0x00000011#32, 0x00000002#32, 0x00000012#32, 0x00000003#32, 0x00000013#32]) :
    ∃ why, decode c = .illegal why := by
  by_cases hreserved : reservedField c.cmd = 0
  · obtain ⟨h1, h2, h3⟩ : opField c.cmd ≠ 1 ∧ opField c.cmd ≠ 2 ∧ opField c.cmd ≠ 3 := by
      simpa only [not_or] using mt (mem_opcodeMap_of_fields hreserved) h
    exact ⟨_, decode_of_reserved_opField hreserved h1 h2 h3⟩
  · exact ⟨_, decode_of_reservedField_ne_zero hreserved⟩

/-- Settles O3: each of the six words has the fields of its command, and a word with a clear reserved field and a
command's `OP` is one of the six. -/
theorem opcodeMapIsComplete : Obligations.OpcodeMapIsComplete := by
  intro c
  refine ⟨fun hcmd => ?_, fun hcmd => ?_, fun hcmd => ?_, fun hcmd => ?_, fun hcmd => ?_, fun hcmd => ?_,
    decode_illegal_of_not_mem_opcodeMap⟩
  · exact (decode_of_opField_one hcmd rfl rfl).trans rfl
  · exact (decode_of_opField_one hcmd rfl rfl).trans rfl
  · exact (decode_of_opField_two hcmd rfl rfl).trans rfl
  · exact (decode_of_opField_two hcmd rfl rfl).trans rfl
  · exact (decode_of_opField_three hcmd rfl rfl).trans rfl
  · exact (decode_of_opField_three hcmd rfl rfl).trans rfl

end Sys2Proof.Machine
end

section
/-!
PROOFS. The statement about the horizontal reduction: the `LINEAR` order is the left fold, and the `PAIRWISE` order
halves its range until one lane is left.
-/
namespace Sys2Proof.Machine

/-- The `LINEAR` order starts from the first lane and adds the others from left to right (R67). -/
theorem hred_linear_cons (x : Word) (rest : List Word) : hred .linear (x :: rest) = rest.foldl fadd x := rfl

/-- A range of one lane is that lane, whatever fuel is left (R67). -/
@[simp] theorem hredPairwise_one (p : List Word) (fuel lo : Nat) :
    hredPairwise p fuel lo (lo + 1) = p.getD lo plusZero := by
  cases fuel with
  | zero => rfl
  | succ fuel => rw [hredPairwise, if_pos (Nat.add_sub_cancel_left lo 1)]

/-- A range of `2 * n` lanes is halved into two ranges of `n` lanes (R67). -/
theorem hredPairwise_double (p : List Word) (fuel lo n : Nat) :
    hredPairwise p (fuel + 1) lo (lo + 2 * n) =
      fadd (hredPairwise p fuel lo (lo + n)) (hredPairwise p fuel (lo + n) (lo + n + n)) := by
  have hmany : lo + 2 * n - lo ≠ 1 := by omega
  have hmid : (lo + (lo + 2 * n)) / 2 = lo + n := by omega
  have hend : lo + 2 * n = lo + n + n := by omega
  rw [hredPairwise, if_neg hmany, hmid, hend]

/-- The two-lane node of the halving tree. -/
theorem hredPairwise_two (p : List Word) (fuel lo : Nat) :
    hredPairwise p (fuel + 1) lo (lo + 2) = fadd (p.getD lo plusZero) (p.getD (lo + 1) plusZero) := by
  rw [hredPairwise_double p fuel lo 1, hredPairwise_one, hredPairwise_one]

/-- The four-lane node of the halving tree. -/
theorem hredPairwise_four (p : List Word) (fuel lo : Nat) :
    hredPairwise p (fuel + 2) lo (lo + 4) =
      fadd (fadd (p.getD lo plusZero) (p.getD (lo + 1) plusZero))
        (fadd (p.getD (lo + 2) plusZero) (p.getD (lo + 3) plusZero)) := by
  rw [hredPairwise_double p (fuel + 1) lo 2, hredPairwise_two, hredPairwise_two]

/-- `HRED_4` under `PAIRWISE` (R67). -/
theorem hred_pairwise_four (p0 p1 p2 p3 : Word) :
    hred .pairwise [p0, p1, p2, p3] = fadd (fadd p0 p1) (fadd p2 p3) :=
  hredPairwise_four [p0, p1, p2, p3] 2 0

/-- `HRED_8` under `PAIRWISE` (R67): the root adds the four-lane trees of the two halves. -/
theorem hred_pairwise_eight (p0 p1 p2 p3 p4 p5 p6 p7 : Word) :
    hred .pairwise [p0, p1, p2, p3, p4, p5, p6, p7] =
      fadd (fadd (fadd p0 p1) (fadd p2 p3)) (fadd (fadd p4 p5) (fadd p6 p7)) := by
  have hroot := hredPairwise_double [p0, p1, p2, p3, p4, p5, p6, p7] 7 0 4
  rw [hredPairwise_four, hredPairwise_four] at hroot
  exact hroot

/-- Settles O44: under `LINEAR` the fold over the lanes after the first, under `PAIRWISE` the halving tree of four and
of eight lanes. -/
theorem horizontalReductionFollowsItsOrder : Obligations.HorizontalReductionFollowsItsOrder := by
  intro p0 p1 p2 p3 p4 p5 p6 p7
  refine ⟨?_, hred_pairwise_four p0 p1 p2 p3, ?_, hred_pairwise_eight p0 p1 p2 p3 p4 p5 p6 p7⟩
  · simp only [hred_linear_cons, List.foldl_cons, List.foldl_nil]
  · simp only [hred_linear_cons, List.foldl_cons, List.foldl_nil]

end Sys2Proof.Machine
end

section
/-!
PROOFS. The statements about the checks before a command runs: an illegal `CMD` word ends first (R98), then `check_args`
reports the first condition that holds (R99).
-/
namespace Sys2Proof.Machine

/-! ### The decode check -/

/-- A word whose bits 31:5 are set or whose `OP` is none of 1, 2, 3 is illegal (R61). -/
theorem decode_illegal_of_bits {c : CommandWords}
    (h : c.cmd.extractLsb' 5 27 ≠ 0#27 ∨ c.cmd.extractLsb' 0 4 ∉ [1#4, 2#4, 3#4]) :
    ∃ why, decode c = .illegal why := by
  by_cases hreserved : reservedField c.cmd = 0
  · have hop : c.cmd.extractLsb' 0 4 ∉ [1#4, 2#4, 3#4] :=
      h.resolve_left (not_not_intro (BitVec.eq_of_toNat_eq hreserved))
    have hne : ∀ op ∈ [1#4, 2#4, 3#4], opField c.cmd ≠ op.toNat := fun op hmem heq =>
      hop (BitVec.eq_of_toNat_eq heq ▸ hmem)
    exact ⟨_, decode_of_reserved_opField hreserved (hne 1#4 (by decide)) (hne 2#4 (by decide)) (hne 3#4 (by decide))⟩
  · exact ⟨_, decode_of_reservedField_ne_zero hreserved⟩

theorem engineTurn_of_engineMoves {s : State} (h : EngineMoves s) : engineTurn s = true := by
  obtain ⟨hbusy, hnext⟩ := h
  simp [engineTurn, hbusy, hnext]

/-- An illegal word uses no region, so nothing is refused (R61). -/
theorem runningRefusal_of_illegal {s : State} {why : Illegal} (h : decode s.words = .illegal why) :
    runningRefusal s = none := by
  cases hr : runningRefusal s with
  | none => rfl
  | some r =>
    obtain ⟨c, hplan, -⟩ := runningRefusal_eq_some.mp hr
    obtain ⟨-, i, hcommand, -⟩ := runningPlan_eq_some.mp hplan
    rw [h] at hcommand
    cases hcommand

/-- The engine's step at an illegal word (R98). -/
theorem step_of_illegal {s : State} {why : Illegal} (hmoves : EngineMoves s) (h : decode s.words = .illegal why) :
    step s = .next (endedWith s 0x00000106#32) := by
  have hstep : step s = runEngine s := by
    unfold step
    rw [runningRefusal_of_illegal h]
    exact if_pos (engineTurn_of_engineMoves hmoves)
  rcases runEngine_cases s with ⟨-, -, hend⟩ | ⟨i, hcommand, -⟩
  · rw [hstep, hend]
    rfl
  · rw [h] at hcommand
    cases hcommand

/-- Settles O7: the two conditions are those of an illegal decode, which comes before the arguments are looked at. -/
theorem illegalCommandEndsBeforeEveryOtherCheck : Obligations.IllegalCommandEndsBeforeEveryOtherCheck := by
  intro s hmoves hbits
  obtain ⟨why, hillegal⟩ := decode_illegal_of_bits (c := s.words) hbits
  exact step_of_illegal hmoves hillegal

/-! ### Ending with an argument error -/

/-- Settling a race is not seen outside the output region (R119). -/
theorem readByte_settleRace {out : Region} {s : State} {p : Nat} (h : regionHas out p = false) :
    (settleRace out s).mem.readByte p = s.mem.readByte p := by
  cases hr : s.raced with
  | false => rw [settleRace_of_not_raced hr]
  | true => rw [settleRace_of_raced hr]; exact readByte_freeRegion h

/-- A plan with an argument error ends with its code and touches at most a raced output (R100, R101, log 11). -/
theorem endsWithError_of_error {i : Instr} {s : State} {e : ErrCode} {status : Word}
    (h : (planOf i s.params).error = some e) (hstatus : errorStatus e = status) : EndsWithError i s status := by
  subst hstatus
  refine ⟨raiseCmdError e (settleRace (planOf i s.params).out s), ?_, rfl, ?_, ?_⟩
  · simp [exec_eq_runPlan, runPlan, h]
  · intro hr
    rw [settleRace_of_not_raced hr]
    rfl
  · intro p hp
    rw [raiseCmdError_mem, readByte_settleRace hp]

/-- A command that passed its checks reports completion or `BUS` (R44, R102). -/
theorem exec_next_status_of_no_error {i : Instr} {s t : State} (h : (planOf i s.params).error = none)
    (hnext : exec i s = .next t) : t.status = 0x00000002#32 ∨ t.status = 0x00000806#32 := by
  rw [exec_eq_runPlan] at hnext
  rcases runPlan_next hnext with ⟨e, he, -⟩ | ⟨-, -, -, rfl⟩ | ⟨-, -, -, rfl⟩
  · rw [h] at he
    cases he
  · exact .inr rfl
  · exact .inl (completeOk_status _ _)

/-! ### The region checks -/

/-- The overlap test of R99, written out. -/
theorem regionsOverlap_iff {r q : Region} :
    regionsOverlap r q = true ↔ r.base < q.base + 4 * q.count ∧ q.base < r.base + 4 * r.count := by
  simp only [regionsOverlap, Bool.and_eq_true, decide_eq_true_eq]
  rfl

/-- Regions with a common byte overlap. -/
theorem regionsOverlap_of_common_byte {r q : Region} {p : Nat} (hr : r.base ≤ p ∧ p < r.base + 4 * r.count)
    (hq : q.base ≤ p ∧ p < q.base + 4 * q.count) : regionsOverlap r q = true :=
  regionsOverlap_iff.mpr (by omega)

/-- Two non-empty regions without a common byte do not overlap: the higher base would be such a byte. -/
theorem regionsOverlap_eq_false_of_no_common_byte {r q : Region} (hr : 1 ≤ r.count) (hq : 1 ≤ q.count)
    (h : ∀ p, r.base ≤ p → p < r.base + 4 * r.count → p < q.base ∨ q.base + 4 * q.count ≤ p) :
    regionsOverlap r q = false := by
  have hmax := h (max r.base q.base)
  rw [← Bool.not_eq_true, regionsOverlap_iff]
  omega

theorem checkRegions_misaligned {srcs : List Region} {out : Region} (h : ∃ r ∈ srcs ++ [out], r.base % 4 ≠ 0) :
    checkRegions srcs out = some .misaligned :=
  if_pos (by simpa only [List.any_eq_true, bne_iff_ne] using h)

theorem checkRegions_range {srcs : List Region} {out : Region} (haligned : ∀ r ∈ srcs ++ [out], r.base % 4 = 0)
    (h : ∃ r ∈ srcs ++ [out], 2 ^ 32 < regionEnd r) : checkRegions srcs out = some .range := by
  unfold checkRegions
  rw [if_neg (by simpa only [List.any_eq_true, bne_iff_ne, not_exists, not_and, not_not] using haligned),
    if_pos (by simpa only [List.any_eq_true, decide_eq_true_eq] using h)]

theorem checkRegions_aliased {srcs : List Region} {out : Region} (haligned : ∀ r ∈ srcs ++ [out], r.base % 4 = 0)
    (hrange : ∀ r ∈ srcs ++ [out], regionEnd r ≤ 2 ^ 32) (h : ∃ r ∈ srcs, regionsOverlap r out = true) :
    checkRegions srcs out = some .aliased := by
  unfold checkRegions
  rw [if_neg (by simpa only [List.any_eq_true, bne_iff_ne, not_exists, not_and, not_not] using haligned),
    if_neg (by simpa only [List.any_eq_true, decide_eq_true_eq, not_exists, not_and, not_lt] using hrange),
    if_pos (by simpa only [List.any_eq_true] using h)]

/-- A command whose length checks passed, over non-empty regions, reports its region errors in order. -/
theorem regionErrorsReported_of_error {i : Instr} {s : State} {srcs : List Region} {out : Region}
    (h : (planOf i s.params).error = checkRegions srcs out) (hsrcs : ∀ r ∈ srcs, 1 ≤ r.count) (hout : 1 ≤ out.count) :
    RegionErrorsReported i s srcs out := by
  refine ⟨fun hmis => ?_, fun haligned hrange => ?_, fun haligned hrange halias => ?_,
    fun haligned hrange hapart t => ?_⟩
  · exact endsWithError_of_error (h.trans (checkRegions_misaligned hmis)) rfl
  · exact endsWithError_of_error (h.trans (checkRegions_range haligned hrange)) rfl
  · obtain ⟨r, hr, p, hp, hpout⟩ := halias
    have hoverlap : ∃ r ∈ srcs, regionsOverlap r out = true := ⟨r, hr, regionsOverlap_of_common_byte hp hpout⟩
    exact endsWithError_of_error (h.trans (checkRegions_aliased haligned hrange hoverlap)) rfl
  · have hno : ∀ r ∈ srcs, regionsOverlap r out = false := fun r hr =>
      regionsOverlap_eq_false_of_no_common_byte (hsrcs r hr) hout (hapart r hr)
    exact exec_next_status_of_no_error (h.trans (checkRegions_eq_none.mpr ⟨haligned, hrange, hno⟩))

/-! ### The length checks -/

theorem checkDotLengths_lenZero {la lb : Nat} (lc : Nat) (h : la = 0 ∨ lb = 0) :
    checkDotLengths la lb lc = some .lenZero :=
  if_pos h

theorem checkDotLengths_lenMismatch {la lb : Nat} (lc : Nat) (ha : 1 ≤ la) (hb : 1 ≤ lb) (h : la ≠ lb) :
    checkDotLengths la lb lc = some .lenMismatch := by
  rw [checkDotLengths, if_neg (by omega), if_pos h]

theorem checkDotLengths_dstSmall {n : Nat} (h : 1 ≤ n) : checkDotLengths n n 0 = some .dstSmall := by
  rw [checkDotLengths, if_neg (by omega), if_neg (not_not_intro rfl), if_pos Nat.zero_lt_one]

theorem checkDotLengths_eq_none {n lc : Nat} (h : 1 ≤ n) (hc : 1 ≤ lc) : checkDotLengths n n lc = none := by
  rw [checkDotLengths, if_neg (by omega), if_neg (not_not_intro rfl), if_neg (by omega)]

theorem checkConvLengths_lenZero {la lb : Nat} (lc : Nat) (h : la = 0 ∨ lb = 0) :
    checkConvLengths la lb lc = some .lenZero :=
  if_pos h

theorem checkConvLengths_dstSmall {la lb lc : Nat} (ha : 1 ≤ la) (hb : 1 ≤ lb) (h : lc < la + lb - 1) :
    checkConvLengths la lb lc = some .dstSmall := by
  rw [checkConvLengths, if_neg (by omega), if_pos h]

theorem checkConvLengths_eq_none {la lb lc : Nat} (ha : 1 ≤ la) (hb : 1 ≤ lb) (h : la + lb - 1 ≤ lc) :
    checkConvLengths la lb lc = none := by
  rw [checkConvLengths, if_neg (by omega), if_neg (by omega)]

/-! ### The checks of the six commands -/

/-- Both forms of DOT make the same checks (R99). -/
theorem planOf_error_of_dot {i : Instr} {a b d la lb lc : Nat}
    (hi : i ∈ [Instr.dotS a b d la lb lc, Instr.dotV a b d la lb lc]) (p : Params) :
    (planOf i p).error = (checkDotLengths la lb lc).or (checkRegions [⟨a, la⟩, ⟨b, lb⟩] ⟨d, 1⟩) := by
  simp only [List.mem_cons, List.not_mem_nil, or_false] at hi
  rcases hi with rfl | rfl <;> rfl

/-- Both forms of TMUL make the same checks, none of a length (R99). -/
theorem planOf_error_of_tmul {i : Instr} {a b d : Nat} (hi : i ∈ [Instr.tmulS a b d, Instr.tmulV a b d]) (p : Params) :
    (planOf i p).error = checkRegions [⟨a, 16⟩, ⟨b, 16⟩] ⟨d, 16⟩ := by
  simp only [List.mem_cons, List.not_mem_nil, or_false] at hi
  rcases hi with rfl | rfl <;> rfl

/-- Both forms of CONV make the same checks (R99). -/
theorem planOf_error_of_conv {i : Instr} {x h y l1 l2 lc : Nat}
    (hi : i ∈ [Instr.convS x h y l1 l2 lc, Instr.convV x h y l1 l2 lc]) (p : Params) :
    (planOf i p).error =
      (checkConvLengths l1 l2 lc).or (checkRegions [⟨x, l1⟩, ⟨h, l2⟩] ⟨y, l1 + l2 - 1⟩) := by
  simp only [List.mem_cons, List.not_mem_nil, or_false] at hi
  rcases hi with rfl | rfl <;> rfl

/-- Settles O17: the length checks decide first, the region checks when they pass, and an illegal word before both. -/
theorem argumentChecksReportTheFirstThatHolds : Obligations.ArgumentChecksReportTheFirstThatHolds := by
  intro s a b d la lb lc
  refine ⟨fun i hi => ?dot, fun i hi => ?tmul, fun i hi => ?conv, fun hmoves ⟨_, hillegal⟩ =>
    step_of_illegal hmoves hillegal⟩
  case dot =>
    have herror := planOf_error_of_dot hi s.params
    refine ⟨fun hzero => ?_, fun ha hb hne => ?_, fun ha heq hc => ?_, fun ha heq hc => ?_⟩
    · rw [checkDotLengths_lenZero lc hzero] at herror
      exact endsWithError_of_error herror rfl
    · rw [checkDotLengths_lenMismatch lc ha hb hne] at herror
      exact endsWithError_of_error herror rfl
    · subst heq hc
      rw [checkDotLengths_dstSmall ha] at herror
      exact endsWithError_of_error herror rfl
    · subst heq
      rw [checkDotLengths_eq_none ha hc] at herror
      exact regionErrorsReported_of_error herror (by simpa using ha) le_rfl
  case tmul =>
    exact regionErrorsReported_of_error (planOf_error_of_tmul hi s.params) (by simp) (by simp)
  case conv =>
    have herror := planOf_error_of_conv hi s.params
    refine ⟨fun hzero => ?_, fun ha hb hc => ?_, fun ha hb hc => ?_⟩
    · rw [checkConvLengths_lenZero lc hzero] at herror
      exact endsWithError_of_error herror rfl
    · rw [checkConvLengths_dstSmall ha hb hc] at herror
      exact endsWithError_of_error herror rfl
    · rw [checkConvLengths_eq_none ha hb hc] at herror
      exact regionErrorsReported_of_error herror (by simpa using ⟨ha, hb⟩) (by show 1 ≤ la + lb - 1; omega)

end Sys2Proof.Machine
end

section
/-!
PROOFS. The statements about encoding: a well-formed command fits its registers, so it decodes from its own words, and a
decoded command encodes to the words it was read from.
-/
namespace Sys2Proof.Machine

/-! ### Encoding, then decoding -/

/-- Settles O1: the `CMD` word picks the command's form, and each operand number is below `2^32`, so its register holds
it. -/
theorem decodingAnEncodedCommandGivesItBack : Obligations.DecodingAnEncodedCommandGivesItBack := by
  intro i hwf
  obtain ⟨hdotS, hdotV, htmulS, htmulV, hconvS, hconvV, -⟩ := opcodeMapIsComplete (encode i)
  cases i <;> simp only [Instr.wf, addressFits, countFits, Bool.and_eq_true, decide_eq_true_eq] at hwf
  case dotS => rw [hdotS rfl]; simp [encode, commandWords]; omega
  case dotV => rw [hdotV rfl]; simp [encode, commandWords]; omega
  case tmulS => rw [htmulS rfl]; simp [encode, commandWords]; omega
  case tmulV => rw [htmulV rfl]; simp [encode, commandWords]; omega
  case convS => rw [hconvS rfl]; simp [encode, commandWords]; omega
  case convV => rw [hconvV rfl]; simp [encode, commandWords]; omega

/-! ### Encoding a decoded command -/

@[simp] theorem addressFits_toNat (w : Word) : addressFits w.toNat = true := decide_eq_true w.isLt

@[simp] theorem countFits_toNat (w : Word) : countFits w.toNat = true := decide_eq_true w.isLt

/-- A tuple that decodes to a command has a `CMD` word of the opcode map (R59, R61). -/
theorem cmd_mem_opcodeMap_of_decode {c : CommandWords} {i : Instr} (h : decode c = .command i) :
    c.cmd ∈ [0x00000001#32, 0x00000011#32, 0x00000002#32, 0x00000012#32, 0x00000003#32, 0x00000013#32] := by
  by_contra hmap
  obtain ⟨why, hillegal⟩ := decode_illegal_of_not_mem_opcodeMap hmap
  rw [h] at hillegal
  cases hillegal

/-- Settles O2: the `CMD` word is one of the six of the opcode map, and for each of them the decoded operands are the
registers' own numbers. -/
theorem encodingADecodedCommandKeepsTheUsedWords : Obligations.EncodingADecodedCommandKeepsTheUsedWords := by
  intro c i hdecode
  obtain ⟨hdotS, hdotV, htmulS, htmulV, hconvS, hconvV, -⟩ := opcodeMapIsComplete c
  have hmap := cmd_mem_opcodeMap_of_decode hdecode
  simp only [List.mem_cons, List.not_mem_nil, or_false] at hmap
  obtain ⟨cmd, srcA, srcB, dst, lenA, lenB, lenC⟩ := c
  rcases hmap with rfl | rfl | rfl | rfl | rfl | rfl
  · obtain rfl := Decoded.command.inj ((hdotS rfl).symm.trans hdecode)
    exact ⟨by simp [Instr.wf], by rw [if_neg (by simp [opField])]; simp [encode, commandWords]⟩
  · obtain rfl := Decoded.command.inj ((hdotV rfl).symm.trans hdecode)
    exact ⟨by simp [Instr.wf], by rw [if_neg (by simp [opField])]; simp [encode, commandWords]⟩
  · obtain rfl := Decoded.command.inj ((htmulS rfl).symm.trans hdecode)
    exact ⟨by simp [Instr.wf], by rw [if_pos (by simp [opField])]; simp [encode, commandWords]⟩
  · obtain rfl := Decoded.command.inj ((htmulV rfl).symm.trans hdecode)
    exact ⟨by simp [Instr.wf], by rw [if_pos (by simp [opField])]; simp [encode, commandWords]⟩
  · obtain rfl := Decoded.command.inj ((hconvS rfl).symm.trans hdecode)
    exact ⟨by simp [Instr.wf], by rw [if_neg (by simp [opField])]; simp [encode, commandWords]⟩
  · obtain rfl := Decoded.command.inj ((hconvV rfl).symm.trans hdecode)
    exact ⟨by simp [Instr.wf], by rw [if_neg (by simp [opField])]; simp [encode, commandWords]⟩

/-- Settles O4: each word is read bit by bit. -/
theorem sampleCommandWordsDecode : Obligations.SampleCommandWordsDecode := by
  refine ⟨?_, ?_, ?_, ?_, ?_⟩
  · exact decode_of_opField_one rfl rfl rfl
  · exact decode_of_opField_two rfl rfl rfl
  · exact decode_of_opField_three rfl rfl rfl
  · exact decode_of_reservedField_ne_zero (by decide)
  · exact decode_of_reserved_opField rfl (by decide) (by decide) (by decide)

end Sys2Proof.Machine
end

section
/-!
PROOFS. The statements about the invariant: the part that speaks of memory and of the lane state is kept by each operation
on them, the part that speaks of the registers by each transaction, and so the whole by every step.
-/
namespace Sys2Proof.Machine

/-! ### Memory and lane state -/

/-- The lane groups have `w` lanes, and `GCNT` is in `0..w` (R31). -/
def Lanes.Fit (w : Nat) (l : Lanes) : Prop := (l.lgA.length = w ∧ l.lgB.length = w) ∧ l.gcnt ≤ w

/-- The part of the invariant that does not speak of registers: canonical memory within its space, and a lane state of
the machine's width. -/
def State.DataFits (s : State) : Prop :=
  (s.mem.wf = true ∧ s.mem.inSpace = true) ∧ s.lanes.Fit s.params.laneWidth.lanes

theorem dataFits_of_inv {s : State} (h : s.Inv) : s.DataFits := ⟨h.1, h.2.1⟩

@[simp] theorem lanes_pos (w : LaneWidth) : 0 < w.lanes := by cases w <;> decide

@[simp] theorem four_le_lanes (w : LaneWidth) : 4 ≤ w.lanes := by cases w <;> decide

theorem freeLanes_fit {s : State} (h : s.lanes.gcnt ≤ s.params.laneWidth.lanes) :
    (freeLanes s).lanes.Fit s.params.laneWidth.lanes :=
  ⟨⟨freeWords_length _ _, freeWords_length _ _⟩, h⟩

theorem freeGroup_fit (s : State) : (freeGroup s).lanes.Fit s.params.laneWidth.lanes :=
  ⟨⟨freeWords_length _ _, freeWords_length _ _⟩, Nat.lt_succ_iff.mp (Nat.mod_lt _ (Nat.succ_pos _))⟩

theorem freeRegion_dataFits {out : Region} {s : State} (h : s.DataFits) : (freeRegion out s).DataFits :=
  ⟨⟨freeRegion_mem_wf h.1.1, freeRegion_mem_inSpace h.1.2⟩, h.2⟩

theorem freeGroup_dataFits {s : State} (h : s.DataFits) : (freeGroup s).DataFits := ⟨h.1, freeGroup_fit s⟩

theorem settleRace_dataFits {out : Region} {s : State} (h : s.DataFits) : (settleRace out s).DataFits := by
  unfold settleRace
  split
  · exact freeGroup_dataFits (freeRegion_dataFits h)
  · exact h

/-! ### Kernels -/

/-- What the start establishes, each pair keeps and the end turns into `Q`, a whole run ends with. -/
theorem Kernel.run_induction {k : Kernel} {P Q : Lanes → Prop} {l : Lanes} (pairs : List (Word × Word))
    (hstart : P (k.start l)) (hcommit : ∀ n l u v, P l → P (k.commit n l u v)) (hfinish : ∀ l, P l → Q (k.finish l).1) :
    Q (k.run pairs l).1 := by
  have hfold : ∀ (ps : List ((Word × Word) × Nat)) (l : Lanes), P l →
      P (ps.foldl (fun l p => k.commit p.2 l p.1.1 p.1.2) l) := by
    intro ps
    induction ps with
    | nil => exact fun l h => h
    | cons p rest ih => exact fun l h => ih _ (hcommit _ _ _ _ h)
  exact hfinish _ (hfold _ _ hstart)

theorem scalarKernel_run_fit {w : Nat} (pairs : List (Word × Word)) {l : Lanes} (h : l.Fit w) :
    (scalarKernel.run pairs l).1.Fit w := by
  rw [scalarKernel_run]
  exact h

theorem flushGroup_fit {w : Nat} (o : HredOrder) {l : Lanes} (h : l.Fit w) : (flushGroup w o l).Fit w := by
  obtain ⟨⟨ha, hb⟩, hg⟩ := h
  unfold flushGroup
  split
  · exact ⟨⟨padGroup_length ha hg, padGroup_length hb hg⟩, Nat.zero_le w⟩
  · exact ⟨⟨ha, hb⟩, hg⟩

/-- A grouped run never fills `GCNT` beyond `W`: a group that becomes full is reduced at once (R70). -/
theorem groupedKernel_run_fit {w : Nat} (o : HredOrder) (hw : 0 < w) (pairs : List (Word × Word)) {l : Lanes}
    (h : l.lgA.length = w ∧ l.lgB.length = w) : ((groupedKernel w o).run pairs l).1.Fit w := by
  refine Kernel.run_induction (P := fun l => (l.lgA.length = w ∧ l.lgB.length = w) ∧ l.gcnt < w) pairs
    ⟨h, hw⟩ (fun n l u v hl => ?_) (fun l hl => flushGroup_fit o ⟨hl.1, hl.2.le⟩)
  obtain ⟨⟨ha, hb⟩, hg⟩ := hl
  obtain ⟨hca, hcb⟩ := commitPair_lengths w o l u v
  exact ⟨⟨hca.trans ha, hcb.trans hb⟩, commitPair_gcnt o u v hg⟩

theorem tensorKernel_run_fit {w : Nat} (o : HredOrder) (pairs : List (Word × Word)) {l : Lanes} (h : l.Fit w) :
    ((tensorKernel o).run pairs l).1.Fit w := by
  refine Kernel.run_induction (P := Lanes.Fit w) pairs h (fun n l u v hl => ?_) (fun l hl => hl)
  obtain ⟨⟨ha, hb⟩, hg⟩ := hl
  exact ⟨⟨(List.length_set ..).trans ha, (List.length_set ..).trans hb⟩, hg⟩

/-- Every command's kernel keeps the shape of the lane state. -/
theorem planOf_kernel_run_fit (i : Instr) (p : Params) (pairs : List (Word × Word)) {l : Lanes}
    (h : l.Fit p.laneWidth.lanes) : ((planOf i p).kernel.run pairs l).1.Fit p.laneWidth.lanes := by
  cases i with
  | dotS | tmulS | convS => exact scalarKernel_run_fit pairs h
  | dotV | convV => exact groupedKernel_run_fit p.hredOrder (lanes_pos _) pairs h.1
  | tmulV => exact tensorKernel_run_fit p.hredOrder pairs h

/-! ### The end of a command -/

/-- A property that every output word's step keeps is kept by all of them. -/
theorem writeOutputs_induction {c : Plan} {P : State → Prop} {s : State} (hs : P s)
    (hstep : ∀ s n, n < c.out.count → P s → P (outputStep c s n)) : P (writeOutputs c s) := by
  have hfold : ∀ (ns : List Nat) (s : State), (∀ n ∈ ns, n < c.out.count) → P s → P (ns.foldl (outputStep c) s) := by
    intro ns
    induction ns with
    | nil => exact fun s _ h => h
    | cons n rest ih =>
      intro s hn h
      exact ih _ (fun m hm => hn m (List.mem_cons_of_mem _ hm)) (hstep s n (hn n List.mem_cons_self) h)
  exact hfold _ s (fun n hn => List.mem_range.mp hn) hs

/-- Writing the output words of a command that passed its checks keeps memory canonical and within its space, and the
lane state in shape. -/
theorem writeOutputs_dataFits {i : Instr} {s : State} (herror : (planOf i s.params).error = none) (h : s.DataFits) :
    (writeOutputs (planOf i s.params) s).DataFits := by
  have hfits : (planOf i s.params).out.base + 4 * (planOf i s.params).out.count ≤ 2 ^ 32 := (planOf_out_fits herror).2
  suffices hwith : (writeOutputs (planOf i s.params) s).DataFits ∧
      (writeOutputs (planOf i s.params) s).params = s.params from hwith.1
  refine writeOutputs_induction (P := fun t => t.DataFits ∧ t.params = s.params) ⟨h, rfl⟩ (fun t n hn ht => ?_)
  obtain ⟨⟨⟨hwf, hspace⟩, hlanes⟩, hparams⟩ := ht
  refine ⟨⟨⟨Memory.writeWord_wf hwf _ _, Memory.writeWord_inSpace hspace _ (by rw [elementAddr]; omega)⟩, ?_⟩, hparams⟩
  rw [hparams] at hlanes
  rw [outputStep_lanes, outputStep_params, hparams]
  exact planOf_kernel_run_fit i s.params _ hlanes

/-- The error codes' words are legal and none is that of an accepted command (R22, R101). -/
theorem errorStatus_legal (e : ErrCode) : errorStatus e ∈ legalStatuses ∧ errorStatus e ≠ acceptedStatus := by
  cases e <;> decide

/-- A command that ends out of reset, with a final `STATUS`, leaves the invariant. -/
theorem endCommand_inv {w : Word} {s : State} (h : s.DataFits) (hw : w ∈ legalStatuses) (hne : w ≠ acceptedStatus)
    (hrst : s.rst = false) : (endCommand w s).Inv := by
  refine ⟨h.1, h.2, hw, ?_, ?_, ?_, ?_⟩
  · exact ⟨fun hb => (by cases hb), fun heq => absurd heq hne⟩
  · simp
  · simp
  · simp [hrst]

theorem runPlan_inv {i : Instr} {s t : State} (h : s.DataFits) (hrst : s.rst = false)
    (hrun : runPlan (planOf i s.params) s = .next t) : t.Inv := by
  rcases runPlan_next hrun with ⟨e, -, rfl⟩ | ⟨-, -, -, rfl⟩ | ⟨herror, -, -, rfl⟩
  · exact endCommand_inv (settleRace_dataFits h) (errorStatus_legal e).1 (errorStatus_legal e).2 (by simp [hrst])
  · exact endCommand_inv (freeGroup_dataFits (freeRegion_dataFits h)) (errorStatus_legal .bus).1
      (errorStatus_legal .bus).2 hrst
  · exact endCommand_inv (settleRace_dataFits (writeOutputs_dataFits herror h)) (by decide) (by decide)
      (by simp [hrst])

/-- A command that is running is out of reset (R115). -/
theorem rst_of_busy {s : State} (h : s.Inv) (hbusy : s.phase = .busy) : s.rst = false := by
  obtain ⟨-, -, -, -, -, -, hheld⟩ := h
  by_contra hrst
  obtain ⟨-, -, -, -, -, -, -, -, hidle⟩ := hheld (by simpa using hrst)
  rw [hbusy] at hidle
  cases hidle

theorem phase_of_engineTurn {s : State} (h : engineTurn s = true) : s.phase = .busy := by
  simp only [engineTurn, Bool.and_eq_true, beq_iff_eq] at h
  exact h.1

theorem runEngine_inv {s t : State} (h : s.Inv) (hbusy : s.phase = .busy) (hrun : runEngine s = .next t) : t.Inv := by
  have hrst := rst_of_busy h hbusy
  rcases runEngine_cases s with ⟨why, -, heq⟩ | ⟨i, -, heq⟩ <;> rw [heq] at hrun
  · rw [← Host.Outcome.next.inj hrun]
    exact endCommand_inv (dataFits_of_inv h) (errorStatus_legal _).1 (errorStatus_legal _).2 hrst
  · exact runPlan_inv (dataFits_of_inv h) hrst ((exec_eq_runPlan i s).symm.trans hrun)

/-! ### Transactions -/

theorem accept_inv {s : State} (h : s.Inv) (hrst : s.rst = false) : (accept s).Inv := by
  obtain ⟨hmem, ⟨-, hgcnt⟩, -⟩ := h
  refine ⟨hmem, freeLanes_fit hgcnt, (by decide : acceptedStatus ∈ legalStatuses), ?_, ?_, ?_, ?_⟩
  · simp
  · simp
  · simp
  · simp [hrst]

/-- A register write, taken or not, keeps the invariant: only an acceptance touches more than an argument register, and
reset holds none of them, for no write is taken in reset (R20, R115). -/
theorem portWrite_inv {s : State} (h : s.Inv) (o : BitVec 8) (v : Word) (n : Nat) : (portWrite s o v n).Inv := by
  rcases portWrite_cases s o v n with ⟨-, -, -, hrst, htaken⟩ | hkept
  · obtain ⟨hmem, hlanes, hstatus, hphase, hposition, hraced, -⟩ := id h
    have hheld : s.rst = true → ∀ p : Prop, p := fun hr => by rw [hrst] at hr; cases hr
    rw [htaken]
    rcases writeRegister_cases s o.toNat v with ⟨-, -, hw⟩ | ⟨-, hw⟩ | ⟨-, hw⟩ | ⟨-, hw⟩ | ⟨-, hw⟩ | ⟨-, hw⟩ | ⟨-, hw⟩ |
      ⟨-, hw⟩ | hw <;> rw [hw]
    case inl => exact accept_inv h hrst
    case inr.inr.inr.inr.inr.inr.inr.inr => exact h
    all_goals exact ⟨hmem, hlanes, hstatus, hphase, hposition, hraced, fun hr => hheld hr _⟩
  · rw [hkept]
    exact h

/-- A used region belongs to a running command. -/
theorem phase_of_inRunningRegions {s : State} {p : Nat} (h : inRunningRegions s p = true) : s.phase = .busy := by
  unfold inRunningRegions at h
  cases hplan : runningPlan s with
  | none => rw [hplan] at h; cases h
  | some c => exact (runningPlan_eq_some.mp hplan).1

theorem writeMemory_inv {s t : State} (h : s.Inv) {a : Word} {bs : List Byte} (hw : writeMemory s a bs = .next t) :
    t.Inv := by
  obtain ⟨hspace, ⟨-, o, v, rfl⟩ | ⟨-, rfl⟩⟩ := writeMemory_next hw
  · exact portWrite_inv h o v _
  · obtain ⟨⟨hwf, hin⟩, hlanes, hstatus, hphase, hposition, hraced, hheld⟩ := h
    refine ⟨⟨Memory.writeBytes_wf hwf _ _, Memory.writeBytes_inSpace hin _ (by rwa [landedBytes_length])⟩, hlanes,
      hstatus, hphase, hposition, fun hr => ?_, hheld⟩
    rcases Bool.or_eq_true_iff.mp hr with hr | hr
    · exact hraced hr
    · obtain ⟨p, -, hp⟩ := List.any_eq_true.mp hr
      exact phase_of_inRunningRegions hp

theorem abandonCommand_dataFits {s : State} (h : s.DataFits) : (abandonCommand s).DataFits := by
  unfold abandonCommand
  split
  · exact h
  · exact freeRegion_dataFits h

theorem setReset_inv {s : State} (h : s.Inv) (b : Bool) : (setReset b s).Inv := by
  cases b with
  | false =>
    obtain ⟨hmem, hlanes, hstatus, hphase, hposition, hraced, -⟩ := h
    exact ⟨hmem, hlanes, hstatus, hphase, hposition, hraced, fun hr => (by cases hr)⟩
  | true =>
    obtain ⟨hmem, -⟩ := abandonCommand_dataFits (dataFits_of_inv h)
    refine ⟨hmem, ⟨⟨List.length_replicate, List.length_replicate⟩, Nat.zero_le _⟩, (by decide : 0#32 ∈ legalStatuses),
      ?_, ?_, fun hr => (by cases hr), fun _ => ⟨rfl, rfl, rfl, rfl, rfl, rfl, rfl, rfl, rfl⟩⟩
    · exact ⟨fun hb => (by cases hb), fun heq => absurd heq (by decide : (0#32 : Word) ≠ acceptedStatus)⟩
    · exact ⟨fun hp => (by cases hp), fun hb => (by cases hb)⟩

theorem pollWait_inv {s : State} (h : s.Inv) : (pollWait s).Inv := by
  unfold pollWait
  split <;> exact h

theorem serve_inv {x : Input} {s t : State} (h : s.Inv) (hserve : serve x s = .next t) : t.Inv := by
  cases x with
  | regWrite o v n => rw [← Host.Outcome.next.inj hserve]; exact portWrite_inv h o v n
  | regRead o n => rw [← Host.Outcome.next.inj hserve]; exact h
  | memWrite a bs => exact writeMemory_inv h hserve
  | memRead a n => obtain ⟨r, d, rfl⟩ := readMemory_next hserve; exact h
  | wait => rw [← Host.Outcome.next.inj hserve]; exact pollWait_inv h
  | rst b => rw [← Host.Outcome.next.inj hserve]; exact setReset_inv h b

/-! ### Every step -/

/-- Settles O38: the engine's turn ends a command out of reset, and every transaction keeps the invariant. -/
theorem everyStepKeepsTheInvariant : Obligations.EveryStepKeepsTheInvariant := by
  intro s t hinv hstep
  rcases step_cases s with ⟨r, -, heq⟩ | ⟨-, hturn, heq⟩ | ⟨-, -, -, heq⟩ | ⟨x, rest, -, -, -, heq⟩ <;> rw [heq] at hstep
  · cases hstep
  · exact runEngine_inv hinv (phase_of_engineTurn hturn) hstep
  · rwa [← Host.Outcome.next.inj hstep]
  · exact serve_inv (s := { s with inputs := rest, latency := s.latency - 1 }) hinv hstep

/-- Settles O37: every register and the lane state hold their reset values. -/
theorem resetMeetsTheInvariant : Obligations.ResetMeetsTheInvariant := by
  refine ⟨⟨rfl, rfl⟩, ⟨⟨List.length_replicate, List.length_replicate⟩, Nat.zero_le _⟩,
    (by decide : 0#32 ∈ legalStatuses), ⟨fun hb => (by cases hb), fun heq => ?_⟩,
    ⟨fun hp => (by cases hp), fun hb => (by cases hb)⟩, fun hr => (by cases hr), fun hr => (by cases hr)⟩
  exact absurd heq (by decide : (0#32 : Word) ≠ acceptedStatus)

/-- Settles O29: the invariant of the next state says so. -/
theorem assertedResetHoldsTheRegisters : Obligations.AssertedResetHoldsTheRegisters := by
  intro s t hinv _ hstep hrst
  obtain ⟨-, -, -, -, -, -, hheld⟩ := everyStepKeepsTheInvariant s t hinv hstep
  exact hheld hrst

end Sys2Proof.Machine
end

section
/-!
PROOFS. The statements about how a command ends: what it leaves unchanged, the codes it can end with, the bus error, the two
refusals, and what a race or a reset leaves of its output region.
-/
namespace Sys2Proof.Machine

/-! ### What a command leaves unchanged -/

/-- Everything but `STATUS`, the engine's own state, memory and the count of draws is as before (R33, R36). -/
def SameOutside (s t : State) : Prop :=
  t.params = s.params ∧ t.words = s.words ∧ t.rst = s.rst ∧ t.inputs = s.inputs ∧ t.replies = s.replies ∧
  t.latency = s.latency

@[simp] theorem settleRace_words (out : Region) (s : State) : (settleRace out s).words = s.words := by
  simp [State.words]

@[simp] theorem completeOk_words (out : Region) (s : State) : (completeOk out s).words = s.words := by
  simp [State.words]

@[simp] theorem writeOutputs_words (c : Plan) (s : State) : (writeOutputs c s).words = s.words :=
  writeOutputs_field (·.words) c (fun _ _ => rfl) s

/-- Completing is not seen outside the output region, with a race or without. -/
theorem readByte_completeOk {out : Region} {s : State} {p : Nat} (h : regionHas out p = false) :
    (completeOk out s).mem.readByte p = s.mem.readByte p :=
  readByte_settleRace h

theorem raiseCmdError_settleRace_sameOutside (e : ErrCode) (out : Region) (s : State) :
    SameOutside s (raiseCmdError e (settleRace out s)) := by
  refine ⟨?_, settleRace_words out s, ?_, ?_, ?_, ?_⟩ <;> simp

theorem raiseBus_sameOutside (out : Region) (s : State) : SameOutside s (raiseBus out s) := by
  refine ⟨?_, ?_, ?_, ?_, ?_, ?_⟩ <;> simp [State.words]

theorem completeOk_writeOutputs_sameOutside (c : Plan) (s : State) :
    SameOutside s (completeOk c.out (writeOutputs c s)) := by
  refine ⟨?_, ?_, ?_, ?_, ?_, ?_⟩ <;> simp

theorem runPlan_next_sameOutside {c : Plan} {s t : State} (h : runPlan c s = .next t) : SameOutside s t := by
  rcases runPlan_next h with ⟨e, -, rfl⟩ | ⟨-, -, -, rfl⟩ | ⟨-, -, -, rfl⟩
  · exact raiseCmdError_settleRace_sameOutside e c.out s
  · exact raiseBus_sameOutside c.out s
  · exact completeOk_writeOutputs_sameOutside c s

/-- A command touches no byte outside its used output region, however it ends (R47). -/
theorem runPlan_next_readByte {c : Plan} {s t : State} {p : Nat} (h : runPlan c s = .next t)
    (hp : regionHas c.out p = false) : t.mem.readByte p = s.mem.readByte p := by
  rcases runPlan_next h with ⟨e, -, rfl⟩ | ⟨-, -, -, rfl⟩ | ⟨-, -, -, rfl⟩
  · exact readByte_settleRace hp
  · exact readByte_freeRegion hp
  · exact (readByte_completeOk hp).trans (readByte_writeOutputs hp)

/-- Settles O15: each of a plan's three ends keeps the registers and the bytes outside the output region. -/
theorem commandsChangeOnlyStatusAndTheirOutput : Obligations.CommandsChangeOnlyStatusAndTheirOutput := by
  intro i s t hexec
  rw [exec_eq_runPlan] at hexec
  exact ⟨runPlan_next_sameOutside hexec, fun p hp => runPlan_next_readByte hexec hp⟩

/-! ### The codes a command ends with -/

theorem checkRegions_eq_some {srcs : List Region} {out : Region} {e : ErrCode} (h : checkRegions srcs out = some e) :
    e ∈ [.misaligned, .range, .aliased] := by
  unfold checkRegions at h
  split_ifs at h <;> injection h with h <;> simp [← h]

theorem checkDotLengths_eq_some {la lb lc : Nat} {e : ErrCode} (h : checkDotLengths la lb lc = some e) :
    e ∈ [.lenZero, .lenMismatch, .dstSmall] := by
  unfold checkDotLengths at h
  split_ifs at h <;> injection h with h <;> simp [← h]

theorem checkConvLengths_eq_some {la lb lc : Nat} {e : ErrCode} (h : checkConvLengths la lb lc = some e) :
    e ∈ [.lenZero, .dstSmall] := by
  unfold checkConvLengths at h
  split_ifs at h <;> injection h with h <;> simp [← h]

/-- The argument checks report neither `ILLEGAL_CMD`, which comes before them, nor `BUS`, which comes after (R98, R99). -/
theorem planOf_error_eq_some {i : Instr} {p : Params} {e : ErrCode} (h : (planOf i p).error = some e) :
    e ≠ .illegalCmd ∧ e ≠ .bus := by
  have hregions : ∀ {srcs out}, checkRegions srcs out = some e → e ≠ .illegalCmd ∧ e ≠ .bus := fun hr => by
    have hmem := checkRegions_eq_some hr
    constructor <;> rintro rfl <;> simp at hmem
  cases i with
  | dotS a b d la lb lc | dotV a b d la lb lc =>
    rcases Option.or_eq_some_iff.mp h with hl | ⟨-, hr⟩
    · have hmem := checkDotLengths_eq_some hl
      constructor <;> rintro rfl <;> simp at hmem
    · exact hregions hr
  | tmulS a b d | tmulV a b d => exact hregions h
  | convS x h' y l1 l2 lc | convV x h' y l1 l2 lc =>
    rcases Option.or_eq_some_iff.mp h with hl | ⟨-, hr⟩
    · have hmem := checkConvLengths_eq_some hl
      constructor <;> rintro rfl <;> simp at hmem
    · exact hregions hr

/-- A command is refused for a window or for a device (R120, R121). -/
theorem refusal_eq_some {c : Plan} {p : Params} {r : Refusal} (h : c.refusal p = some r) :
    r = .regionCoversWindow ∨ r = .regionCoversDevice := by
  unfold Plan.refusal at h
  split_ifs at h <;> injection h with h <;> simp [← h]

/-- Settles O16: the argument error, the bus error and completion each write their `STATUS` and end the command; what is
left is a refusal. -/
theorem everyCommandEndsOnce : Obligations.EveryCommandEndsOnce := by
  intro i s
  rw [exec_eq_runPlan]
  rcases runPlan_cases (planOf i s.params) s with ⟨e, he, hrun⟩ | ⟨r, -, hr, hrun⟩ | ⟨-, -, -, hrun⟩ | ⟨-, -, -, hrun⟩
  · refine .inl ⟨_, hrun, rfl, rfl, rfl, ?_⟩
    obtain ⟨hnotIllegal, -⟩ := planOf_error_eq_some he
    rw [raiseCmdError_status]
    cases e <;> first | exact absurd rfl hnotIllegal | decide
  · rcases refusal_eq_some hr with rfl | rfl
    · exact .inr (.inl hrun)
    · exact .inr (.inr hrun)
  · exact .inl ⟨_, hrun, rfl, rfl, rfl, (by decide : errorStatus .bus ∈ _)⟩
  · refine .inl ⟨_, hrun, completeOk_phase _ _, completeOk_position _ _, completeOk_raced _ _, ?_⟩
    rw [completeOk_status]
    decide

/-! ### The four ends, one by one -/

theorem exec_of_error {i : Instr} {s : State} {e : ErrCode} (h : (planOf i s.params).error = some e) :
    exec i s = .next (raiseCmdError e (settleRace (planOf i s.params).out s)) := by
  simp [exec_eq_runPlan, runPlan, h]

theorem exec_of_refusal {i : Instr} {s : State} {r : Refusal} (h : (planOf i s.params).error = none)
    (hr : (planOf i s.params).refusal s.params = some r) : exec i s = .refused r := by
  simp [exec_eq_runPlan, runPlan, h, hr]

theorem exec_of_busError {i : Instr} {s : State} (h : (planOf i s.params).error = none)
    (hr : (planOf i s.params).refusal s.params = none) (hb : (planOf i s.params).busError s.params = true) :
    exec i s = .next (raiseBus (planOf i s.params).out s) := by
  simp [exec_eq_runPlan, runPlan, h, hr, hb]

theorem exec_of_no_busError {i : Instr} {s : State} (h : (planOf i s.params).error = none)
    (hr : (planOf i s.params).refusal s.params = none) (hb : (planOf i s.params).busError s.params = false) :
    exec i s = .next (completeOk (planOf i s.params).out (writeOutputs (planOf i s.params) s)) := by
  simp [exec_eq_runPlan, runPlan, h, hr, hb]

/-! ### The bus error -/

theorem busError_eq_true {c : Plan} {p : Params} :
    c.busError p = true ↔
      (∃ r ∈ c.srcs, ∃ k, k < r.count ∧ readFails p (r.base + 4 * k) = true) ∨
        ∃ k, k < c.out.count ∧ writeFails p (c.out.base + 4 * k) = true := by
  simp [Plan.busError, regionWords]

theorem busError_eq_false {c : Plan} {p : Params} :
    c.busError p = false ↔ (∀ r ∈ c.srcs, ReadableRegion p r) ∧ WritableRegion p c.out := by
  simp [Plan.busError, regionWords]

/-- Settles O18: `BUS` frees the output region and nothing else, and a command that meets no `ERROR` completes. -/
theorem busErrorExactlyWhenAUsedWordAnswersError : Obligations.BusErrorExactlyWhenAUsedWordAnswersError := by
  rintro i s c rfl herror hrefusal hwf
  refine ⟨fun hfails => ?_, fun hsrcs hout => ?_⟩
  · refine ⟨_, exec_of_busError herror hrefusal (busError_eq_true.mpr hfails), rfl, fun n hn => ?_, fun p hp => ?_⟩
    · exact readWord_freeRegion hwf (planOf_out_fits herror).2 hn
    · exact readByte_freeRegion hp
  · exact ⟨_, exec_of_no_busError herror hrefusal (busError_eq_false.mpr ⟨hsrcs, hout⟩), completeOk_status _ _⟩

/-! ### The refusals -/

theorem refusal_of_window {c : Plan} {p : Params} {r q : Region} (hr : r ∈ c.regions) (hq : q ∈ windows p)
    (h : regionsOverlap r q = true) : c.refusal p = some .regionCoversWindow :=
  if_pos (List.any_eq_true.mpr ⟨r, hr, List.any_eq_true.mpr ⟨q, hq, h⟩⟩)

theorem refusal_of_device {c : Plan} {p : Params} {r q : Region} (hr : r ∈ c.regions) (hq : q ∈ p.memMap.devices)
    (h : regionsOverlap r q = true) :
    c.refusal p = some .regionCoversWindow ∨ c.refusal p = some .regionCoversDevice := by
  have hdevice : c.regions.any (fun r => p.memMap.devices.any (fun d => regionsOverlap r d)) = true :=
    List.any_eq_true.mpr ⟨r, hr, List.any_eq_true.mpr ⟨q, hq, h⟩⟩
  unfold Plan.refusal
  rw [if_pos hdevice]
  split
  · exact .inl rfl
  · exact .inr rfl

/-- A state whose running command must be refused has no step (R120, R121, log 12). -/
theorem step_of_refusal {i : Instr} {s : State} {r : Refusal} (herror : (planOf i s.params).error = none)
    (hr : (planOf i s.params).refusal s.params = some r) (hbusy : s.phase = .busy) (hdecode : decode s.words = .command i) :
    step s = .refused r := by
  have hrunning : runningRefusal s = some r :=
    runningRefusal_eq_some.mpr ⟨_, runningPlan_eq_some.mpr ⟨hbusy, i, hdecode, rfl⟩, herror, hr⟩
  simp [step, hrunning]

/-- Settles O19: a region that meets a window or a device gives the plan its refusal, which is what `exec` and `step`
answer. -/
theorem regionsOverWindowsOrDevicesAreRefused : Obligations.RegionsOverWindowsOrDevicesAreRefused := by
  rintro i s c r q rfl herror hr hlow hhigh
  have hoverlap : regionsOverlap r q = true := regionsOverlap_iff.mpr ⟨hlow, hhigh⟩
  refine ⟨fun hq => ?_, fun hq => ?_, fun hq hbusy hdecode => ?_, fun hq hbusy hdecode => ?_⟩
  · exact exec_of_refusal herror (refusal_of_window hr hq hoverlap)
  · exact (refusal_of_device hr hq hoverlap).imp (exec_of_refusal herror) (exec_of_refusal herror)
  · exact step_of_refusal herror (refusal_of_window hr hq hoverlap) hbusy hdecode
  · exact (refusal_of_device hr hq hoverlap).imp (step_of_refusal herror · hbusy hdecode)
      (step_of_refusal herror · hbusy hdecode)

/-! ### Freed output regions -/

/-- Freeing the output region of a state that differs from `s` in that region alone, and has drawn no free value more. -/
theorem outputFreed_freeRegion {out : Region} {s s' t : State} (hwf : s'.mem.wf = true) (hdraws : s'.draws = s.draws)
    (hsame : ∀ p, regionHas out p = false → s'.mem.readByte p = s.mem.readByte p)
    (ht : t.mem = (freeRegion out s').mem) : OutputFreed out s t := by
  rw [OutputFreed, ht]
  refine ⟨fun k hk htop => ?_, fun p hp => (readByte_freeRegion hp).trans (hsame p hp)⟩
  rw [readByte_freeRegion_get hwf hk htop, hdraws]
  rfl

theorem completeOk_mem_of_raced {out : Region} {s : State} (h : s.raced = true) :
    (completeOk out s).mem = (freeRegion out s).mem := by
  rw [completeOk, settleRace_of_raced h]
  rfl

/-- Settles O33: the write marks the race and touches no register, and a raced command frees its output region when it
ends, completed or with an argument error. -/
theorem racingWriteFreesTheOutput : Obligations.RacingWriteFreesTheOutput := by
  refine ⟨fun s t addr data k hport hk hused hserve => ?_, ?_, ?_⟩
  · obtain ⟨-, ⟨hreg, -⟩ | ⟨-, rfl⟩⟩ := writeMemory_next hserve
    · rw [hport] at hreg
      cases hreg
    · refine ⟨Bool.or_eq_true_iff.mpr (.inr (List.any_eq_true.mpr ⟨addr.toNat + k, ?_, hused⟩)), rfl, rfl⟩
      exact List.mem_map.mpr ⟨k, List.mem_range.mpr hk, rfl⟩
  · rintro i s c rfl herror hrefusal hbus hwf hraced
    refine ⟨_, exec_of_no_busError herror hrefusal hbus, completeOk_status _ _, completeOk_raced _ _, ?_⟩
    refine outputFreed_freeRegion (writeOutputs_mem_wf hwf) (writeOutputs_draws _ s) (fun p hp => readByte_writeOutputs hp)
      (completeOk_mem_of_raced ?_)
    rw [writeOutputs_raced, hraced]
  · rintro i s c e rfl herror hwf hraced
    refine ⟨_, exec_of_error herror, rfl, rfl, outputFreed_freeRegion hwf rfl (fun _ _ => rfl) ?_⟩
    rw [raiseCmdError_mem, settleRace_of_raced hraced]
    rfl

theorem abandonCommand_of_running {s : State} {c : Plan} (h : runningPlan s = some c) :
    abandonCommand s = freeRegion c.out s := by
  simp [abandonCommand, h]

theorem abandonCommand_of_not_running {s : State} (h : runningPlan s = none) : abandonCommand s = s := by
  simp [abandonCommand, h]

/-- Settles O28: a reset frees the output region of the running command, whatever its checks would say, and then gives
every register its value. -/
theorem resetAbandonsTheRunningCommand : Obligations.ResetAbandonsTheRunningCommand := by
  intro s c hrunning hwf
  refine ⟨setReset true s, rfl, rfl, rfl, rfl, rfl, rfl, rfl, setReset_params true s,
    outputFreed_freeRegion hwf rfl (fun _ _ => rfl) ?_⟩
  show (abandonCommand s).mem = _
  rw [abandonCommand_of_running hrunning]

/-- Settles O27: with no region in use a reset sets the registers alone, and the invariant keeps them while it lasts. -/
theorem resetGivesEveryRegisterItsValue : Obligations.ResetGivesEveryRegisterItsValue := by
  intro s
  refine ⟨fun hnone => ⟨Lanes.atReset s.params.laneWidth.lanes, rfl, ?_⟩, rfl, fun hinv hrst => ?_⟩
  · show Host.Outcome.next { resetRegisters (abandonCommand s) with rst := true } = _
    rw [abandonCommand_of_not_running hnone]
    rfl
  · obtain ⟨-, -, -, -, -, -, hheld⟩ := hinv
    obtain ⟨-, hstatus, -, -, -, -, -, -, hidle⟩ := hheld hrst
    exact ⟨hidle, by rw [hstatus]; rfl, rfl⟩

end Sys2Proof.Machine
end

section
/-!
PROOFS. The statements about the register port and the memory port: which register a write changes, where the bytes of a host
access lie, and what a read of them answers.
-/
namespace Sys2Proof.Machine

/-! ### Register writes -/

/-- While CORE takes writes, an aligned 32-bit write reaches its register (R20, R30). -/
theorem portWrite_of_acceptsWrites {s : State} (h : AcceptsWrites s) {o : BitVec 8} (ho : o.toNat % 4 = 0) (v : Word) :
    portWrite s o v 4 = writeRegister s o.toNat v :=
  if_pos ⟨rfl, ho, h.2.1, h.2.2⟩

/-- An access of another width or alignment is no register access (R30). -/
theorem portWrite_of_other (s : State) {o : BitVec 8} (v : Word) {n : Nat} (h : n ≠ 4 ∨ o.toNat % 4 ≠ 0) :
    portWrite s o v n = s :=
  if_neg (by omega)

theorem portRead_of_other (s : State) {o : BitVec 8} {n : Nat} (h : n ≠ 4 ∨ o.toNat % 4 ≠ 0) :
    portRead s o n = .zeros n :=
  if_neg (by omega)

/-- A write to an offset but `CTRL` is seen at that offset alone. -/
theorem readRegister_writeRegister_ne (s : State) (v : Word) {o o' : Nat} (hctrl : o ≠ 0x04) (h : o' ≠ o) :
    readRegister (writeRegister s o v) o' = readRegister s o' := by
  rcases writeRegister_cases s o v with ⟨ho, -⟩ | ⟨rfl, hw⟩ | ⟨rfl, hw⟩ | ⟨rfl, hw⟩ | ⟨rfl, hw⟩ | ⟨rfl, hw⟩ | ⟨rfl, hw⟩ |
    ⟨rfl, hw⟩ | hw
  case inl => exact absurd ho hctrl
  case inr.inr.inr.inr.inr.inr.inr.inr => rw [hw]
  all_goals
    rw [hw]
    unfold readRegister
    split <;> first | rfl | exact absurd rfl h

/-- The offsets of the read-write registers (R21, R23 to R28). -/
def WritableOffset (o : BitVec 8) : Prop := o ∈ [0x08#8, 0x10#8, 0x14#8, 0x18#8, 0x1C#8, 0x20#8, 0x24#8]

theorem WritableOffset.aligned {o : BitVec 8} (h : WritableOffset o) : o.toNat % 4 = 0 := by
  unfold WritableOffset at h
  fin_cases h <;> decide

theorem WritableOffset.ne_ctrl {o : BitVec 8} (h : WritableOffset o) : o.toNat ≠ 0x04 := by
  unfold WritableOffset at h
  fin_cases h <;> decide

theorem readRegister_writeRegister_same (s : State) {o : BitVec 8} (v : Word) (h : WritableOffset o) :
    readRegister (writeRegister s o.toNat v) o.toNat = v := by
  unfold WritableOffset at h
  fin_cases h <;> rfl

/-- A write to a read-write register changes no field but the seven registers. -/
theorem writeRegister_frame (s : State) {o : BitVec 8} (v : Word) (h : WritableOffset o) :
    writeRegister s o.toNat v = { s with
      cmd := (writeRegister s o.toNat v).cmd, srcA := (writeRegister s o.toNat v).srcA,
      srcB := (writeRegister s o.toNat v).srcB, dst := (writeRegister s o.toNat v).dst,
      lenA := (writeRegister s o.toNat v).lenA, lenB := (writeRegister s o.toNat v).lenB,
      lenC := (writeRegister s o.toNat v).lenC } := by
  unfold WritableOffset at h
  fin_cases h <;> rfl

/-- Settles O20: each of the seven offsets is its own register's. -/
theorem registerWritesReadBack : Obligations.RegisterWritesReadBack := by
  intro s o v haccepts ho
  have hwrite := portWrite_of_acceptsWrites haccepts (WritableOffset.aligned ho) v
  refine ⟨_, congrArg Host.Outcome.next hwrite, ?_, fun o' hne => ?_, writeRegister_frame s v ho⟩
  · rw [portRead_of_aligned _ (WritableOffset.aligned ho), readRegister_writeRegister_same s v ho]
  · have hne' : o'.toNat ≠ o.toNat := fun heq => hne (BitVec.eq_of_toNat_eq heq)
    unfold portRead
    rw [readRegister_writeRegister_ne s v (WritableOffset.ne_ctrl ho) hne']

/-- Settles O23: such an access is no register access, and a read only answers. -/
theorem otherAccessesActOnNothing : Obligations.OtherAccessesActOnNothing := by
  intro s o v n
  exact ⟨fun h => ⟨congrArg _ (portWrite_of_other s v h), portRead_of_other s h⟩, rfl⟩

/-- Settles O25: bit 0 set accepts, and nothing else about a write of `CTRL` acts. -/
theorem startAcceptsACommandOnlyWhenIdle : Obligations.StartAcceptsACommandOnlyWhenIdle := by
  intro s v
  refine ⟨rfl, fun haccepts hstart => ⟨accept s, ?_, rfl, rfl, rfl, rfl, rfl, rfl, rfl⟩, fun hstart => ?_, fun hbusy => ?_⟩
  · refine congrArg _ ((portWrite_of_acceptsWrites haccepts (by decide) v).trans ?_)
    exact if_pos hstart
  · refine congrArg _ (portWrite_of_not_writable ?_ 4)
    exact if_neg (by rw [hstart]; exact Bool.false_ne_true)
  · exact congrArg _ (portWrite_of_busy hbusy 0x04#8 v 4)

/-! ### Words in memory -/

/-- Settles O31: a word is stored byte by byte, lowest first. -/
theorem storedWordsAreLittleEndian : Obligations.StoredWordsAreLittleEndian := by
  intro m p v hwf
  exact ⟨Memory.readByte_writeWord_same hwf p v (i := 0) (by decide),
    Memory.readByte_writeWord_same hwf p v (i := 1) (by decide),
    Memory.readByte_writeWord_same hwf p v (i := 2) (by decide),
    Memory.readByte_writeWord_same hwf p v (i := 3) (by decide),
    Memory.readWord_writeWord_same hwf p v, Memory.writeWord_wf hwf p v,
    fun q hq => Memory.readByte_writeWord_ne m v hq⟩

/-- The bytes of a word, lowest first, are the word (R39). -/
theorem bytesWord_wordBytes (v : Word) : bytesWord [wordByte v 0, wordByte v 1, wordByte v 2, wordByte v 3] = v := by
  apply BitVec.eq_of_getLsbD_eq
  intro i hi
  simp only [bytesWord, wordByte, BitVec.getLsbD_or, BitVec.getLsbD_shiftLeft, BitVec.getLsbD_setWidth,
    BitVec.getLsbD_extractLsb']
  interval_cases i <;> simp

/-! ### Where a host access goes -/

theorem regionHas_eq_true {r : Region} {p : Nat} : regionHas r p = true ↔ r.base ≤ p ∧ p < r.base + 4 * r.count := by
  simp only [regionHas, Bool.and_eq_true, decide_eq_true_eq]
  rfl

/-- An access is a register access exactly when it is not empty and lies wholly in the window (R18). -/
theorem isRegisterAccess_eq_true {p : Params} {addr n : Nat} :
    isRegisterAccess p addr n = true ↔ 0 < n ∧ coreBase p ≤ addr ∧ addr + n ≤ coreBase p + 256 := by
  have hall : (accessBytes addr n).all (inOwnWindow p) = true ↔
      ∀ k, k < n → coreBase p ≤ addr + k ∧ addr + k < coreBase p + 256 := by
    simp [accessBytes, inOwnWindow, regionHas_eq_true]
  rw [isRegisterAccess, Bool.and_eq_true, decide_eq_true_eq, hall]
  constructor
  · rintro ⟨hpos, hin⟩
    have hfirst := hin 0 hpos
    have hlast := hin (n - 1) (by omega)
    omega
  · rintro ⟨hpos, hlow, hhigh⟩
    exact ⟨hpos, fun k hk => by omega⟩

theorem writeMemory_of_outside {s : State} {addr : Word} {data : List Byte} (h : 2 ^ 32 < addr.toNat + data.length) :
    writeMemory s addr data = .fault .addressOutside :=
  if_pos h

theorem writeMemory_of_register {s : State} {addr : Word} {data : List Byte} (hspace : addr.toNat + data.length ≤ 2 ^ 32)
    (h : isRegisterAccess s.params addr.toNat data.length = true) :
    writeMemory s addr data =
      .next (portWrite s (windowOffset s.params addr.toNat) (bytesWord data) data.length) := by
  rw [writeMemory, if_neg (by omega), if_pos h]

theorem writeMemory_of_memory {s : State} {addr : Word} {data : List Byte} (hspace : addr.toNat + data.length ≤ 2 ^ 32)
    (h : isRegisterAccess s.params addr.toNat data.length = false) :
    writeMemory s addr data = .next { s with
      mem := s.mem.writeBytes addr.toNat (landedBytes s addr.toNat data),
      raced := s.raced || (accessBytes addr.toNat data.length).any (inRunningRegions s),
      draws := s.draws + data.length } := by
  rw [writeMemory, if_neg (by omega), if_neg (by simp [h])]

theorem readMemory_of_outside {s : State} {addr : Word} {n : Nat} (h : 2 ^ 32 < addr.toNat + n) :
    readMemory s addr n = .fault .addressOutside :=
  if_pos h

theorem readMemory_of_register {s : State} {addr : Word} {n : Nat} (hspace : addr.toNat + n ≤ 2 ^ 32)
    (h : isRegisterAccess s.params addr.toNat n = true) :
    readMemory s addr n = .next (pushReply (portRead s (windowOffset s.params addr.toNat) n) s) := by
  rw [readMemory, if_neg (by omega), if_pos h]

theorem readMemory_of_memory {s : State} {addr : Word} {n : Nat} (hspace : addr.toNat + n ≤ 2 ^ 32)
    (h : isRegisterAccess s.params addr.toNat n = false) :
    readMemory s addr n =
      .next (pushReply (.bytes (observedBytes s addr.toNat n)) { s with draws := s.draws + n }) := by
  rw [readMemory, if_neg (by omega), if_neg (by simp [h])]

/-! ### Accesses in the window -/

theorem coreBase_le (p : Params) : coreBase p + 256 ≤ 2 ^ 32 := by
  have := p.basePage.isLt
  unfold coreBase
  omega

/-- The offset of an address of the window. -/
theorem windowOffset_toNat {p : Params} {addr : Nat} (hlow : coreBase p ≤ addr) (hhigh : addr < coreBase p + 256) :
    (windowOffset p addr).toNat = addr - coreBase p :=
  Nat.mod_eq_of_lt (by omega)

theorem toNat_append_page (p : Params) (o : BitVec 8) : (p.basePage ++ o).toNat = coreBase p + o.toNat := by
  rw [BitVec.toNat_append, Nat.shiftLeft_eq, Nat.mul_comm, ← Nat.two_pow_add_eq_or_of_lt o.isLt, coreBase]
  omega

theorem windowOffset_append_page (p : Params) (o : BitVec 8) : windowOffset p (p.basePage ++ o).toNat = o := by
  have ho := o.isLt
  rw [toNat_append_page]
  exact BitVec.eq_of_toNat_eq ((windowOffset_toNat (by omega) (by omega)).trans (by omega))

/-- An aligned word of the window is a register access of four bytes. -/
theorem isRegisterAccess_append_page (p : Params) {o : BitVec 8} (h : o.toNat % 4 = 0) :
    isRegisterAccess p (p.basePage ++ o).toNat 4 = true := by
  have ho := o.isLt
  rw [isRegisterAccess_eq_true, toNat_append_page]
  omega

/-- A register access at a misaligned address is one at a misaligned offset: the window is 256-byte aligned. -/
theorem other_windowOffset {p : Params} {addr n : Nat} (h : isRegisterAccess p addr n = true)
    (hother : n ≠ 4 ∨ addr % 4 ≠ 0) : n ≠ 4 ∨ (windowOffset p addr).toNat % 4 ≠ 0 := by
  obtain ⟨hpos, hlow, hhigh⟩ := isRegisterAccess_eq_true.mp h
  rw [windowOffset_toNat hlow (by omega)]
  unfold coreBase at *
  omega

theorem space_of_isRegisterAccess {p : Params} {addr n : Nat} (h : isRegisterAccess p addr n = true) :
    addr + n ≤ 2 ^ 32 :=
  (isRegisterAccess_eq_true.mp h).2.2.trans (coreBase_le p)

/-- Settles O59: the window's addresses are `CORE_BASE` plus their offset, and the register port ignores what is not
32-bit and aligned. -/
theorem windowAccessesAreRegisterAccesses : Obligations.WindowAccessesAreRegisterAccesses := by
  refine ⟨fun s o v ho => ?_, fun s addr data hreg hother => ?_, fun s addr n hreg hother => ?_⟩
  · have hreg := isRegisterAccess_append_page s.params ho
    have hspace := space_of_isRegisterAccess hreg
    constructor
    · refine (writeMemory_of_register hspace hreg).trans ?_
      rw [windowOffset_append_page, bytesWord_wordBytes]
      rfl
    · refine (readMemory_of_register hspace hreg).trans ?_
      rw [windowOffset_append_page]
      rfl
  · refine (writeMemory_of_register (space_of_isRegisterAccess hreg) hreg).trans ?_
    rw [portWrite_of_other s _ (other_windowOffset hreg hother)]
  · refine (readMemory_of_register (space_of_isRegisterAccess hreg) hreg).trans ?_
    rw [portRead_of_other s (other_windowOffset hreg hother)]
    rfl

/-! ### Accesses of memory -/

theorem bytePlace_eq_window {p : Params} {fails : Nat → Bool} {b : Nat} :
    bytePlace p fails b = .window ↔ inOwnWindow p b = true := by
  unfold bytePlace
  split_ifs with h1 h2 h3 <;> simp [h1]

/-- Where the `k`-th byte of a host write lies, its landed byte stands afterwards. -/
theorem readByte_writeBytes_landedBytes {s : State} (hwf : s.mem.wf = true) (addr : Nat) {data : List Byte} {k : Nat}
    {b : Byte} (h : data[k]? = some b) :
    (s.mem.writeBytes addr (landedBytes s addr data)).readByte (addr + k) = landedByte s addr k b := by
  obtain ⟨hk, rfl⟩ := List.getElem?_eq_some_iff.mp h
  rw [Memory.readByte_writeBytes_get hwf addr _ (by rwa [landedBytes_length])]
  simp [landedBytes]

/-- Settles O58: the `k`-th byte lands by its place, and no other byte is touched. -/
theorem hostWritesLandByTheirPlace : Obligations.HostWritesLandByTheirPlace := by
  intro s addr data
  refine ⟨writeMemory_of_outside, fun hspace hreg hwf => ?_⟩
  refine ⟨_, writeMemory_of_memory hspace hreg, rfl, fun k b hk => ?_, fun p hp => ?_⟩
  · have hbyte := readByte_writeBytes_landedBytes hwf addr.toNat hk
    refine ⟨fun hplace => hbyte.trans ?_, fun hplace => hbyte.trans ?_, fun hplace => hbyte.trans ?_⟩
    · simp only [landedByte, hplace]
    · simp only [landedByte, hplace]
    · simp only [List.mem_cons, List.not_mem_nil, or_false] at hplace
      rcases hplace with hplace | hplace <;> simp only [landedByte, hplace]
  · exact Memory.readByte_writeBytes_ne _ _ (by rwa [landedBytes_length])

/-- The `k`-th byte that a host read answers. -/
theorem observedBytes_getElem? (s : State) (addr : Nat) {n k : Nat} (h : k < n) :
    (observedBytes s addr n)[k]? = some (observedByte s addr k) := by
  simp [observedBytes, h]

/-- A byte of the running command's output outside CORE's window answers a free value, wherever it lies (R119). -/
theorem observedByte_of_output {s : State} {addr k : Nat} (hout : inRunningOutput s (addr + k) = true)
    (hwindow : inOwnWindow s.params (addr + k) = false) : observedByte s addr k = drawByte (s.draws + k) := by
  cases hplace : bytePlace s.params (readFails s.params) (addr + k) with
  | window =>
    rw [bytePlace_eq_window, hwindow] at hplace
    cases hplace
  | foreign | failing => simp only [observedByte, hplace]
  | memory => simp only [observedByte, hplace, hout, if_true]

/-- Settles O34: each byte answers by its place, and the read changes no memory. -/
theorem racingReadAnswersAnyValue : Obligations.RacingReadAnswersAnyValue := by
  intro s addr n
  refine ⟨readMemory_of_outside, fun hspace hreg => ?_⟩
  refine ⟨_, observedBytes s addr.toNat n, readMemory_of_memory hspace hreg, rfl, by simp [observedBytes], rfl, rfl, rfl,
    fun k hk => ?_⟩
  rw [observedBytes_getElem? s addr.toNat hk]
  refine ⟨fun hout hwindow => ?_, fun hplace hout => ?_, fun hplace => ?_, fun hwindow => ?_⟩
  · rw [observedByte_of_output hout hwindow]
  · simp [observedByte, hplace, hout]
  · simp only [List.mem_cons, List.not_mem_nil, or_false] at hplace
    rcases hplace with hplace | hplace <;> simp only [observedByte, hplace]
  · simp only [observedByte, bytePlace_eq_window.mpr hwindow]

/-- A byte of an ordinary region whose word answers lies in memory (R41, R120, R121). -/
theorem bytePlace_of_ordinary {p : Params} {fails : Nat → Bool} {r : Region} {b : Nat} (h : OrdinaryRegion p r)
    (hb : regionHas r b = true) (hfails : fails (b / 4 * 4) = false) : bytePlace p fails b = .memory := by
  obtain ⟨hwindows, hdevices⟩ := h
  have hout : ∀ q, RegionsApart r q → regionHas q b = false := fun q hq => by
    rw [regionHas_eq_true] at hb
    rw [regionHas_eq_false]
    omega
  have hown : inOwnWindow p b = false := hout _ (hwindows _ List.mem_cons_self)
  have hother : p.memMap.otherWindows.any (fun w => regionHas ⟨w, 64⟩ b) = false := by
    rw [List.any_eq_false]
    exact fun w hw => by
      simpa using hout ⟨w, 64⟩ (hwindows _ (List.mem_cons_of_mem _ (List.mem_map.mpr ⟨w, hw, rfl⟩)))
  have hdevice : p.memMap.devices.any (fun d => regionHas d b) = false := by
    rw [List.any_eq_false]
    exact fun d hd => by simpa using hout d (hdevices d hd)
  simp [bytePlace, hown, hother, hdevice, hfails]

theorem inRunningRegions_of_idle {s : State} (h : s.phase = .idle) (p : Nat) : inRunningRegions s p = false := by
  simp [inRunningRegions, runningPlan, h]

theorem inRunningOutput_of_idle {s : State} (h : s.phase = .idle) (p : Nat) : inRunningOutput s p = false := by
  simp [inRunningOutput, runningPlan, h]

/-- A word of ordinary memory is no register. -/
theorem isRegisterAccess_of_ordinary {p : Params} {addr : Nat} (h : OrdinaryRegion p ⟨addr, 1⟩) :
    isRegisterAccess p addr 4 = false := by
  have hwindow := h.1 _ List.mem_cons_self
  rw [← Bool.not_eq_true, isRegisterAccess_eq_true]
  simp only [RegionsApart] at hwindow
  omega

/-- Settles O32: the four bytes lie in ordinary memory that answers, so the write lands as it is and the read sees it. -/
theorem hostMemoryWordsReadBack : Obligations.HostMemoryWordsReadBack := by
  intro s addr v hidle hwf hspace hordinary hanswers
  have hreg := isRegisterAccess_of_ordinary hordinary
  have hin : ∀ k, k < 4 → regionHas ⟨addr.toNat, 1⟩ (addr.toNat + k) = true := fun k hk =>
    regionHas_eq_true.mpr ⟨Nat.le_add_right _ _, by show _ < addr.toNat + 4 * 1; omega⟩
  have hland : ∀ k, k < 4 → ∀ b, landedByte s addr.toNat k b = b := fun k hk b => by
    simp only [landedByte, bytePlace_of_ordinary hordinary (hin k hk) (hanswers k hk).1]
  let t : State := { s with mem := s.mem.writeWord addr.toNat v, draws := s.draws + 4 }
  have hsee : ∀ k, k < 4 → observedByte t addr.toNat k = wordByte v k := fun k hk => by
    have hplace : bytePlace t.params (readFails t.params) (addr.toNat + k) = .memory :=
      bytePlace_of_ordinary hordinary (hin k hk) (hanswers k hk).2
    simp only [observedByte, hplace, inRunningOutput_of_idle (s := t) hidle, Bool.false_eq_true, if_false]
    exact Memory.readByte_writeWord_same hwf addr.toNat v hk
  refine ⟨t, _, ?_, rfl, readMemory_of_memory (s := t) hspace hreg, ?_, rfl⟩
  · refine (writeMemory_of_memory hspace hreg).trans ?_
    simp [landedBytes, hland, inRunningRegions_of_idle hidle, t, Memory.writeBytes, Memory.writeWord]
  · show s.replies ++ [.bytes (observedBytes t addr.toNat 4)] = _
    simp [observedBytes, List.range_succ, hsee]

end Sys2Proof.Machine
end

section
/-!
PROOFS. The statements about steps and runs: whose turn it is, what one transaction does to `STATUS`, the parameters and
memory, how a command statement starts its command, and that a running command ends.
-/
namespace Sys2Proof.Machine

/-! ### Whose turn it is -/

theorem runningRefusal_of_idle {s : State} (h : s.phase = .idle) : runningRefusal s = none := by
  simp [runningRefusal, runningPlan, h]

theorem engineTurn_of_idle {s : State} (h : s.phase = .idle) : engineTurn s = false := by
  simp [engineTurn, h]

theorem engineTurn_eq_true {s : State} : engineTurn s = true ↔ EngineMoves s := by
  simp [engineTurn]

theorem step_of_serve {s : State} {x : Input} {rest : List Input} (hr : runningRefusal s = none)
    (hturn : engineTurn s = false) (hin : s.inputs = x :: rest) :
    step s = serve x { s with inputs := rest, latency := s.latency - 1 } := by
  simp [step, serveNext, hr, hturn, hin]

/-- A running command that must be refused is refused by its meaning as well; otherwise the step is the engine's. -/
theorem step_of_command {s : State} {i : Instr} (hmoves : EngineMoves s) (hdecode : decode s.words = .command i) :
    step s = exec i s := by
  have hrun : runEngine s = exec i s := by simp [runEngine, hdecode]
  cases hr : runningRefusal s with
  | none => simp [step, hr, engineTurn_of_engineMoves hmoves, hrun]
  | some r =>
    obtain ⟨c, hplan, herror, hrefusal⟩ := runningRefusal_eq_some.mp hr
    obtain ⟨-, i', hdecode', rfl⟩ := runningPlan_eq_some.mp hplan
    obtain rfl := Decoded.command.inj (hdecode.symm.trans hdecode')
    simp [step, hr, exec_of_refusal herror hrefusal]

/-- Settles O5: the engine's turn is to decode the registers and run what they decode to. -/
theorem stepRunsTheDecodedCommand : Obligations.StepRunsTheDecodedCommand :=
  fun _ _ hmoves hdecode => step_of_command hmoves hdecode

/-- Settles O6: a placed command is a running one whose count has run out. -/
theorem placedCommandRunsNext : Obligations.PlacedCommandRunsNext := by
  intro s nbits w i hplaced
  refine step_of_command ⟨rfl, .inl rfl⟩ ?_
  show decode (wordsOfNumber nbits w) = _
  unfold decodeTableWord at hplaced
  split at hplaced
  · next hdecode => rw [hdecode, Option.some.inj hplaced]
  · cases hplaced

/-- Settles O8: it is not the engine's turn, and there is nothing to serve. -/
theorem idleCoreDoesNothing : Obligations.IdleCoreDoesNothing := by
  intro s hidle hempty
  simp [step, runningRefusal_of_idle hidle, engineTurn_of_idle hidle, serveNext, hempty]

/-- Settles O60: the step is the service of the oldest transaction. -/
theorem stepServesTheOldestTransaction : Obligations.StepServesTheOldestTransaction := by
  intro s x rest hr hturn hin
  exact step_of_serve hr (by rwa [← Bool.not_eq_true, engineTurn_eq_true]) hin

/-- Settles O41: a poll is served like any other transaction, and `DONE` decides whether it leaves the queue. -/
theorem waitAnswersTheFinalStatus : Obligations.WaitAnswersTheFinalStatus := by
  intro s rest hturn hin
  have hserve : step s = serve .wait { s with inputs := rest, latency := s.latency - 1 } := by
    rcases hturn with hidle | ⟨hlatency, hr⟩
    · exact step_of_serve (runningRefusal_of_idle hidle) (engineTurn_of_idle hidle) hin
    · exact step_of_serve hr (by simp [engineTurn, hlatency, hin]) hin
  refine ⟨fun hdone => hserve.trans ?_, fun hdone => hserve.trans ?_⟩
  · simp [serve, pollWait, hdone, pushReply]
  · simp [serve, pollWait, hdone, ← hin]

/-! ### What one transaction changes -/

/-- No register write changes memory. -/
theorem portWrite_mem (s : State) (o : BitVec 8) (v : Word) (n : Nat) : (portWrite s o v n).mem = s.mem := by
  rcases portWrite_cases s o v n with ⟨-, -, -, -, hw⟩ | hw
  · rw [hw]
    rcases writeRegister_cases s o.toNat v with ⟨-, -, hw⟩ | ⟨-, hw⟩ | ⟨-, hw⟩ | ⟨-, hw⟩ | ⟨-, hw⟩ | ⟨-, hw⟩ | ⟨-, hw⟩ |
      ⟨-, hw⟩ | hw <;> rw [hw]
    rfl
  · rw [hw]

/-- No register write changes a parameter. -/
theorem portWrite_params (s : State) (o : BitVec 8) (v : Word) (n : Nat) : (portWrite s o v n).params = s.params := by
  rcases portWrite_cases s o v n with ⟨-, -, -, -, hw⟩ | hw
  · rw [hw]
    rcases writeRegister_cases s o.toNat v with ⟨-, -, hw⟩ | ⟨-, hw⟩ | ⟨-, hw⟩ | ⟨-, hw⟩ | ⟨-, hw⟩ | ⟨-, hw⟩ | ⟨-, hw⟩ |
      ⟨-, hw⟩ | hw <;> rw [hw]
    rfl
  · rw [hw]

/-- A register write leaves `STATUS` or accepts a command (R20, R22). -/
theorem portWrite_status (s : State) (o : BitVec 8) (v : Word) (n : Nat) :
    (portWrite s o v n).status = s.status ∨ (portWrite s o v n).status = acceptedStatus := by
  rcases portWrite_cases s o v n with ⟨-, -, -, -, hw⟩ | hw
  · rw [hw]
    rcases writeRegister_cases s o.toNat v with ⟨-, -, hw⟩ | ⟨-, hw⟩ | ⟨-, hw⟩ | ⟨-, hw⟩ | ⟨-, hw⟩ | ⟨-, hw⟩ | ⟨-, hw⟩ |
      ⟨-, hw⟩ | hw <;> rw [hw]
    case inl => exact .inr rfl
    all_goals exact .inl rfl
  · exact .inl (by rw [hw])

theorem pollWait_status (s : State) : (pollWait s).status = s.status := by
  unfold pollWait
  split <;> rfl

theorem pollWait_mem (s : State) : (pollWait s).mem = s.mem := by
  unfold pollWait
  split <;> rfl

theorem pollWait_params (s : State) : (pollWait s).params = s.params := by
  unfold pollWait
  split <;> rfl

theorem serve_next_params {x : Input} {s t : State} (h : serve x s = .next t) : t.params = s.params := by
  cases x with
  | regWrite o v n => rw [← Host.Outcome.next.inj h]; exact portWrite_params s o v n
  | regRead o n => rw [← Host.Outcome.next.inj h]; rfl
  | memWrite a bs =>
    obtain ⟨-, ⟨-, o, v, rfl⟩ | ⟨-, rfl⟩⟩ := writeMemory_next h
    · exact portWrite_params s o v _
    · rfl
  | memRead a n => obtain ⟨r, d, rfl⟩ := readMemory_next h; rfl
  | wait => rw [← Host.Outcome.next.inj h]; exact pollWait_params s
  | rst b => rw [← Host.Outcome.next.inj h]; exact setReset_params b s

/-- `STATUS` changes by an acceptance or by a reset (R22, R106). -/
theorem serve_next_status {x : Input} {s t : State} (h : serve x s = .next t) :
    t.status = s.status ∨ t.status = acceptedStatus ∨ (t.status = 0#32 ∧ t.rst = true) := by
  cases x with
  | regWrite o v n => rw [← Host.Outcome.next.inj h]; exact (portWrite_status s o v n).imp_right .inl
  | regRead o n => rw [← Host.Outcome.next.inj h]; exact .inl rfl
  | memWrite a bs =>
    obtain ⟨-, ⟨-, o, v, rfl⟩ | ⟨-, rfl⟩⟩ := writeMemory_next h
    · exact (portWrite_status s o v _).imp_right .inl
    · exact .inl rfl
  | memRead a n => obtain ⟨r, d, rfl⟩ := readMemory_next h; exact .inl rfl
  | wait => rw [← Host.Outcome.next.inj h]; exact .inl (pollWait_status s)
  | rst b =>
    rw [← Host.Outcome.next.inj h]
    cases b with
    | false => exact .inl rfl
    | true => exact .inr (.inr ⟨rfl, rfl⟩)

theorem inRunningOutput_of_running {s : State} {c : Plan} (h : runningPlan s = some c) (p : Nat) :
    inRunningOutput s p = regionHas c.out p := by
  simp [inRunningOutput, h]

/-- A reset changes bytes of the running command's output region only (R116). -/
theorem readByte_setReset {s : State} (b : Bool) {p : Nat} (hp : inRunningOutput s p = false) :
    (setReset b s).mem.readByte p = s.mem.readByte p := by
  cases b with
  | false => rfl
  | true =>
    show (abandonCommand s).mem.readByte p = _
    cases hplan : runningPlan s with
    | none => rw [abandonCommand_of_not_running hplan]
    | some c =>
      rw [inRunningOutput_of_running hplan] at hp
      rw [abandonCommand_of_running hplan, readByte_freeRegion hp]

/-- A transaction changes a byte of memory by writing it or by abandoning the command that would have (R47). -/
theorem serve_next_readByte {x : Input} {s t : State} {p : Nat} (h : serve x s = .next t)
    (hout : inRunningOutput s p = false)
    (hwrite : ∀ addr data, x = .memWrite addr data → p < addr.toNat ∨ addr.toNat + data.length ≤ p) :
    t.mem.readByte p = s.mem.readByte p := by
  cases x with
  | regWrite o v n => rw [← Host.Outcome.next.inj h, portWrite_mem]
  | regRead o n => rw [← Host.Outcome.next.inj h, pushReply_mem]
  | memWrite a bs =>
    obtain ⟨-, ⟨-, o, v, rfl⟩ | ⟨-, rfl⟩⟩ := writeMemory_next h
    · rw [portWrite_mem]
    · exact Memory.readByte_writeBytes_ne _ _ (by rw [landedBytes_length]; exact hwrite a bs rfl)
  | memRead a n => obtain ⟨r, d, rfl⟩ := readMemory_next h; rfl
  | wait => rw [← Host.Outcome.next.inj h, pollWait_mem]
  | rst b => rw [← Host.Outcome.next.inj h]; exact readByte_setReset b hout

/-! ### What a step changes -/

theorem runEngine_next_params {s t : State} (h : runEngine s = .next t) : t.params = s.params := by
  rcases runEngine_cases s with ⟨why, -, heq⟩ | ⟨i, -, heq⟩ <;> rw [heq] at h
  · rw [← Host.Outcome.next.inj h, raiseCmdError_params]
  · exact (runPlan_next_sameOutside ((exec_eq_runPlan i s).symm.trans h)).1

/-- Settles O36: neither a command nor a transaction writes the parameters. -/
theorem noStepChangesAParameter : Obligations.NoStepChangesAParameter := by
  intro s t hstep
  rcases step_cases s with ⟨r, -, heq⟩ | ⟨-, -, heq⟩ | ⟨-, -, -, heq⟩ | ⟨x, rest, -, -, -, heq⟩ <;> rw [heq] at hstep
  · cases hstep
  · exact runEngine_next_params hstep
  · rw [Host.Outcome.next.inj hstep]
  · exact serve_next_params (s := { s with inputs := rest, latency := s.latency - 1 }) hstep

/-- Settles O35: the engine writes the output region of the command it runs, and a transaction what it says. -/
theorem onlyOutputsAndOtherAgentsChangeMemory : Obligations.OnlyOutputsAndOtherAgentsChangeMemory := by
  intro s t p hstep hchanged
  by_contra hneither
  rw [not_or, Bool.not_eq_true] at hneither
  obtain ⟨hout, hwrite⟩ := hneither
  refine hchanged ?_
  rcases step_cases s with ⟨r, -, heq⟩ | ⟨-, hturn, heq⟩ | ⟨-, -, -, heq⟩ | ⟨x, rest, -, -, hin, heq⟩ <;> rw [heq] at hstep
  · cases hstep
  · rcases runEngine_cases s with ⟨why, -, hrun⟩ | ⟨i, hdecode, hrun⟩ <;> rw [hrun] at hstep
    · rw [← Host.Outcome.next.inj hstep, raiseCmdError_mem]
    · have hplan := runningPlan_eq_some.mpr ⟨phase_of_engineTurn hturn, i, hdecode, rfl⟩
      rw [inRunningOutput_of_running hplan] at hout
      exact runPlan_next_readByte ((exec_eq_runPlan i s).symm.trans hstep) hout
  · rw [Host.Outcome.next.inj hstep]
  · refine serve_next_readByte (s := { s with inputs := rest, latency := s.latency - 1 }) hstep hout (fun addr data hx => ?_)
    by_contra hcovers
    exact hwrite ⟨addr, data, rest, hx ▸ hin, by omega, by omega⟩

/-- A state whose `STATUS` says `DONE` runs no command. -/
theorem phase_of_done {s : State} (h : s.Inv) (hdone : statusDone s.status = true) : s.phase = .idle := by
  obtain ⟨-, -, -, hphase, -⟩ := h
  cases hp : s.phase with
  | idle => rfl
  | busy =>
    rw [hphase.mp hp] at hdone
    cases hdone

/-- Settles O26: with `DONE` set no command runs, so the step is a transaction. -/
theorem doneHoldsUntilAcceptanceOrReset : Obligations.DoneHoldsUntilAcceptanceOrReset := by
  intro s t hinv hstep hdone hchanged
  have hidle := phase_of_done hinv hdone
  rcases step_cases s with ⟨r, -, heq⟩ | ⟨-, hturn, -⟩ | ⟨-, -, -, heq⟩ | ⟨x, rest, -, -, -, heq⟩
  · rw [heq] at hstep
    cases hstep
  · rw [engineTurn_of_idle hidle] at hturn
    cases hturn
  · rw [heq] at hstep
    exact absurd (by rw [Host.Outcome.next.inj hstep]) hchanged
  · rw [heq] at hstep
    exact (serve_next_status (s := { s with inputs := rest, latency := s.latency - 1 }) hstep).resolve_left hchanged

/-! ### Runs -/

/-- Some number of steps leads from `s` to `t`. -/
def Reaches (s t : State) : Prop := ∃ k, Host.Core.run Sys2Proof.core k s = .next t

theorem Reaches.refl (s : State) : Reaches s s := ⟨0, rfl⟩

theorem coreRun_succ {M : Host.Core} {s s' : M.State} (h : M.step s = .next s') (k : Nat) :
    M.run (k + 1) s = M.run k s' := by
  simp only [Host.Core.run, h]

/-- Runs that follow each other are one run. -/
theorem coreRun_add {M : Host.Core} {j k : Nat} {s t u : M.State} (h : M.run j s = .next t) (h' : M.run k t = .next u) :
    M.run (j + k) s = .next u := by
  induction j generalizing s with
  | zero => rw [Nat.zero_add, Host.Outcome.next.inj h, h']
  | succ j ih =>
    rw [Nat.succ_add]
    cases hstep : M.step s with
    | next s' => exact (coreRun_succ hstep _).trans (ih ((coreRun_succ hstep j).symm.trans h))
    | fault r => simp [Host.Core.run, hstep] at h
    | refused r => simp [Host.Core.run, hstep] at h

theorem run_succ_of_step {s s' : State} (h : step s = .next s') (k : Nat) :
    Host.Core.run Sys2Proof.core (k + 1) s = Host.Core.run Sys2Proof.core k s' :=
  coreRun_succ (M := Sys2Proof.core) h k

theorem Reaches.of_step {s s' t : State} (h : step s = .next s') (ht : Reaches s' t) : Reaches s t := by
  obtain ⟨k, hk⟩ := ht
  exact ⟨k + 1, (run_succ_of_step h k).trans hk⟩

theorem Reaches.trans {s t u : State} (h : Reaches s t) (h' : Reaches t u) : Reaches s u := by
  obtain ⟨j, hj⟩ := h
  obtain ⟨k, hk⟩ := h'
  exact ⟨j + k, coreRun_add (M := Sys2Proof.core) hj hk⟩

/-- The next state of an idle CORE with a register write at the head of the queue. -/
theorem step_of_wr32 {s : State} {o : BitVec 8} {v : Word} {rest : List Input} (h : AcceptsWrites s)
    (hin : s.inputs = wr32 o v :: rest) (ho : o.toNat % 4 = 0) :
    step s = .next (writeRegister { s with inputs := rest, latency := s.latency - 1 } o.toNat v) := by
  rw [step_of_serve (runningRefusal_of_idle h.1) (engineTurn_of_idle h.1) hin]
  exact congrArg Host.Outcome.next
    (portWrite_of_acceptsWrites (s := { s with inputs := rest, latency := s.latency - 1 }) h ho v)

/-- Settles O30: the write is served and accepts the all-zero command word, which is illegal. -/
theorem startingFromResetValuesIsIllegal : Obligations.StartingFromResetValuesIsIllegal := by
  have hstart : step { State.reset with inputs := [wr32 0x04#8 1#32] } = .next (accept State.reset) :=
    step_of_wr32 (s := { State.reset with inputs := [wr32 0x04#8 1#32] }) ⟨rfl, rfl, rfl⟩ rfl rfl
  have hend : step (accept State.reset) = .next (endedWith (accept State.reset) 0x00000106#32) :=
    step_of_illegal ⟨rfl, .inr rfl⟩ (decode_of_reserved_opField (c := State.reset.words) rfl (by decide) (by decide)
      (by decide))
  refine ⟨_, (run_succ_of_step hstart 1).trans ((run_succ_of_step hend 0).trans rfl), rfl, rfl, rfl, rfl⟩

/-! ### A command statement -/

/-- What an offset reads after a list of register writes: the last write to it, or what it read before. -/
def readAfter (ws : List (BitVec 8 × Word)) (o : Nat) (v : Word) : Word :=
  ws.foldl (fun v w => if w.1.toNat = o then w.2 else v) v

/-- An idle CORE takes a write to a read-write register, stays idle and keeps memory. -/
theorem exists_step_of_write {s : State} {o : BitVec 8} {v : Word} {rest : List Input} (h : AcceptsWrites s)
    (hin : s.inputs = wr32 o v :: rest) (ho : WritableOffset o) :
    ∃ s', step s = .next s' ∧ AcceptsWrites s' ∧ s'.inputs = rest ∧ s'.mem = s.mem ∧
      readRegister s' o.toNat = v ∧ ∀ p, p ≠ o.toNat → readRegister s' p = readRegister s p := by
  refine ⟨_, step_of_wr32 h hin ho.aligned, ?_, ?_, ?_, readRegister_writeRegister_same _ v ho,
    fun p hp => readRegister_writeRegister_ne _ v ho.ne_ctrl hp⟩ <;> rw [writeRegister_frame _ v ho]
  exact h

/-- It takes a list of such writes, one a step. -/
theorem reaches_after_writes (ws : List (BitVec 8 × Word)) {s : State} {rest : List Input} (h : AcceptsWrites s)
    (hws : ∀ w ∈ ws, WritableOffset w.1) (hin : s.inputs = ws.map (fun w => wr32 w.1 w.2) ++ rest) :
    ∃ s', Reaches s s' ∧ AcceptsWrites s' ∧ s'.inputs = rest ∧ s'.mem = s.mem ∧
      ∀ o, readRegister s' o = readAfter ws o (readRegister s o) := by
  induction ws generalizing s with
  | nil => exact ⟨s, .refl s, h, hin, rfl, fun _ => rfl⟩
  | cons w ws ih =>
    obtain ⟨s₁, hstep, haccepts, hqueue₁, hmem₁, hsame, hother⟩ :=
      exists_step_of_write h hin (hws _ List.mem_cons_self)
    obtain ⟨t, hreach, hidle, hqueue, hmem, hread⟩ :=
      ih haccepts (fun w hw => hws w (List.mem_cons_of_mem _ hw)) hqueue₁
    refine ⟨t, .of_step hstep hreach, hidle, hqueue, hmem.trans hmem₁, fun p => (hread p).trans ?_⟩
    by_cases hp : w.1.toNat = p
    · subst hp
      simp [readAfter, hsame]
    · simp [readAfter, hp, hother p (Ne.symm hp)]

/-- The register writes of a command statement (R66), without `CTRL`. -/
def statementWrites (i : Instr) : List (BitVec 8 × Word) :=
  let c := encode i
  [(0x10#8, c.srcA), (0x14#8, c.srcB), (0x18#8, c.dst)] ++
    (match i with
    | .dotS _ _ _ _ _ _ | .dotV _ _ _ _ _ _ | .convS _ _ _ _ _ _ | .convV _ _ _ _ _ _ =>
      [(0x1C#8, c.lenA), (0x20#8, c.lenB), (0x24#8, c.lenC)]
    | .tmulS _ _ _ | .tmulV _ _ _ => []) ++ [(0x08#8, c.cmd)]

theorem commandStatement_eq (i : Instr) : commandStatement i =
    (statementWrites i).map (fun w => wr32 w.1 w.2) ++ [wr32 0x04#8 1#32, .wait] := by
  cases i <;> rfl

theorem statementWrites_writable (i : Instr) : ∀ w ∈ statementWrites i, WritableOffset w.1 := by
  cases i <;> simp [statementWrites, WritableOffset]

/-- Registers that read as the statement's writes leave them hold the command: a register that is not written is one that
the command does not use (R58). -/
theorem decode_of_statementWrites {i : Instr} {s s' : State} (hwf : i.wf = true)
    (h : ∀ o, readRegister s' o = readAfter (statementWrites i) o (readRegister s o)) :
    decode s'.words = .command i := by
  have hcmd : s'.cmd = (encode i).cmd := (h 0x08).trans (by cases i <;> rfl)
  have hsrcA : s'.srcA = (encode i).srcA := (h 0x10).trans (by cases i <;> rfl)
  have hsrcB : s'.srcB = (encode i).srcB := (h 0x14).trans (by cases i <;> rfl)
  have hdst : s'.dst = (encode i).dst := (h 0x18).trans (by cases i <;> rfl)
  rw [← decodingAnEncodedCommandGivesItBack i hwf]
  cases i with
  | dotS | dotV | convS | convV =>
    have hlenA : s'.lenA = (encode _).lenA := h 0x1C
    have hlenB : s'.lenB = (encode _).lenB := h 0x20
    have hlenC : s'.lenC = (encode _).lenC := h 0x24
    rw [State.words, hcmd, hsrcA, hsrcB, hdst, hlenA, hlenB, hlenC]
  | tmulS a b d =>
    obtain ⟨-, -, hdecode, -⟩ := opcodeMapIsComplete s'.words
    obtain ⟨-, -, hdecode', -⟩ := opcodeMapIsComplete (encode (.tmulS a b d))
    rw [hdecode hcmd, hdecode' rfl, ← hsrcA, ← hsrcB, ← hdst]
    rfl
  | tmulV a b d =>
    obtain ⟨-, -, -, hdecode, -⟩ := opcodeMapIsComplete s'.words
    obtain ⟨-, -, -, hdecode', -⟩ := opcodeMapIsComplete (encode (.tmulV a b d))
    rw [hdecode hcmd, hdecode' rfl, ← hsrcA, ← hsrcB, ← hdst]
    rfl

/-- Settles O39: the writes load the registers, and the `CTRL` write accepts what they hold. -/
theorem commandStatementStartsItsCommand : Obligations.CommandStatementStartsItsCommand := by
  intro i s rest hwf haccepts hin
  rw [commandStatement_eq, List.append_assoc] at hin
  obtain ⟨s', hreach, hidle, hqueue, hmem, hread⟩ := reaches_after_writes _ haccepts (statementWrites_writable i) hin
  obtain ⟨k, hk⟩ := hreach.trans (.of_step (step_of_wr32 hidle hqueue rfl) (.refl _))
  have hdecode : decode s'.words = .command i := decode_of_statementWrites hwf hread
  exact ⟨k, _, hk, rfl, rfl, hdecode, hmem, rfl, rfl, rfl⟩

/-! ### A running command ends -/

/-- What a running command's transaction leaves while it runs on: all that decides whether it must be refused. -/
def RunsOn (s t : State) : Prop :=
  t.phase = s.phase ∧ t.status = s.status ∧ t.words = s.words ∧ t.params = s.params ∧ t.latency = s.latency

/-- A transaction served while a command runs ends it by a reset, or lets it run on, with at most its own poll to be served
again. -/
theorem serve_of_busy {x : Input} {s : State} (hbusy : statusBusy s.status = true) (hx : InSpaceInput x) :
    ∃ t, serve x s = .next t ∧ (t.phase = .idle ∨ RunsOn s t ∧ ∀ y ∈ t.inputs, y = .wait ∨ y ∈ s.inputs) := by
  have hon : ∀ t, RunsOn s t → t.inputs = s.inputs → RunsOn s t ∧ ∀ y ∈ t.inputs, y = .wait ∨ y ∈ s.inputs :=
    fun t ht hin => ⟨ht, fun y hy => .inr (hin ▸ hy)⟩
  cases x with
  | regWrite o v n =>
    exact ⟨s, congrArg _ (portWrite_of_busy hbusy o v n), .inr (hon s ⟨rfl, rfl, rfl, rfl, rfl⟩ rfl)⟩
  | regRead o n => exact ⟨_, rfl, .inr (hon _ ⟨rfl, rfl, rfl, rfl, rfl⟩ rfl)⟩
  | memWrite a bs =>
    cases hreg : isRegisterAccess s.params a.toNat bs.length with
    | true =>
      refine ⟨s, (writeMemory_of_register hx hreg).trans ?_, .inr (hon s ⟨rfl, rfl, rfl, rfl, rfl⟩ rfl)⟩
      rw [portWrite_of_busy hbusy]
    | false => exact ⟨_, writeMemory_of_memory hx hreg, .inr (hon _ ⟨rfl, rfl, rfl, rfl, rfl⟩ rfl)⟩
  | memRead a n =>
    cases hreg : isRegisterAccess s.params a.toNat n with
    | true => exact ⟨_, readMemory_of_register hx hreg, .inr (hon _ ⟨rfl, rfl, rfl, rfl, rfl⟩ rfl)⟩
    | false => exact ⟨_, readMemory_of_memory hx hreg, .inr (hon _ ⟨rfl, rfl, rfl, rfl, rfl⟩ rfl)⟩
  | wait =>
    refine ⟨pollWait s, rfl, .inr ?_⟩
    unfold pollWait
    split
    · exact hon _ ⟨rfl, rfl, rfl, rfl, rfl⟩ rfl
    · exact ⟨⟨rfl, rfl, rfl, rfl, rfl⟩, fun y hy => List.mem_cons.mp hy⟩
  | rst b =>
    cases b with
    | false => exact ⟨_, rfl, .inr (hon _ ⟨rfl, rfl, rfl, rfl, rfl⟩ rfl)⟩
    | true => exact ⟨_, rfl, .inl rfl⟩

/-- Whether a running command must be refused depends on the phase, the registers and the parameters. -/
theorem runningRefusal_congr {s t : State} (hphase : t.phase = s.phase) (hwords : t.words = s.words)
    (hparams : t.params = s.params) : runningRefusal t = runningRefusal s := by
  simp only [runningRefusal, runningPlan, hphase, hwords, hparams]

/-- The engine's turn ends a command that need not be refused. -/
theorem runEngine_of_not_refused {s : State} (hbusy : s.phase = .busy) (hr : runningRefusal s = none) :
    ∃ t, runEngine s = .next t ∧ t.phase = .idle := by
  rcases runEngine_cases s with ⟨why, -, hrun⟩ | ⟨i, hdecode, hrun⟩
  · exact ⟨_, hrun, rfl⟩
  · rcases runPlan_cases (planOf i s.params) s with ⟨e, -, h⟩ | ⟨r, herror, hrefusal, -⟩ | ⟨-, -, -, h⟩ | ⟨-, -, -, h⟩
    case inr.inr.inl =>
      have hsome : runningRefusal s = some r :=
        runningRefusal_eq_some.mpr ⟨_, runningPlan_eq_some.mpr ⟨hbusy, i, hdecode, rfl⟩, herror, hrefusal⟩
      rw [hr] at hsome
      cases hsome
    all_goals exact ⟨_, hrun.trans ((exec_eq_runPlan i s).trans h), runPlan_next_phase h⟩

/-- Settles O40: every transaction served lowers the count, and when it has run out, or nothing waits, the engine ends the
command. -/
theorem runningCommandEnds : Obligations.RunningCommandEnds := by
  intro s hbusy hstatus hrefusal hspace
  suffices h : ∃ t, Reaches s t ∧ t.phase = .idle by
    obtain ⟨t, ⟨k, hk⟩, ht⟩ := h
    exact ⟨k, t, hk, ht⟩
  induction hl : s.latency generalizing s with
  | zero =>
    obtain ⟨t, hrun, ht⟩ := runEngine_of_not_refused hbusy hrefusal
    have hturn : engineTurn s = true := engineTurn_eq_true.mpr ⟨hbusy, .inl hl⟩
    exact ⟨t, .of_step (by simp [step, hrefusal, hturn, hrun]) (.refl t), ht⟩
  | succ l ih =>
    cases hin : s.inputs with
    | nil =>
      obtain ⟨t, hrun, ht⟩ := runEngine_of_not_refused hbusy hrefusal
      have hturn : engineTurn s = true := engineTurn_eq_true.mpr ⟨hbusy, .inr hin⟩
      exact ⟨t, .of_step (by simp [step, hrefusal, hturn, hrun]) (.refl t), ht⟩
    | cons x rest =>
      have hstep := step_of_serve hrefusal (by simp [engineTurn, hl, hin]) hin
      have hx : InSpaceInput x := hspace x (by simp [hin])
      obtain ⟨t, hserve, ht | ⟨⟨hphase, hstatus', hwords, hparams, hlatency⟩, hqueue⟩⟩ :=
        serve_of_busy (s := { s with inputs := rest, latency := s.latency - 1 }) hstatus hx
      · exact ⟨t, .of_step (hstep.trans hserve) (.refl t), ht⟩
      · obtain ⟨u, hu, hidle⟩ := ih t (hphase.trans hbusy) (by rw [hstatus']; exact hstatus)
          ((runningRefusal_congr hphase hwords hparams).trans hrefusal)
          (fun y hy => by
            rcases hqueue y hy with rfl | hy
            · trivial
            · exact hspace y (by rw [hin]; exact List.mem_cons_of_mem _ hy))
          (by rw [hlatency]; show s.latency - 1 = l; omega)
        exact ⟨u, .of_step (hstep.trans hserve) hu, hidle⟩

end Sys2Proof.Machine
end

section
/-!
PROOFS. The statements about binary32 arithmetic: the value of an exponent-and-fraction field rises with the field, so that
rounding is a search for the nearest field; sums and products are that search around the exact value.
-/
namespace Sys2Proof.Machine

/-! ### The value of a field -/

/-- The magnitude that a 31-bit exponent-and-fraction field stands for, in units of `2^-149`; at the field of infinity and
beyond, where the sequence of finite magnitudes would go on. -/
def fieldUnits (f : Nat) : Nat :=
  if f / 2 ^ 23 = 0 then f % 2 ^ 23 else (2 ^ 23 + f % 2 ^ 23) * 2 ^ (f / 2 ^ 23 - 1)

/-- A word without its sign. -/
def absField (w : Word) : Nat := w.toNat % 2 ^ 31

theorem absField_lt (w : Word) : absField w < 2 ^ 31 := Nat.mod_lt _ (by norm_num)

theorem expField_eq_absField (w : Word) : expField w = absField w / 2 ^ 23 := by
  rw [expField_eq, absField]
  omega

theorem fracField_eq_absField (w : Word) : fracField w = absField w % 2 ^ 23 := by
  rw [fracField_eq, absField]
  omega

theorem magnitude_eq_fieldUnits (w : Word) : magnitude w = fieldUnits (absField w) := by
  rw [magnitude, fieldUnits, expField_eq_absField, fracField_eq_absField]

/-- A word is its sign and its field. -/
theorem packSign_absField (w : Word) : packSign (signBit w) (absField w) = w := by
  have hw := w.isLt
  apply BitVec.eq_of_toNat_eq
  rw [packSign_toNat _ (absField_lt w), signBit_eq, absField]
  split_ifs with h <;> simp only [decide_eq_true_eq] at h <;> omega

theorem eq_of_sign_of_field {a b : Word} (hsign : signBit a = signBit b) (hfield : absField a = absField b) : a = b := by
  rw [← packSign_absField a, ← packSign_absField b, hsign, hfield]

theorem absField_packSign (n : Bool) {f : Nat} (h : f < 2 ^ 31) : absField (packSign n f) = f := by
  rw [absField, packSign_toNat n h]
  split_ifs <;> omega

theorem isFinite_iff {w : Word} : isFinite w = true ↔ absField w < infField := by
  have := absField_lt w
  simp only [isFinite, bne_iff_ne, expField_eq_absField, infField]
  omega

theorem isNaN_iff {w : Word} : isNaN w = true ↔ infField < absField w := by
  have := absField_lt w
  simp only [isNaN, Bool.and_eq_true, beq_iff_eq, bne_iff_ne, expField_eq_absField, fracField_eq_absField, infField]
  omega

theorem isInf_iff {w : Word} : isInf w = true ↔ absField w = infField := by
  have := absField_lt w
  simp only [isInf, Bool.and_eq_true, beq_iff_eq, expField_eq_absField, fracField_eq_absField, infField]
  omega

theorem isZero_iff {w : Word} : isZero w = true ↔ absField w = 0 := by
  simp only [isZero, Bool.and_eq_true, beq_iff_eq, expField_eq_absField, fracField_eq_absField]
  omega

/-- The spacing of the magnitudes at exponent `q + 1`, or among the subnormals and the smallest normal ones. -/
theorem fieldUnits_of_significand {q m : Nat} (hm : m ≤ 2 ^ 24) (h : q = 0 ∨ 2 ^ 23 ≤ m) :
    fieldUnits (q * 2 ^ 23 + m) = m * 2 ^ q := by
  unfold fieldUnits
  rcases Nat.lt_or_ge m (2 ^ 23) with hlow | hlow
  · obtain rfl : q = 0 := by omega
    rw [if_pos (by omega), pow_zero]
    omega
  · rcases Nat.lt_or_ge m (2 ^ 24) with htop | htop
    · rw [if_neg (by omega), show (q * 2 ^ 23 + m) / 2 ^ 23 - 1 = q by omega,
        show 2 ^ 23 + (q * 2 ^ 23 + m) % 2 ^ 23 = m by omega]
    · obtain rfl : m = 2 ^ 24 := by omega
      rw [if_neg (by omega), show (q * 2 ^ 23 + 2 ^ 24) / 2 ^ 23 - 1 = q + 1 by omega,
        show 2 ^ 23 + (q * 2 ^ 23 + 2 ^ 24) % 2 ^ 23 = 2 ^ 23 by omega, pow_succ]
      ring

/-- Every field is a significand at an exponent. -/
theorem exists_significand (f : Nat) : ∃ q m, f = q * 2 ^ 23 + m ∧ m < 2 ^ 24 ∧ (q = 0 ∨ 2 ^ 23 ≤ m) := by
  rcases Nat.lt_or_ge f (2 ^ 24) with h | h
  · exact ⟨0, f, by omega, h, .inl rfl⟩
  · exact ⟨f / 2 ^ 23 - 1, f % 2 ^ 23 + 2 ^ 23, by omega, by omega, .inr (by omega)⟩

theorem fieldUnits_strictMono : StrictMono fieldUnits := by
  refine strictMono_nat_of_lt_succ (fun f => ?_)
  obtain ⟨q, m, rfl, hm, hq⟩ := exists_significand f
  rw [fieldUnits_of_significand hm.le hq, Nat.add_assoc, fieldUnits_of_significand hm (by omega)]
  exact Nat.mul_lt_mul_of_pos_right (Nat.lt_succ_self m) (Nat.two_pow_pos q)

theorem fieldUnits_zero : fieldUnits 0 = 0 := rfl

theorem fieldUnits_one : fieldUnits 1 = 1 := by simp [fieldUnits]

/-! ### Rounding -/

/-- How far the exponent of the rounded value lies above that of the subnormals. -/
def roundExp (num sh : Nat) : Nat := num.log2 - (sh + 23)

/-- The significand of the value, cut off. -/
def cutSig (num sh : Nat) : Nat := num / 2 ^ (sh + roundExp num sh)

/-- What is cut off. -/
def cutRest (num sh : Nat) : Nat := num % 2 ^ (sh + roundExp num sh)

/-- Whether the value is rounded up: it is nearer to the next significand, or half way and the cut one is odd. -/
abbrev RoundsUp (num sh : Nat) : Prop :=
  2 ^ (sh + roundExp num sh) < 2 * cutRest num sh ∨
    (2 * cutRest num sh = 2 ^ (sh + roundExp num sh) ∧ cutSig num sh % 2 = 1)

/-- The field of the value with its significand cut off. -/
def cutField (num sh : Nat) : Nat := roundExp num sh * 2 ^ 23 + cutSig num sh

/-- The rounded field, before overflow is looked at. -/
def roundField (num sh : Nat) : Nat := cutField num sh + if RoundsUp num sh then 1 else 0

theorem roundMagnitude_eq (num sh : Nat) : roundMagnitude num sh = min (roundField num sh) infField := by
  have hfield : roundField num sh =
      roundExp num sh * 2 ^ 23 + if RoundsUp num sh then cutSig num sh + 1 else cutSig num sh := by
    unfold roundField cutField
    split_ifs <;> omega
  rw [hfield, roundMagnitude]
  rfl

theorem cutSig_lt (num sh : Nat) : cutSig num sh < 2 ^ 24 := by
  rw [cutSig, Nat.div_lt_iff_lt_mul (Nat.two_pow_pos _), ← pow_add]
  refine lt_of_lt_of_le Nat.lt_log2_self (Nat.pow_le_pow_right (by norm_num) ?_)
  unfold roundExp
  omega

/-- Above the subnormals the significand has its leading bit. -/
theorem le_cutSig {num sh : Nat} (h : roundExp num sh ≠ 0) : 2 ^ 23 ≤ cutSig num sh := by
  have hne : num ≠ 0 := fun h0 => h (by simp [roundExp, h0])
  rw [cutSig, Nat.le_div_iff_mul_le (Nat.two_pow_pos _), ← pow_add]
  refine le_trans (Nat.pow_le_pow_right (by norm_num) ?_) (Nat.log2_self_le hne)
  unfold roundExp at *
  omega

/-- The value lies between the magnitude of the cut field and that of the next one, which are a spacing apart. -/
theorem num_between (num sh : Nat) :
    num = fieldUnits (cutField num sh) * 2 ^ sh + cutRest num sh ∧
      fieldUnits (cutField num sh + 1) * 2 ^ sh =
        fieldUnits (cutField num sh) * 2 ^ sh + 2 ^ (sh + roundExp num sh) := by
  have hsig : roundExp num sh = 0 ∨ 2 ^ 23 ≤ cutSig num sh := Classical.or_iff_not_imp_left.mpr le_cutSig
  have hcut : fieldUnits (cutField num sh) = cutSig num sh * 2 ^ roundExp num sh :=
    by rw [cutField, fieldUnits_of_significand (cutSig_lt num sh).le hsig]
  have hnext : fieldUnits (cutField num sh + 1) = (cutSig num sh + 1) * 2 ^ roundExp num sh :=
    by rw [cutField, Nat.add_assoc, fieldUnits_of_significand (cutSig_lt num sh) (by omega)]
  rw [hcut, hnext, pow_add]
  constructor
  · calc num = 2 ^ (sh + roundExp num sh) * cutSig num sh + cutRest num sh := (Nat.div_add_mod num _).symm
      _ = cutSig num sh * 2 ^ roundExp num sh * 2 ^ sh + cutRest num sh := by rw [pow_add]; ring
  · ring

theorem cutRest_lt (num sh : Nat) : cutRest num sh < 2 ^ (sh + roundExp num sh) := Nat.mod_lt _ (Nat.two_pow_pos _)

theorem cutField_mod_two (num sh : Nat) : cutField num sh % 2 = cutSig num sh % 2 := by
  unfold cutField
  omega

/-- The lower end of a spacing is nearest to a value in its lower half, among all points outside the spacing. -/
theorem lower_end_nearest {num lo d r G : Nat} (hnum : num = lo + r) (hG : G ≤ lo ∨ lo + d ≤ G) (hhalf : 2 * r ≤ d) :
    |(num : Int) - lo| ≤ |(num : Int) - G| ∧ (|(num : Int) - lo| = |(num : Int) - G| → G ≠ lo → 2 * r = d) := by
  simp only [abs_eq_max_neg]
  omega

/-- The upper end is nearest to a value in its upper half. -/
theorem upper_end_nearest {num lo hi d r G : Nat} (hnum : num = lo + r) (hhi : hi = lo + d) (hr : r < d)
    (hG : G ≤ lo ∨ hi ≤ G) (hhalf : d ≤ 2 * r) :
    |(num : Int) - hi| ≤ |(num : Int) - G| ∧ (|(num : Int) - hi| = |(num : Int) - G| → G ≠ hi → 2 * r = d) := by
  simp only [abs_eq_max_neg]
  omega

/-- No field is nearer to the value than the rounded one, and if another one is as near the rounded one is even (R12
item 1): a field up to the cut one lies below the spacing that holds the value, and any other one above it. -/
theorem roundField_nearest (num sh g : Nat) :
    |(num : Int) - (fieldUnits (roundField num sh) * 2 ^ sh : Nat)| ≤ |(num : Int) - (fieldUnits g * 2 ^ sh : Nat)| ∧
      (|(num : Int) - (fieldUnits (roundField num sh) * 2 ^ sh : Nat)| =
        |(num : Int) - (fieldUnits g * 2 ^ sh : Nat)| →
        fieldUnits g ≠ fieldUnits (roundField num sh) → roundField num sh % 2 = 0) := by
  obtain ⟨hnum, hnext⟩ := num_between num sh
  have hne : ∀ f, fieldUnits g ≠ fieldUnits f → fieldUnits g * 2 ^ sh ≠ fieldUnits f * 2 ^ sh :=
    fun f h heq => h (Nat.eq_of_mul_eq_mul_right (Nat.two_pow_pos sh) heq)
  have hside : fieldUnits g * 2 ^ sh ≤ fieldUnits (cutField num sh) * 2 ^ sh ∨
      fieldUnits (cutField num sh + 1) * 2 ^ sh ≤ fieldUnits g * 2 ^ sh := by
    rcases Nat.lt_or_ge (cutField num sh) g with h | h
    · exact .inr (Nat.mul_le_mul_right _ (fieldUnits_strictMono.monotone h))
    · exact .inl (Nat.mul_le_mul_right _ (fieldUnits_strictMono.monotone h))
  by_cases hup : RoundsUp num sh
  · obtain ⟨hnear, htie⟩ := upper_end_nearest hnum hnext (cutRest_lt num sh) hside
      (hup.elim Nat.le_of_lt fun h => h.1.ge)
    rw [show roundField num sh = cutField num sh + 1 by rw [roundField, if_pos hup]]
    refine ⟨hnear, fun heq hother => ?_⟩
    have hodd := (hup.resolve_left (htie heq (hne _ hother)).not_gt).2
    rw [← cutField_mod_two] at hodd
    omega
  · obtain ⟨hhalf, hodd⟩ := not_or.mp hup
    obtain ⟨hnear, htie⟩ := lower_end_nearest hnum (hside.imp_right hnext.symm.trans_le) (Nat.not_lt.mp hhalf)
    rw [show roundField num sh = cutField num sh by rw [roundField, if_neg hup, Nat.add_zero]]
    refine ⟨hnear, fun heq hother => ?_⟩
    have heven := not_and.mp hodd (htie heq (hne _ hother))
    rw [← cutField_mod_two] at heven
    omega

/-! ### Overflow -/

theorem fieldUnits_infField : fieldUnits infField = 2 ^ 23 * 2 ^ 254 :=
  fieldUnits_of_significand (q := 254) (m := 2 ^ 23) (by norm_num) (.inr le_rfl)

/-- The largest finite magnitude. -/
theorem fieldUnits_maxField : fieldUnits (infField - 1) = (2 ^ 24 - 1) * 2 ^ 253 :=
  fieldUnits_of_significand (q := 253) (m := 2 ^ 24 - 1) (by norm_num) (.inr (by norm_num))

/-- With the largest finite magnitude `33554430 * x` and the next one `33554432 * x`, a value that is as near to a
magnitude from the next one on lies at or past the middle. -/
theorem le_of_nearest_above {num w x : Nat} (hw : 33554432 * x ≤ w)
    (hnear : |(num : Int) - w| ≤ |(num : Int) - (33554430 * x : Nat)|) : 33554431 * x ≤ num := by
  simp only [abs_eq_max_neg] at hnear
  omega

/-- A value at or past the middle that is as near to a magnitude up to the largest finite one is half way to it. -/
theorem eq_of_nearest_below {num w x : Nat} (hw : w ≤ 33554430 * x) (hnum : 33554431 * x ≤ num) (hx : 0 < x)
    (hnear : |(num : Int) - w| ≤ |(num : Int) - (33554432 * x : Nat)|) :
    w = 33554430 * x ∧ |(num : Int) - w| = |(num : Int) - (33554432 * x : Nat)| := by
  simp only [abs_eq_max_neg] at hnear ⊢
  omega

/-- Rounding leaves the finite fields exactly from half a spacing past the largest one on: at the half way point itself
the field of infinity is the even one (R12 item 3). -/
theorem infField_le_roundField {num sh : Nat} :
    infField ≤ roundField num sh ↔ 33554431 * 2 ^ (252 + sh) ≤ num := by
  have hinf : fieldUnits infField * 2 ^ sh = 33554432 * 2 ^ (252 + sh) := by
    rw [fieldUnits_infField, pow_add]; ring
  have hmax : fieldUnits (infField - 1) * 2 ^ sh = 33554430 * 2 ^ (252 + sh) := by
    rw [fieldUnits_maxField, pow_add]; ring
  constructor
  · intro hle
    have hnear := (roundField_nearest num sh (infField - 1)).1
    have hvalue := Nat.mul_le_mul_right (2 ^ sh) (fieldUnits_strictMono.monotone hle)
    rw [hmax] at hnear
    rw [hinf] at hvalue
    exact le_of_nearest_above hvalue hnear
  · intro hnum
    by_contra hlt
    obtain ⟨hnear, htie⟩ := roundField_nearest num sh infField
    have hvalue := Nat.mul_le_mul_right (2 ^ sh) (fieldUnits_strictMono.monotone (Nat.le_sub_one_of_lt (not_le.mp hlt)))
    rw [hinf] at hnear htie
    rw [hmax] at hvalue
    obtain ⟨hlast, htied⟩ := eq_of_nearest_below hvalue hnum (Nat.two_pow_pos _) hnear
    have heven := htie htied (fun heq => hlt (fieldUnits_strictMono.injective heq).le)
    have hfield : roundField num sh = infField - 1 :=
      fieldUnits_strictMono.injective (Nat.eq_of_mul_eq_mul_right (Nat.two_pow_pos sh) (hlast.trans hmax.symm))
    rw [hfield] at heven
    exact absurd heven (by decide)

theorem roundMagnitude_le (num sh : Nat) : roundMagnitude num sh ≤ infField := by
  rw [roundMagnitude_eq]
  exact Nat.min_le_right _ _

theorem roundMagnitude_lt_two_pow (num sh : Nat) : roundMagnitude num sh < 2 ^ 31 :=
  lt_of_le_of_lt (roundMagnitude_le num sh) (by decide)

/-! ### Signed values -/

theorem units_packSign (n : Bool) {f : Nat} (h : f < 2 ^ 31) :
    units (packSign n f) = if n then -(fieldUnits f : Int) else (fieldUnits f : Int) := by
  rw [units, magnitude_eq_fieldUnits, signBit_packSign n h, absField_packSign n h]

theorem units_eq (w : Word) :
    units w = if signBit w then -(fieldUnits (absField w) : Int) else (fieldUnits (absField w) : Int) := by
  rw [units, magnitude_eq_fieldUnits]

theorem natAbs_units (w : Word) : (units w).natAbs = fieldUnits (absField w) := by
  rw [units_eq]
  split <;> omega

/-- `w` is the exact value `v`, counted in units of `2^-(149+sh)`, rounded once; a zero may have either sign. -/
def IsRounding (v : Int) (sh : Nat) (w : Word) : Prop :=
  ∃ negative, w = packSign negative (roundMagnitude v.natAbs sh) ∧
    (negative = true → v ≤ 0) ∧ (negative = false → 0 ≤ v)

theorem IsRounding.absField_eq {v : Int} {sh : Nat} {w : Word} (h : IsRounding v sh w) :
    absField w = min (roundField v.natAbs sh) infField := by
  obtain ⟨negative, rfl, -⟩ := h
  rw [absField_packSign _ (roundMagnitude_lt_two_pow _ _), roundMagnitude_eq]

/-- A finite rounded value is the rounded field itself. -/
theorem IsRounding.roundField_eq {v : Int} {sh : Nat} {w : Word} (h : IsRounding v sh w) (hw : isFinite w = true) :
    roundField v.natAbs sh = absField w := by
  rw [isFinite_iff] at hw
  have := h.absField_eq
  omega

/-- Two integers, neither of which has the sign opposite to the other's. -/
abbrev SameSign (v u : Int) : Prop := (0 ≤ v ∧ 0 ≤ u) ∨ (v ≤ 0 ∧ u ≤ 0)

theorem abs_sub_of_sameSign {v u : Int} (sh : Nat) (h : SameSign v u) :
    |v - u * 2 ^ sh| = |(v.natAbs : Int) - (u.natAbs * 2 ^ sh : Nat)| := by
  push_cast
  rcases h with ⟨hv, hu⟩ | ⟨hv, hu⟩
  · rw [abs_of_nonneg hv, abs_of_nonneg hu]
  · rw [abs_of_nonpos hv, abs_of_nonpos hu, ← abs_neg]
    congr 1
    ring

theorem lt_abs_sub_of_not_sameSign {v u : Int} (sh : Nat) (h : ¬SameSign v u) : |v| < |v - u * 2 ^ sh| := by
  have hpow : (0 : Int) < 2 ^ sh := by positivity
  have hopp : (0 < v ∧ u < 0) ∨ (v < 0 ∧ 0 < u) := by omega
  rcases hopp with ⟨hv, hu⟩ | ⟨hv, hu⟩
  · have := mul_neg_of_neg_of_pos hu hpow
    rw [abs_of_pos hv, abs_of_pos (by omega)]
    omega
  · have := mul_pos hu hpow
    rw [abs_of_neg hv, abs_of_neg (by omega)]
    omega

theorem IsRounding.sameSign {v : Int} {sh : Nat} {w : Word} (h : IsRounding v sh w) : SameSign v (units w) := by
  obtain ⟨negative, rfl, hneg, hpos⟩ := h
  rw [units_packSign _ (roundMagnitude_lt_two_pow _ _)]
  cases negative with
  | true => exact .inr ⟨hneg rfl, by simp⟩
  | false => exact .inl ⟨hpos rfl, by simp⟩

theorem roundField_zero (sh : Nat) : roundField 0 sh = 0 := by
  have hpos : 0 < 2 ^ (sh + roundExp 0 sh) := Nat.two_pow_pos _
  simp [roundField, cutField, roundExp, cutSig, cutRest]

/-- A finite rounded value is nearest to the exact one, and even where another one is as near (R12 item 1). -/
theorem IsRounding.nearest {v : Int} {sh : Nat} {w : Word} (h : IsRounding v sh w) (hw : isFinite w = true) (c : Word) :
    |v - units w * 2 ^ sh| ≤ |v - units c * 2 ^ sh| ∧
      (|v - units w * 2 ^ sh| = |v - units c * 2 ^ sh| → units c ≠ units w → absField w % 2 = 0) := by
  have hfield := h.roundField_eq hw
  have hsign := h.sameSign
  rw [abs_sub_of_sameSign sh hsign, natAbs_units, ← hfield]
  by_cases hc : SameSign v (units c)
  · rw [abs_sub_of_sameSign sh hc, natAbs_units]
    obtain ⟨hnear, htie⟩ := roundField_nearest v.natAbs sh (absField c)
    refine ⟨hnear, fun heq hne => ?_⟩
    rcases eq_or_ne v 0 with rfl | hv
    · exact (congrArg (· % 2) (roundField_zero sh)).trans (Nat.zero_mod 2)
    · refine htie heq (fun hunits => hne ?_)
      rw [hfield, ← natAbs_units, ← natAbs_units] at hunits
      omega
  · have hnear := (roundField_nearest v.natAbs sh 0).1
    have hfar := lt_abs_sub_of_not_sameSign sh hc
    rw [fieldUnits_zero, Nat.zero_mul, Nat.cast_zero, sub_zero, Int.natCast_natAbs, abs_abs] at hnear
    rw [Int.natCast_natAbs]
    exact ⟨(hnear.trans_lt hfar).le, fun heq => absurd heq (hnear.trans_lt hfar).ne⟩

/-- Rounding overflows exactly from half a spacing past the largest finite magnitude on (R12 item 3). -/
theorem IsRounding.isFinite_iff {v : Int} {sh : Nat} {w : Word} (h : IsRounding v sh w) :
    isFinite w = true ↔ |v| < 33554431 * 2 ^ (252 + sh) := by
  have habs : |v| < 33554431 * 2 ^ (252 + sh) ↔ v.natAbs < 33554431 * 2 ^ (252 + sh) := by
    rw [← Int.natCast_natAbs]
    exact_mod_cast Iff.rfl
  rw [habs, ← not_le, ← infField_le_roundField, Sys2Proof.Machine.isFinite_iff, h.absField_eq]
  omega

/-- An overflow gives the infinity of the exact value's sign. -/
theorem IsRounding.eq_infinity {v : Int} {sh : Nat} {w : Word} (h : IsRounding v sh w) :
    (33554431 * 2 ^ (252 + sh) ≤ v → w = 0x7F800000#32) ∧ (v ≤ -(33554431 * 2 ^ (252 + sh)) → w = 0xFF800000#32) := by
  have hpos : (0 : Int) < 33554431 * 2 ^ (252 + sh) := by positivity
  have hinf : 33554431 * 2 ^ (252 + sh) ≤ |v| → roundMagnitude v.natAbs sh = infField := fun hle => by
    have hfar : 33554431 * 2 ^ (252 + sh) ≤ v.natAbs := by
      rw [← Int.natCast_natAbs] at hle
      exact_mod_cast hle
    rw [roundMagnitude_eq, Nat.min_eq_right (infField_le_roundField.mpr hfar)]
  obtain ⟨negative, hw, hneg, hpos'⟩ := h
  constructor <;> intro hv
  · have : negative = false := by
      by_contra hn
      have := hneg (by simpa using hn)
      omega
    rw [hw, hinf (hv.trans (le_abs_self v)), this]
    rfl
  · have : negative = true := by
      by_contra hn
      have := hpos' (by simpa using hn)
      omega
    rw [hw, hinf ((le_neg.mp hv).trans (neg_le_abs v)), this]
    rfl

/-! ### The two operations on finite operands -/

theorem isFinite_eq_true {w : Word} : isFinite w = true ↔ isNaN w = false ∧ isInf w = false := by
  rw [isFinite_iff, ← Bool.not_eq_true, ← Bool.not_eq_true, isNaN_iff, isInf_iff]
  omega

theorem units_nonpos_of_sign {w : Word} (h : signBit w = true) : units w ≤ 0 := by
  rw [units_eq, h]
  simp

theorem units_nonneg_of_sign {w : Word} (h : signBit w = false) : 0 ≤ units w := by
  rw [units_eq, h]
  simp

theorem fadd_of_finite {a b : Word} (ha : isFinite a = true) (hb : isFinite b = true) :
    fadd a b = if units a + units b = 0 then packSign (signBit a && signBit b) 0
      else packSign (decide (units a + units b < 0)) (roundMagnitude (units a + units b).natAbs 0) := by
  obtain ⟨hna, hia⟩ := isFinite_eq_true.mp ha
  obtain ⟨hnb, hib⟩ := isFinite_eq_true.mp hb
  simp only [fadd, hna, hnb, hia, hib, Bool.or_self, Bool.and_self, Bool.false_and, Bool.false_eq_true, if_false]

theorem fadd_isRounding {a b : Word} (ha : isFinite a = true) (hb : isFinite b = true) :
    IsRounding (units a + units b) 0 (fadd a b) := by
  rw [fadd_of_finite ha hb]
  by_cases hzero : units a + units b = 0
  · refine ⟨signBit a && signBit b, ?_, fun _ => hzero.le, fun _ => hzero.ge⟩
    rw [if_pos hzero, hzero, Int.natAbs_zero, roundMagnitude_eq, roundField_zero]
    rfl
  · refine ⟨decide (units a + units b < 0), if_neg hzero, fun hneg => ?_, fun hpos => ?_⟩
    · exact (of_decide_eq_true hneg).le
    · exact not_lt.mp (of_decide_eq_false hpos)

theorem fmul_of_finite {a b : Word} (ha : isFinite a = true) (hb : isFinite b = true) :
    fmul a b = packSign (signBit a != signBit b) (roundMagnitude (units a * units b).natAbs 149) := by
  obtain ⟨hna, hia⟩ := isFinite_eq_true.mp ha
  obtain ⟨hnb, hib⟩ := isFinite_eq_true.mp hb
  simp only [fmul, hna, hnb, hia, hib, Bool.or_self, Bool.and_false, Bool.false_and, Bool.false_eq_true, if_false,
    Int.natAbs_mul, natAbs_units, magnitude_eq_fieldUnits]

theorem fmul_isRounding {a b : Word} (ha : isFinite a = true) (hb : isFinite b = true) :
    IsRounding (units a * units b) 149 (fmul a b) := by
  refine ⟨_, fmul_of_finite ha hb, fun hneg => ?_, fun hpos => ?_⟩
  · cases hsa : signBit a <;> cases hsb : signBit b <;> simp only [hsa, hsb] at hneg
    · cases hneg
    · exact mul_nonpos_of_nonneg_of_nonpos (units_nonneg_of_sign hsa) (units_nonpos_of_sign hsb)
    · exact mul_nonpos_of_nonpos_of_nonneg (units_nonpos_of_sign hsa) (units_nonneg_of_sign hsb)
    · cases hneg
  · cases hsa : signBit a <;> cases hsb : signBit b <;> simp only [hsa, hsb] at hpos
    · exact mul_nonneg (units_nonneg_of_sign hsa) (units_nonneg_of_sign hsb)
    · cases hpos
    · cases hpos
    · exact mul_nonneg_of_nonpos_of_nonpos (units_nonpos_of_sign hsa) (units_nonpos_of_sign hsb)

/-- The significand is even when the whole field is. -/
theorem fracField_even {w : Word} (h : absField w % 2 = 0) : fracField w % 2 = 0 := by
  rw [fracField_eq_absField]
  omega

/-- Settles O52: the sum is a rounding of the exact sum. -/
theorem sumIsRoundedToNearestEven : Obligations.SumIsRoundedToNearestEven := by
  intro a b c ha hb _ hsum
  have hnear := (fadd_isRounding ha hb).nearest hsum c
  rw [pow_zero, mul_one, mul_one] at hnear
  exact ⟨hnear.1, fun heq hne => fracField_even (hnear.2 heq hne)⟩

/-- Settles O53: the product is a rounding of the exact product. -/
theorem productIsRoundedToNearestEven : Obligations.ProductIsRoundedToNearestEven := by
  intro a b c ha hb _ hprod
  have hnear := (fmul_isRounding ha hb).nearest hprod c
  exact ⟨hnear.1, fun heq hne => fracField_even (hnear.2 heq hne)⟩

/-- Settles O54: both operations are roundings, and rounding overflows from the middle on. -/
theorem overflowGivesTheSignedInfinity : Obligations.OverflowGivesTheSignedInfinity := by
  intro a b ha hb
  have hadd := fadd_isRounding ha hb
  have hmul := fmul_isRounding ha hb
  exact ⟨hadd.eq_infinity.1, hadd.eq_infinity.2, hadd.isFinite_iff.mpr, hmul.eq_infinity.1, hmul.eq_infinity.2,
    hmul.isFinite_iff.mpr⟩

/-! ### NaNs, infinities and zeros -/

theorem isNaN_packSign (n : Bool) {f : Nat} (h : f ≤ infField) : isNaN (packSign n f) = false := by
  have hlt : f < 2 ^ 31 := lt_of_le_of_lt h (by decide)
  rw [← Bool.not_eq_true, isNaN_iff, absField_packSign n hlt]
  omega

/-- An infinity has the sign of the exclusive or (R12 item 3). -/
theorem packSign_xor_infField (m n : Bool) :
    packSign (m != n) infField = if m = n then 0x7F800000#32 else 0xFF800000#32 := by
  cases m <;> cases n <;> rfl

/-- A zero has the sign of the exclusive or (R12 item 4). -/
theorem packSign_xor_zero (m n : Bool) : packSign (m != n) 0 = if m = n then 0x00000000#32 else 0x80000000#32 := by
  cases m <;> cases n <;> rfl

/-- What `fmul` can be: a NaN for a NaN operand or an invalid operation, an infinity, or a finite product rounded. -/
theorem fmul_cases (a b : Word) :
    ((isNaN a = true ∨ isNaN b = true ∨ (isInf a = true ∧ isZero b = true) ∨ (isZero a = true ∧ isInf b = true)) ∧
      fmul a b = nanPayload .mul a b) ∨
    (isNaN a = false ∧ isNaN b = false ∧ ¬(isInf a = true ∧ isZero b = true) ∧ ¬(isZero a = true ∧ isInf b = true) ∧
      (isInf a = true ∨ isInf b = true) ∧ fmul a b = packSign (signBit a != signBit b) infField) ∨
    (isFinite a = true ∧ isFinite b = true) := by
  unfold fmul
  split_ifs with h1 h2 h3
  · exact .inl ⟨by simp only [Bool.or_eq_true] at h1; tauto, rfl⟩
  · exact .inl ⟨by simp only [Bool.or_eq_true, Bool.and_eq_true] at h2; tauto, rfl⟩
  · simp only [Bool.or_eq_true, Bool.and_eq_true, not_or, Bool.not_eq_true] at h1 h2 h3
    exact .inr (.inl ⟨h1.1, h1.2, h2.1, h2.2, h3, rfl⟩)
  · simp only [Bool.or_eq_true, not_or, Bool.not_eq_true] at h1 h3
    exact .inr (.inr ⟨isFinite_eq_true.mpr ⟨h1.1, h3.1⟩, isFinite_eq_true.mpr ⟨h1.2, h3.2⟩⟩)

/-- What `fadd` can be: a NaN for a NaN operand or opposite infinities, an infinite operand, or a finite sum rounded. -/
theorem fadd_cases (a b : Word) :
    ((isNaN a = true ∨ isNaN b = true ∨ (isInf a = true ∧ isInf b = true ∧ signBit a ≠ signBit b)) ∧
      fadd a b = nanPayload .add a b) ∨
    (isNaN a = false ∧ isNaN b = false ∧ ¬(isInf a = true ∧ isInf b = true ∧ signBit a ≠ signBit b) ∧
      ((isInf a = true ∧ fadd a b = a) ∨ (isInf a = false ∧ isInf b = true ∧ fadd a b = b))) ∨
    (isFinite a = true ∧ isFinite b = true) := by
  unfold fadd
  split_ifs with h1 h2 h3 h4
  · exact .inl ⟨by simp only [Bool.or_eq_true] at h1; tauto, rfl⟩
  · simp only [Bool.and_eq_true, bne_iff_ne] at h2
    exact .inl ⟨.inr (.inr ⟨h2.1.1, h2.1.2, h2.2⟩), rfl⟩
  · simp only [Bool.or_eq_true, not_or, Bool.not_eq_true] at h1
    simp only [Bool.and_eq_true, bne_iff_ne, and_assoc] at h2
    exact .inr (.inl ⟨h1.1, h1.2, h2, .inl ⟨h3, rfl⟩⟩)
  · simp only [Bool.or_eq_true, not_or, Bool.not_eq_true] at h1 h3
    simp only [Bool.and_eq_true, bne_iff_ne, and_assoc] at h2
    exact .inr (.inl ⟨h1.1, h1.2, h2, .inr ⟨h3, h4, rfl⟩⟩)
  all_goals
    simp only [Bool.or_eq_true, not_or, Bool.not_eq_true] at h1 h3 h4
    exact .inr (.inr ⟨isFinite_eq_true.mpr ⟨h1.1, h3⟩, isFinite_eq_true.mpr ⟨h1.2, h4⟩⟩)

theorem IsRounding.isNaN_eq_false {v : Int} {sh : Nat} {w : Word} (h : IsRounding v sh w) : isNaN w = false := by
  obtain ⟨negative, rfl, -⟩ := h
  exact isNaN_packSign _ (roundMagnitude_le _ _)

/-- A product of finite operands or a proper infinity is no NaN; the cases exclude each other. -/
theorem isNaN_fmul_iff (a b : Word) : isNaN (fmul a b) = true ↔
    isNaN a = true ∨ isNaN b = true ∨ (isInf a = true ∧ isZero b = true) ∨ (isZero a = true ∧ isInf b = true) := by
  rcases fmul_cases a b with ⟨hinv, heq⟩ | ⟨hna, hnb, hab, hba, -, heq⟩ | ⟨ha, hb⟩
  · simp only [heq, isNaN_nanPayload, hinv]
  · rw [heq, isNaN_packSign _ le_rfl, hna, hnb]
    simp only [Bool.false_eq_true, hab, hba, or_self]
  · rw [(fmul_isRounding ha hb).isNaN_eq_false]
    obtain ⟨hna, hia⟩ := isFinite_eq_true.mp ha
    obtain ⟨hnb, hib⟩ := isFinite_eq_true.mp hb
    simp [hna, hnb, hia, hib]

theorem isNaN_fadd_iff (a b : Word) : isNaN (fadd a b) = true ↔
    isNaN a = true ∨ isNaN b = true ∨ (isInf a = true ∧ isInf b = true ∧ signBit a ≠ signBit b) := by
  rcases fadd_cases a b with ⟨hinv, heq⟩ | ⟨hna, hnb, hopp, ⟨-, heq⟩ | ⟨-, -, heq⟩⟩ | ⟨ha, hb⟩
  · simp only [heq, isNaN_nanPayload, hinv]
  · simp only [heq, hna, hnb, hopp, Bool.false_eq_true, or_self]
  · simp only [heq, hna, hnb, hopp, Bool.false_eq_true, or_self]
  · rw [(fadd_isRounding ha hb).isNaN_eq_false]
    obtain ⟨hna, hia⟩ := isFinite_eq_true.mp ha
    obtain ⟨hnb, hib⟩ := isFinite_eq_true.mp hb
    simp [hna, hnb, hia, hib]

/-- Two infinities of one sign are one word. -/
theorem eq_of_isInf {a b : Word} (ha : isInf a = true) (hb : isInf b = true) (hs : signBit a = signBit b) : a = b :=
  eq_of_sign_of_field hs ((isInf_iff.mp ha).trans (isInf_iff.mp hb).symm)

theorem fadd_of_isInf_left {a b : Word} (h : isNaN (fadd a b) = false) (ha : isInf a = true) : fadd a b = a := by
  rcases fadd_cases a b with ⟨hinv, -⟩ | ⟨-, -, -, ⟨-, heq⟩ | ⟨hia, -, -⟩⟩ | ⟨hfa, -⟩
  · exact absurd ((isNaN_fadd_iff a b).mpr hinv) (by simp [h])
  · exact heq
  · rw [ha] at hia; cases hia
  · rw [(isFinite_eq_true.mp hfa).2] at ha; cases ha

theorem fadd_of_isInf_right {a b : Word} (h : isNaN (fadd a b) = false) (hb : isInf b = true) : fadd a b = b := by
  rcases fadd_cases a b with ⟨hinv, -⟩ | ⟨-, -, hopp, ⟨hia, heq⟩ | ⟨-, -, heq⟩⟩ | ⟨-, hfb⟩
  · exact absurd ((isNaN_fadd_iff a b).mpr hinv) (by simp [h])
  · have hs : signBit a = signBit b := by
      by_contra hne
      exact hopp ⟨hia, hb, hne⟩
    rw [heq, eq_of_isInf hia hb hs]
  · exact heq
  · rw [(isFinite_eq_true.mp hfb).2] at hb; cases hb

theorem fmul_of_isInf {a b : Word} (h : isNaN (fmul a b) = false) (hinf : isInf a = true ∨ isInf b = true) :
    fmul a b = if signBit a = signBit b then 0x7F800000#32 else 0xFF800000#32 := by
  rcases fmul_cases a b with ⟨hinv, -⟩ | ⟨-, -, -, -, -, heq⟩ | ⟨hfa, hfb⟩
  · exact absurd ((isNaN_fmul_iff a b).mpr hinv) (by simp [h])
  · rw [heq, packSign_xor_infField]
  · simp [(isFinite_eq_true.mp hfa).2, (isFinite_eq_true.mp hfb).2] at hinf

/-- Settles O55: the operations' cases. -/
theorem naNsAndInfinitiesFollowTheirRules : Obligations.NaNsAndInfinitiesFollowTheirRules := fun a b =>
  ⟨isNaN_fmul_iff a b, isNaN_fadd_iff a b, fmul_of_isInf, fadd_of_isInf_left, fadd_of_isInf_right⟩

/-- A finite word of value zero is a zero. -/
theorem absField_of_units_eq_zero {w : Word} (h : units w = 0) : absField w = 0 := by
  have hnat := natAbs_units w
  rw [h, Int.natAbs_zero] at hnat
  exact fieldUnits_strictMono.injective hnat.symm

theorem eq_minusZero_iff {w : Word} : w = 0x80000000#32 ↔ signBit w = true ∧ absField w = 0 := by
  constructor
  · rintro rfl
    exact ⟨rfl, rfl⟩
  · rintro ⟨hs, hf⟩
    rw [← packSign_absField w, hs, hf]
    rfl

/-- A sum of finite operands whose exact value is zero is `-0.0` from two `-0.0` alone, and `+0.0` otherwise. -/
theorem fadd_of_zero {a b : Word} (ha : isFinite a = true) (hb : isFinite b = true) (hzero : units a + units b = 0) :
    fadd a b = packSign (signBit a && signBit b) 0 ∧
      ((signBit a && signBit b) = true ↔ a = 0x80000000#32 ∧ b = 0x80000000#32) := by
  refine ⟨by rw [fadd_of_finite ha hb, if_pos hzero], ?_⟩
  rw [eq_minusZero_iff, eq_minusZero_iff, Bool.and_eq_true]
  constructor
  · rintro ⟨hsa, hsb⟩
    have := units_nonpos_of_sign hsa
    have := units_nonpos_of_sign hsb
    exact ⟨⟨hsa, absField_of_units_eq_zero (by omega)⟩, hsb, absField_of_units_eq_zero (by omega)⟩
  · rintro ⟨⟨hsa, -⟩, hsb, -⟩
    exact ⟨hsa, hsb⟩

/-- A sum that is not zero does not round to zero: it is a whole number of the smallest units. -/
theorem absField_fadd_ne_zero {a b : Word} (ha : isFinite a = true) (hb : isFinite b = true)
    (hne : units a + units b ≠ 0) : absField (fadd a b) ≠ 0 := by
  intro hzero
  have hround := fadd_isRounding ha hb
  have hfin : isFinite (fadd a b) = true := isFinite_iff.mpr (by rw [hzero]; decide)
  have hnear := (roundField_nearest (units a + units b).natAbs 0 1).1
  rw [hround.roundField_eq hfin, hzero, fieldUnits_zero, fieldUnits_one] at hnear
  simp only [abs_eq_max_neg] at hnear
  omega

theorem fadd_eq_minusZero_iff (a b : Word) :
    fadd a b = 0x80000000#32 ↔ a = 0x80000000#32 ∧ b = 0x80000000#32 := by
  have hfin : isFinite 0x80000000#32 = true := by decide
  constructor
  · intro h
    rcases fadd_cases a b with ⟨-, heq⟩ | ⟨-, -, -, ⟨hia, heq⟩ | ⟨-, hib, heq⟩⟩ | ⟨ha, hb⟩
    · have hnan := isNaN_nanPayload .add a b
      rw [← heq, h] at hnan
      cases hnan
    · rw [← heq, h] at hia; cases hia
    · rw [← heq, h] at hib; cases hib
    · by_cases hzero : units a + units b = 0
      · obtain ⟨heq, hsigns⟩ := fadd_of_zero ha hb hzero
        refine hsigns.mp ?_
        rw [h] at heq
        cases hs : (signBit a && signBit b) with
        | true => rfl
        | false => rw [hs] at heq; exact absurd heq (by decide)
      · exact absurd (by rw [h]; rfl) (absField_fadd_ne_zero ha hb hzero)
  · rintro ⟨rfl, rfl⟩
    rfl

theorem units_of_isZero {w : Word} (h : isZero w = true) : units w = 0 := by
  rw [units_eq, isZero_iff.mp h, fieldUnits_zero]
  simp

/-- Settles O56: an exact zero sum takes its sign from both operands, and a zero product from the exclusive or. -/
theorem zeroResultsHaveTheirSigns : Obligations.ZeroResultsHaveTheirSigns := by
  intro a b
  refine ⟨fadd_eq_minusZero_iff a b, fun ha hb hzero hnot => ?_, fun ha hb hzero => ?_, fun hzero => ?_⟩
  · obtain ⟨heq, hsigns⟩ := fadd_of_zero ha hb hzero
    rw [heq, eq_false_of_ne_true (mt hsigns.mp hnot)]
    rfl
  · have hprod : units a * units b = 0 := by
      rcases hzero with h | h <;> rw [units_of_isZero h]
      · exact zero_mul _
      · exact mul_zero _
    rw [fmul_of_finite ha hb, hprod, Int.natAbs_zero, roundMagnitude_eq, roundField_zero]
    exact packSign_xor_zero _ _
  · rcases fmul_cases a b with ⟨-, heq⟩ | ⟨-, -, -, -, -, heq⟩ | ⟨ha, hb⟩
    · have hnan := isNaN_nanPayload .mul a b
      rw [← heq, isNaN_iff, isZero_iff.mp hzero] at hnan
      omega
    · rw [isZero_iff, heq, absField_packSign _ (by decide)] at hzero
      cases hzero
    · rw [isZero_iff, fmul_of_finite ha hb, absField_packSign _ (roundMagnitude_lt_two_pow _ _)] at hzero
      rw [fmul_of_finite ha hb, hzero]
      exact packSign_xor_zero _ _

theorem fmul_comm {a b : Word} (h : isNaN (fmul a b) = false) : fmul b a = fmul a b := by
  have h' : isNaN (fmul b a) = false := by
    rw [← Bool.not_eq_true, isNaN_fmul_iff] at h ⊢
    tauto
  rcases fmul_cases a b with ⟨hinv, -⟩ | ⟨-, -, -, -, hinf, -⟩ | ⟨ha, hb⟩
  · exact absurd ((isNaN_fmul_iff a b).mpr hinv) (by simp [h])
  · rw [fmul_of_isInf h hinf, fmul_of_isInf h' hinf.symm]
    simp only [eq_comm]
  · rw [fmul_of_finite ha hb, fmul_of_finite hb ha, Int.mul_comm, bne_comm]

theorem fadd_comm {a b : Word} (h : isNaN (fadd a b) = false) : fadd b a = fadd a b := by
  have h' : isNaN (fadd b a) = false := by
    rw [← Bool.not_eq_true, isNaN_fadd_iff] at h ⊢
    tauto
  rcases fadd_cases a b with ⟨hinv, -⟩ | ⟨-, -, -, ⟨hia, -⟩ | ⟨-, hib, -⟩⟩ | ⟨ha, hb⟩
  · exact absurd ((isNaN_fadd_iff a b).mpr hinv) (by simp [h])
  · rw [fadd_of_isInf_left h hia, fadd_of_isInf_right h' hia]
  · rw [fadd_of_isInf_right h hib, fadd_of_isInf_left h' hib]
  · rw [fadd_of_finite ha hb, fadd_of_finite hb ha, Int.add_comm, Bool.and_comm]

/-- Settles O57: infinite results are the operand's in either order, and finite operands have one exact result; the
conditions for a NaN are symmetric. -/
theorem swappingOperandsChangesOnlyPayloads : Obligations.SwappingOperandsChangesOnlyPayloads := by
  intro a b
  refine ⟨fmul_comm, fadd_comm, ?_, ?_⟩
  · rw [isNaN_fmul_iff, isNaN_fmul_iff]
    tauto
  · rw [isNaN_fadd_iff, isNaN_fadd_iff]
    tauto

/-! ### Exact results -/

/-- A finite magnitude lies below the point of overflow. -/
theorem abs_units_lt {w : Word} (h : isFinite w = true) : |units w| < 33554431 * 2 ^ (252 + 0) := by
  have hle := fieldUnits_strictMono.monotone (Nat.le_sub_one_of_lt (isFinite_iff.mp h))
  rw [fieldUnits_maxField] at hle
  rw [← Int.natCast_natAbs, natAbs_units]
  refine lt_of_le_of_lt (Nat.cast_le.mpr hle) ?_
  norm_num

/-- A sum that is a binary32 number is that number. -/
theorem fadd_exact {a b r : Word} (ha : isFinite a = true) (hb : isFinite b = true) (hr : isFinite r = true)
    (h : units r = units a + units b) : isFinite (fadd a b) = true ∧ units (fadd a b) = units a + units b := by
  have hround := fadd_isRounding ha hb
  have hfin : isFinite (fadd a b) = true := hround.isFinite_iff.mpr (h ▸ abs_units_lt hr)
  have hnear := (hround.nearest hfin r).1
  rw [pow_zero, mul_one, mul_one, h, sub_self, abs_zero, abs_nonpos_iff] at hnear
  exact ⟨hfin, by omega⟩

theorem absField_eq_of_units_eq {a b : Word} (h : units a = units b) : absField a = absField b := by
  have hnat := congrArg Int.natAbs h
  rw [natAbs_units, natAbs_units] at hnat
  exact fieldUnits_strictMono.injective hnat

/-- Words of the same value are equal, but for the two zeros. -/
theorem eq_of_units_eq {a b : Word} (h : units a = units b) (ha : a ≠ 0x80000000#32) (hb : b ≠ 0x80000000#32) :
    a = b := by
  have hfield := absField_eq_of_units_eq h
  refine eq_of_sign_of_field ?_ hfield
  by_cases hzero : absField a = 0
  · have hneg : ∀ w, w ≠ 0x80000000#32 → absField w = 0 → signBit w = false := fun w hw hf =>
      eq_false_of_ne_true fun hs => hw (eq_minusZero_iff.mpr ⟨hs, hf⟩)
    rw [hneg a ha hzero, hneg b hb (hfield ▸ hzero)]
  · have hpos : 0 < fieldUnits (absField a) := fieldUnits_strictMono (Nat.pos_of_ne_zero hzero)
    rw [units_eq, units_eq, ← hfield] at h
    cases hsa : signBit a <;> cases hsb : signBit b <;> simp [hsa, hsb] at h ⊢ <;> omega

theorem isFinite_one : isFinite 0x3F800000#32 = true := by decide

/-- `1.0` is `2^149` of the smallest units. -/
theorem units_one : units 0x3F800000#32 = 2 ^ 149 := by
  have hfield : fieldUnits (absField 0x3F800000#32) = 2 ^ 23 * 2 ^ 126 :=
    fieldUnits_of_significand (q := 126) (m := 2 ^ 23) (by norm_num) (.inr le_rfl)
  rw [units_eq, hfield, if_neg (by decide)]
  norm_num

/-- A finite number times `1.0` is itself: the exact product is a binary32 number. -/
theorem fmul_one_of_finite {x : Word} (h : isFinite x = true) : fmul x 0x3F800000#32 = x := by
  have hround := fmul_isRounding h isFinite_one
  rw [units_one] at hround
  have hfin : isFinite (fmul x 0x3F800000#32) = true := by
    refine hround.isFinite_iff.mpr ?_
    have hlt := mul_lt_mul_of_pos_right (abs_units_lt h) (by positivity : (0 : Int) < 2 ^ 149)
    rw [abs_mul, abs_of_pos (by positivity : (0 : Int) < 2 ^ 149)]
    exact hlt.trans_eq (by rw [Nat.add_zero, mul_assoc, ← pow_add])
  have hnear := (hround.nearest hfin x).1
  rw [sub_self, abs_zero, abs_nonpos_iff, ← sub_mul, mul_eq_zero, or_iff_left (by positivity)] at hnear
  refine eq_of_sign_of_field ?_ (absField_eq_of_units_eq (by omega))
  rw [fmul_of_finite h isFinite_one, signBit_packSign _ (roundMagnitude_lt_two_pow _ _)]
  exact Bool.bne_false _

/-- `1.0` is a factor that changes nothing but a NaN. -/
theorem fmul_one {x : Word} (h : isNaN x = false) : fmul x 0x3F800000#32 = x := by
  have hnan : isNaN 0x3F800000#32 = false := by decide
  have hzero : isZero 0x3F800000#32 = false := by decide
  have hinf : isInf 0x3F800000#32 = false := by decide
  rcases fmul_cases x 0x3F800000#32 with ⟨hinv, -⟩ | ⟨-, -, -, -, hx, heq⟩ | ⟨hfin, -⟩
  · simp [h, hnan, hzero, hinf] at hinv
  · rw [hinf] at hx
    rw [heq, ← isInf_iff.mp (hx.resolve_right Bool.false_ne_true)]
    exact (congrArg (packSign · (absField x)) (Bool.bne_false _)).trans (packSign_absField x)
  · exact fmul_one_of_finite hfin

theorem isFinite_of_isZero {w : Word} (h : isZero w = true) : isFinite w = true := by
  rw [isFinite_iff, isZero_iff.mp h]
  decide

/-- A finite number times zero is a zero. -/
theorem isZero_fmul_zero {x : Word} (h : isFinite x = true) : isZero (fmul x 0x00000000#32) = true := by
  have hzero := (zeroResultsHaveTheirSigns x 0x00000000#32).2.2.1 h (by decide) (.inr (by decide))
  rw [hzero]
  split <;> decide

/-- A zero added on the right changes nothing but `-0.0`. -/
theorem fadd_zero_right {x z : Word} (hx : isFinite x = true) (hne : x ≠ 0x80000000#32) (hz : isZero z = true) :
    fadd x z = x := by
  have hunits := units_of_isZero hz
  refine eq_of_units_eq ?_ (fun h => hne ((fadd_eq_minusZero_iff x z).mp h).1) hne
  rw [(fadd_exact hx (isFinite_of_isZero hz) hx (by omega)).2]
  omega

/-- A zero added on the left changes nothing but `-0.0`. -/
theorem fadd_zero_left {x z : Word} (hx : isFinite x = true) (hne : x ≠ 0x80000000#32) (hz : isZero z = true) :
    fadd z x = x := by
  have hunits := units_of_isZero hz
  refine eq_of_units_eq ?_ (fun h => hne ((fadd_eq_minusZero_iff z x).mp h).2) hne
  rw [(fadd_exact (isFinite_of_isZero hz) hx hx (by omega)).2]
  omega

/-- Zeros add up to a zero. -/
theorem isZero_fadd {y z : Word} (hy : isZero y = true) (hz : isZero z = true) : isZero (fadd y z) = true := by
  have hexact := fadd_exact (r := y) (isFinite_of_isZero hy) (isFinite_of_isZero hz) (isFinite_of_isZero hy)
    (by rw [units_of_isZero hz, add_zero])
  refine isZero_iff.mpr (absField_of_units_eq_zero ?_)
  rw [hexact.2, units_of_isZero hy, units_of_isZero hz, add_zero]

end Sys2Proof.Machine
end

section
/-!
PROOFS. The pairs behind each output word and the words that the kernels compute from them: the range guard of the
convolution, its counts, and the formulas of the grouped and of the tensor reduction.
-/
namespace Sys2Proof.Machine

/-! ### Convolution pairs -/

/-- The range guard admits exactly the `k` from `kmin(n)` to `kmax(n)` (R89). -/
theorem guard_iff {l1 l2 n k : Nat} (hk : k < l1) (h2 : 1 ≤ l2) :
    (k ≤ n ∧ n - k < l2) ↔ kmin l2 n ≤ k ∧ k ≤ kmax l1 n := by
  unfold kmin kmax
  omega

/-- The admitted indices, ascending. -/
theorem filter_guard_eq {l1 l2 n : Nat} (h1 : 1 ≤ l1) (h2 : 1 ≤ l2) (hn : n < l1 + l2 - 1) :
    (List.range l1).filter (fun k => decide (k ≤ n ∧ n - k < l2)) =
      (List.range (kmax l1 n + 1 - kmin l2 n)).map (fun t => kmin l2 n + t) := by
  have hlow : kmin l2 n ≤ kmax l1 n := by unfold kmin kmax; omega
  have hhigh : kmax l1 n < l1 := by unfold kmax; omega
  obtain ⟨len, hlen⟩ : ∃ len, kmax l1 n + 1 = kmin l2 n + len := ⟨kmax l1 n + 1 - kmin l2 n, by omega⟩
  obtain ⟨rest, hrest⟩ : ∃ rest, l1 = kmin l2 n + (len + rest) := ⟨l1 - (kmax l1 n + 1), by omega⟩
  have hguard : (List.range l1).filter (fun k => decide (k ≤ n ∧ n - k < l2)) =
      (List.range l1).filter (fun k => decide (kmin l2 n ≤ k ∧ k < kmin l2 n + len)) :=
    List.filter_congr fun k hk => by
      rw [decide_eq_decide, guard_iff (List.mem_range.mp hk) h2]
      omega
  rw [hguard, hrest, List.range_add, List.range_add, List.map_append, List.filter_append, List.filter_append,
    List.filter_eq_nil_iff.mpr, List.filter_eq_self.mpr, List.filter_eq_nil_iff.mpr, ← hrest]
  · rw [show kmax l1 n + 1 - kmin l2 n = len by omega, List.nil_append, List.append_nil]
  · simp
  · simp
  · simp
    omega

/-- `PAIRS(n)` from the range guard itself. -/
theorem convPairs_eq_guard {l1 l2 n : Nat} (x h : Nat) (h1 : 1 ≤ l1) (h2 : 1 ≤ l2) (hn : n < l1 + l2 - 1) :
    convPairs x h l1 l2 n = ((List.range l1).filter (fun k => decide (k ≤ n ∧ n - k < l2))).map
      (fun k => (x + 4 * k, h + 4 * (n - k))) := by
  rw [filter_guard_eq h1 h2 hn, List.map_map]
  rfl

theorem mem_convPairs {x h l1 l2 n : Nat} {q : Nat × Nat} (h1 : 1 ≤ l1) (h2 : 1 ≤ l2) (hn : n < l1 + l2 - 1) :
    q ∈ convPairs x h l1 l2 n ↔ ∃ k, k < l1 ∧ k ≤ n ∧ n - k < l2 ∧ q = (x + 4 * k, h + 4 * (n - k)) := by
  rw [convPairs_eq_guard x h h1 h2 hn]
  simp only [List.mem_map, List.mem_filter, List.mem_range, decide_eq_true_eq]
  constructor
  · rintro ⟨k, ⟨hk, hle, hlt⟩, rfl⟩
    exact ⟨k, hk, hle, hlt, rfl⟩
  · rintro ⟨k, hk, hle, hlt, rfl⟩
    exact ⟨k, ⟨hk, hle, hlt⟩, rfl⟩

theorem convPairs_length (x h l1 l2 n : Nat) : (convPairs x h l1 l2 n).length = min n (l1 - 1) + 1 - (n + 1 - l2) := by
  simp [convPairs, kmin, kmax]

/-- Settles O50: the pairs are the filtered range, in its order. -/
theorem convolutionPairsMeetTheRangeGuard : Obligations.ConvolutionPairsMeetTheRangeGuard := by
  intro p i x h y l1 l2 cap n h1 h2 hn hi
  have hpairs : (planOf i p).pairs n = convPairs x h l1 l2 n := by
    simp only [List.mem_cons, List.not_mem_nil, or_false] at hi
    rcases hi with rfl | rfl <;> rfl
  rw [hpairs]
  refine ⟨fun q => mem_convPairs h1 h2 hn, fun q hq => ?_, List.ne_nil_of_length_pos ?_, ?_⟩
  · obtain ⟨k, -, -, hlt, rfl⟩ := (mem_convPairs h1 h2 hn).mp hq
    show h + 4 * (n - k) ≠ h + 4 * l2
    omega
  · rw [convPairs_length]
    omega
  · rw [convPairs_eq_guard x h h1 h2 hn, List.pairwise_map]
    refine (List.pairwise_lt_range.filter _).imp fun hlt => ?_
    show x + 4 * _ < x + 4 * _
    omega

/-- Of the output words, exactly `l2` use a given Signal element. -/
theorem card_outputs_of_element {l1 l2 k : Nat} (hk : k < l1) :
    ((Finset.range (l1 + l2 - 1)).filter (fun n => k ≤ n ∧ n - k < l2)).card = l2 := by
  have hIco : (Finset.range (l1 + l2 - 1)).filter (fun n => k ≤ n ∧ n - k < l2) = Finset.Ico k (k + l2) := by
    ext n
    simp only [Finset.mem_filter, Finset.mem_range, Finset.mem_Ico]
    omega
  rw [hIco, Nat.card_Ico]
  omega

/-- The number of pairs of an output word is the number of Signal elements that the guard admits. -/
theorem convPairs_length_eq_card {l1 l2 n : Nat} (x h : Nat) (h1 : 1 ≤ l1) (h2 : 1 ≤ l2) (hn : n < l1 + l2 - 1) :
    (convPairs x h l1 l2 n).length = ((Finset.range l1).filter (fun k => k ≤ n ∧ n - k < l2)).card := by
  rw [convPairs_eq_guard x h h1 h2 hn, List.length_map]
  rfl

/-- Settles O51: the bounds are the formula's, and the total counts the uses of each Signal element. -/
theorem convolutionCountsAddUp : Obligations.ConvolutionCountsAddUp := by
  intro x h l1 l2 h1 h2
  refine ⟨fun n hn => ?_, ?_⟩
  · simp only [convPairs_length]
    omega
  · calc ((List.range (l1 + l2 - 1)).map (fun n => (convPairs x h l1 l2 n).length)).sum
        = ∑ n ∈ Finset.range (l1 + l2 - 1), (convPairs x h l1 l2 n).length := rfl
      _ = ∑ n ∈ Finset.range (l1 + l2 - 1), ∑ k ∈ Finset.range l1, if k ≤ n ∧ n - k < l2 then 1 else 0 :=
        Finset.sum_congr rfl fun n hn => by
          rw [convPairs_length_eq_card x h h1 h2 (Finset.mem_range.mp hn), Finset.card_filter]
      _ = ∑ k ∈ Finset.range l1, ∑ n ∈ Finset.range (l1 + l2 - 1), if k ≤ n ∧ n - k < l2 then 1 else 0 :=
        Finset.sum_comm
      _ = ∑ k ∈ Finset.range l1, l2 := Finset.sum_congr rfl fun k hk => by
        rw [← Finset.card_filter, card_outputs_of_element (Finset.mem_range.mp hk)]
      _ = l1 * l2 := by rw [Finset.sum_const, Finset.card_range, smul_eq_mul]

/-! ### The plans' pairs, read from memory -/

theorem readPairs_dotPairs (m : Memory) (a b n : Nat) : readPairs m (dotPairs a b n) = sequencePairs m a b n := by
  rw [readPairs, dotPairs, List.map_map]
  rfl

theorem readPairs_tensorPairs (m : Memory) (a b n : Nat) : readPairs m (tensorPairs a b n) = rowColumnPairs m a b n := by
  rw [readPairs, tensorPairs, List.map_map]
  rfl

theorem readPairs_convPairs (m : Memory) {l1 l2 n : Nat} (x h : Nat) (h1 : 1 ≤ l1) (h2 : 1 ≤ l2)
    (hn : n < l1 + l2 - 1) : readPairs m (convPairs x h l1 l2 n) = guardedPairs m x h l1 l2 n := by
  rw [readPairs, convPairs_eq_guard x h h1 h2 hn, List.map_map]
  rfl

/-! ### The grouped kernel -/

/-- The operands that the lanes of group `g` hold, `+0.0` where there is no pair (R69, R70). -/
def laneOperands (side : Word × Word → Word) (w : Nat) (pairs : List (Word × Word)) (g n : Nat) : List Word :=
  (List.range n).map (fun i => side (pairs.getD (g * w + i) (plusZero, plusZero)))

theorem lprod_laneOperands (w : Nat) (pairs : List (Word × Word)) (g : Nat) :
    lprod (laneOperands Prod.fst w pairs g w) (laneOperands Prod.snd w pairs g w) = groupProducts w pairs g := by
  simp only [lprod, laneOperands, groupProducts, List.zipWith_map, List.zipWith_self]

theorem laneOperands_succ (side : Word × Word → Word) {w : Nat} {pairs : List (Word × Word)} {g n : Nat}
    (h : g * w + n < pairs.length) :
    laneOperands side w pairs g (n + 1) = laneOperands side w pairs g n ++ [side pairs[g * w + n]] := by
  simp [laneOperands, List.range_succ, List.getElem?_eq_getElem h]

/-- A group cut short by the end of the pairs is padded with `+0.0` (R69). -/
theorem laneOperands_pad {side : Word × Word → Word} (hside : side (plusZero, plusZero) = plusZero) {w n : Nat}
    {pairs : List (Word × Word)} {g : Nat} (hn : n ≤ w) (h : pairs.length ≤ g * w + n) :
    laneOperands side w pairs g w = laneOperands side w pairs g n ++ List.replicate (w - n) plusZero := by
  obtain ⟨d, rfl⟩ := Nat.exists_eq_add_of_le hn
  have hpad : ∀ i, pairs[g * (n + d) + (n + i)]? = none := fun i => List.getElem?_eq_none (by omega)
  simp [laneOperands, List.range_add, hpad, hside, List.map_const', Function.comp_def]

/-- The sum of the first `q` groups. -/
def groupsSum (w : Nat) (o : HredOrder) (pairs : List (Word × Word)) (q : Nat) : Word :=
  (List.range q).foldl (fun acc g => fadd acc (hred o (groupProducts w pairs g))) plusZero

theorem groupsSum_succ (w : Nat) (o : HredOrder) (pairs : List (Word × Word)) (q : Nat) :
    groupsSum w o pairs (q + 1) = fadd (groupsSum w o pairs q) (hred o (groupProducts w pairs q)) := by
  simp [groupsSum, List.range_succ]

/-- The lane state after the first `q * w + r` pairs: `q` groups have been added, and `r` pairs are in the lanes. -/
structure GroupState (w : Nat) (o : HredOrder) (pairs : List (Word × Word)) (q r : Nat) (l : Lanes) : Prop where
  acc : l.acc = groupsSum w o pairs q
  gcnt : l.gcnt = r
  lengthA : l.lgA.length = w
  lengthB : l.lgB.length = w
  lanesA : l.lgA.take r = laneOperands Prod.fst w pairs q r
  lanesB : l.lgB.take r = laneOperands Prod.snd w pairs q r

theorem take_set_succ {α : Type} {l : List α} {n : Nat} (v : α) (h : n < l.length) :
    (l.set n v).take (n + 1) = l.take n ++ [v] := by
  rw [List.take_add_one, List.take_set_of_le le_rfl, List.getElem?_set_self h]
  rfl

/-- A committed pair fills its lane; the group's last pair reduces it (R70). -/
theorem GroupState.commit {w : Nat} {o : HredOrder} {pairs : List (Word × Word)} {q r : Nat} {l : Lanes}
    (h : GroupState w o pairs q r l) (hr : r < w) (hlt : q * w + r < pairs.length) :
    (r + 1 = w → GroupState w o pairs (q + 1) 0 (commitPair w o l pairs[q * w + r].1 pairs[q * w + r].2)) ∧
      (r + 1 ≠ w → GroupState w o pairs q (r + 1) (commitPair w o l pairs[q * w + r].1 pairs[q * w + r].2)) := by
  obtain ⟨hacc, hgcnt, hlenA, hlenB, hA, hB⟩ := h
  have hA' : (l.lgA.set r pairs[q * w + r].1).take (r + 1) = laneOperands Prod.fst w pairs q (r + 1) := by
    rw [take_set_succ _ (by omega), hA, laneOperands_succ Prod.fst hlt]
  have hB' : (l.lgB.set r pairs[q * w + r].2).take (r + 1) = laneOperands Prod.snd w pairs q (r + 1) := by
    rw [take_set_succ _ (by omega), hB, laneOperands_succ Prod.snd hlt]
  constructor
  · intro hfull
    rw [hfull, List.take_of_length_le (by simp [hlenA])] at hA'
    rw [hfull, List.take_of_length_le (by simp [hlenB])] at hB'
    simp only [commitPair, hgcnt, hfull, if_true, reduceGroup]
    refine ⟨?_, rfl, by simp [hlenA], by simp [hlenB], rfl, rfl⟩
    rw [hA', hB', lprod_laneOperands, hacc, groupsSum_succ]
  · intro hpart
    simp only [commitPair, hgcnt, hpart, if_false]
    exact ⟨hacc, rfl, by simp [hlenA], by simp [hlenB], hA', hB'⟩

/-- The number of groups that hold a pair. -/
theorem ceil_div {w q r : Nat} (hr : r < w) : (q * w + r + w - 1) / w = if 0 < r then q + 1 else q := by
  split_ifs with h
  · rw [show q * w + r + w - 1 = r - 1 + (q + 1) * w by rw [Nat.add_mul]; omega,
      Nat.add_mul_div_right _ _ (by omega), Nat.div_eq_of_lt (by omega), Nat.zero_add]
  · rw [show q * w + r + w - 1 = w - 1 + q * w by omega, Nat.add_mul_div_right _ _ (by omega),
      Nat.div_eq_of_lt (by omega), Nat.zero_add]

/-- After the last pair the flush adds the group that is left, padded, and `ACC` is `GROUPED_DOT_W` (R69, R70). -/
theorem GroupState.flush {w : Nat} {o : HredOrder} {pairs : List (Word × Word)} {q r : Nat} {l : Lanes}
    (h : GroupState w o pairs q r l) (hr : r < w) (hend : pairs.length = q * w + r) :
    (flushGroup w o l).acc = groupedSum w o pairs ∧ (flushGroup w o l).gcnt = 0 := by
  obtain ⟨hacc, hgcnt, -, -, hA, hB⟩ := h
  have hsum : groupedSum w o pairs = groupsSum w o pairs (if 0 < r then q + 1 else q) := by
    rw [← ceil_div hr, ← hend]
    rfl
  rw [hsum, flushGroup, hgcnt]
  split_ifs with hpart
  · have hpadA : padGroup w r l.lgA = laneOperands Prod.fst w pairs q w := by
      rw [padGroup, hA, laneOperands_pad rfl hr.le hend.le]
    have hpadB : padGroup w r l.lgB = laneOperands Prod.snd w pairs q w := by
      rw [padGroup, hB, laneOperands_pad rfl hr.le hend.le]
    simp only [reduceGroup, hpadA, hpadB, lprod_laneOperands, hacc, groupsSum_succ, and_self]
  · exact ⟨hacc, by omega⟩

/-- The lane state after the first `j` pairs. -/
theorem groupState_of_take {w : Nat} (o : HredOrder) (hw : 0 < w) (pairs : List (Word × Word)) {l : Lanes}
    (hA : l.lgA.length = w) (hB : l.lgB.length = w) {j : Nat} (hj : j ≤ pairs.length) :
    GroupState w o pairs (j / w) (j % w)
      ((pairs.take j).foldl (fun l p => commitPair w o l p.1 p.2) { l with acc := plusZero, gcnt := 0 }) := by
  induction j with
  | zero =>
    rw [Nat.zero_div, Nat.zero_mod]
    exact ⟨rfl, rfl, hA, hB, rfl, rfl⟩
  | succ j ih =>
    have hsplit : j / w * w + j % w = j := Nat.div_add_mod' j w
    have hnext := (ih (by omega)).commit (Nat.mod_lt j hw) (by omega)
    simp only [hsplit] at hnext
    rw [List.take_add_one, List.getElem?_eq_getElem (by omega), Option.toList_some, List.foldl_append]
    by_cases hfull : j % w + 1 = w
    · rw [show j + 1 = (j / w + 1) * w by rw [Nat.add_mul]; omega, Nat.mul_div_cancel _ hw, Nat.mul_mod_left]
      exact hnext.1 hfull
    · have hmod := Nat.mod_lt j hw
      rw [show j + 1 = j % w + 1 + j / w * w by omega, Nat.add_mul_div_right _ _ hw,
        Nat.add_mul_mod_self_right, Nat.div_eq_of_lt (by omega), Nat.mod_eq_of_lt (by omega), Nat.zero_add]
      exact hnext.2 hfull

/-- The grouped kernel computes `GROUPED_DOT_W`, leaves it in `ACC` and leaves no group open (R70). -/
theorem groupedKernel_run {w : Nat} (o : HredOrder) (hw : 0 < w) (pairs : List (Word × Word)) {l : Lanes}
    (hA : l.lgA.length = w) (hB : l.lgB.length = w) :
    ((groupedKernel w o).run pairs l).2 = groupedSum w o pairs ∧
      ((groupedKernel w o).run pairs l).1.acc = groupedSum w o pairs ∧ ((groupedKernel w o).run pairs l).1.gcnt = 0 := by
  have hstate := groupState_of_take o hw pairs hA hB le_rfl
  rw [List.take_length] at hstate
  obtain ⟨hacc, hgcnt⟩ := hstate.flush (Nat.mod_lt _ hw) (Nat.div_add_mod' _ _).symm
  have hrun : (groupedKernel w o).run pairs l =
      (flushGroup w o (pairs.foldl (fun l p => commitPair w o l p.1 p.2) { l with acc := plusZero, gcnt := 0 }),
        (flushGroup w o (pairs.foldl (fun l p => commitPair w o l p.1 p.2) { l with acc := plusZero, gcnt := 0 })).acc) := by
    rw [← foldl_zipIdx_fst (fun (l : Lanes) (p : Word × Word) => commitPair w o l p.1 p.2) pairs _ 0]
    rfl
  rw [hrun]
  exact ⟨hacc, hacc, hgcnt⟩

/-! ### The tensor kernel -/

/-- Four pairs fill lanes 0 to 3, whose products one `HRED_4` reduces; the other lanes, `ACC` and `GCNT` are not touched
(R80, R83). -/
theorem tensorKernel_run (o : HredOrder) {pairs : List (Word × Word)} (hp : pairs.length = 4) {l : Lanes}
    (hA : 4 ≤ l.lgA.length) (hB : 4 ≤ l.lgB.length) :
    (tensorKernel o).run pairs l =
      ({ l with
        lgA := pairs.map Prod.fst ++ l.lgA.drop 4, lgB := pairs.map Prod.snd ++ l.lgB.drop 4 },
        hred o (pairs.map (fun p => fmul p.1 p.2))) := by
  obtain ⟨p0, p1, p2, p3, rfl⟩ : ∃ p0 p1 p2 p3, pairs = [p0, p1, p2, p3] := by
    match pairs, hp with
    | [p0, p1, p2, p3], _ => exact ⟨p0, p1, p2, p3, rfl⟩
  obtain ⟨lgA, lgB, gcnt, acc⟩ := l
  match lgA, hA, lgB, hB with
  | a0 :: a1 :: a2 :: a3 :: as, _, b0 :: b1 :: b2 :: b3 :: bs, _ => rfl

end Sys2Proof.Machine
end

section
/-!
PROOFS. The statements about the results of the six commands: the output words are computed from the source words as they
were at acceptance, for no output word lies in a source region, and stored in ascending order.
-/
namespace Sys2Proof.Machine

/-! ### Source words -/

/-- The word at `a` has no byte in the region. -/
def WordApart (a : Nat) (r : Region) : Prop := a + 4 ≤ r.base ∨ r.base + 4 * r.count ≤ a

/-- The address is that of a word of one of the regions. -/
def IsWordOf (rs : List Region) (a : Nat) : Prop := ∃ r ∈ rs, ∃ k, k < r.count ∧ a = r.base + 4 * k

theorem wordApart_of_not_overlap {rs : List Region} {out : Region} (h : ∀ r ∈ rs, regionsOverlap r out = false) {a : Nat}
    (ha : IsWordOf rs a) : WordApart a out := by
  obtain ⟨r, hr, k, hk, rfl⟩ := ha
  have hno := h r hr
  rw [← Bool.not_eq_true, regionsOverlap_iff] at hno
  unfold WordApart
  omega

theorem mem_dotPairs {a b n : Nat} {q : Nat × Nat} :
    q ∈ dotPairs a b n ↔ ∃ k, k < n ∧ q = (a + 4 * k, b + 4 * k) := by
  simp only [dotPairs, List.mem_map, List.mem_range, elementAddr, eq_comm]

theorem mem_tensorPairs {a b n : Nat} {q : Nat × Nat} :
    q ∈ tensorPairs a b n ↔ ∃ k, k < 4 ∧ q = (a + 4 * (4 * (n / 4) + k), b + 4 * (4 * k + n % 4)) := by
  simp only [tensorPairs, List.mem_map, List.mem_range, tensorAddr, eq_comm]

theorem tensorPairs_length (a b n : Nat) : (tensorPairs a b n).length = 4 := by simp [tensorPairs]

theorem lengths_of_checkDotLengths {la lb lc : Nat} (h : checkDotLengths la lb lc = none) : 1 ≤ la ∧ la = lb := by
  unfold checkDotLengths at h
  split_ifs at h
  omega

theorem lengths_of_checkConvLengths {la lb lc : Nat} (h : checkConvLengths la lb lc = none) : 1 ≤ la ∧ 1 ≤ lb := by
  unfold checkConvLengths at h
  split_ifs at h
  omega

/-- The pairs of a command that passed its checks are words of its source regions (R45). -/
theorem planOf_pairs_in_srcs {i : Instr} {p : Params} (h : (planOf i p).error = none) {n : Nat}
    (hn : n < (planOf i p).out.count) : ∀ q ∈ (planOf i p).pairs n,
      IsWordOf (planOf i p).srcs q.1 ∧ IsWordOf (planOf i p).srcs q.2 := by
  have hpair : ∀ {r1 r2 : Region} {j k : Nat}, j < r1.count → k < r2.count →
      IsWordOf [r1, r2] (r1.base + 4 * j) ∧ IsWordOf [r1, r2] (r2.base + 4 * k) := fun hj hk =>
    ⟨⟨_, by simp, _, hj, rfl⟩, ⟨_, by simp, _, hk, rfl⟩⟩
  intro q hq
  cases i with
  | dotS a b d la lb lc | dotV a b d la lb lc =>
    obtain ⟨-, rfl⟩ := lengths_of_checkDotLengths (Option.or_eq_none_iff.mp h).1
    obtain ⟨k, hk, rfl⟩ := mem_dotPairs.mp hq
    exact hpair (r1 := ⟨a, la⟩) (r2 := ⟨b, la⟩) hk hk
  | tmulS a b d | tmulV a b d =>
    obtain ⟨k, hk, rfl⟩ := mem_tensorPairs.mp hq
    have hn' : n < 16 := hn
    exact hpair (r1 := ⟨a, 16⟩) (r2 := ⟨b, 16⟩) (by show _ < 16; omega) (by show _ < 16; omega)
  | convS x h' y l1 l2 lc | convV x h' y l1 l2 lc =>
    obtain ⟨h1, h2⟩ := lengths_of_checkConvLengths (Option.or_eq_none_iff.mp h).1
    obtain ⟨k, hk, -, hlt, rfl⟩ := (mem_convPairs h1 h2 hn).mp hq
    exact hpair (r1 := ⟨x, l1⟩) (r2 := ⟨h', l2⟩) hk hlt

/-- No source region of a command that passed its checks meets its output region (R99). -/
theorem planOf_srcs_apart {i : Instr} {p : Params} (h : (planOf i p).error = none) :
    ∀ r ∈ (planOf i p).srcs, regionsOverlap r (planOf i p).out = false := by
  cases i with
  | dotS | dotV | convS | convV => exact (checkRegions_eq_none.mp (Option.or_eq_none_iff.mp h).2).2.2
  | tmulS | tmulV => exact (checkRegions_eq_none.mp h).2.2

/-! ### Output words -/

/-- Stored output words are not seen by the reads of source words. -/
theorem readPairs_writeWords {m : Memory} {out : Region} {ws : List Word} (hws : ws.length ≤ out.count)
    {addrs : List (Nat × Nat)} (h : ∀ q ∈ addrs, WordApart q.1 out ∧ WordApart q.2 out) :
    readPairs (m.writeWords out.base ws) addrs = readPairs m addrs := by
  have hword : ∀ {a}, WordApart a out → (m.writeWords out.base ws).readWord a = m.readWord a := fun ha =>
    Memory.readWord_writeWords_ne _ _ (by unfold WordApart at ha; omega)
  refine List.map_congr_left fun q hq => ?_
  rw [hword (h q hq).1, hword (h q hq).2]

/-- When the kernel, on lane states of a shape `P` that it keeps, computes a value that depends on the pairs alone, those
values of the source words are what the command stores; output word `n` leaves a lane state of the shape `Q n`. -/
theorem writeOutputs_eq {c : Plan} {s : State} {P : Lanes → Prop} {Q : Nat → Lanes → Prop} {value : Nat → Word}
    (hs : P s.lanes)
    (hrun : ∀ n, n < c.out.count → ∀ l, P l →
      (c.kernel.run (readPairs s.mem (c.pairs n)) l).2 = value n ∧
      P (c.kernel.run (readPairs s.mem (c.pairs n)) l).1 ∧ Q n (c.kernel.run (readPairs s.mem (c.pairs n)) l).1)
    (hsrc : ∀ n, n < c.out.count → ∀ q ∈ c.pairs n, WordApart q.1 c.out ∧ WordApart q.2 c.out) :
    ∃ l, writeOutputs c s =
        { s with mem := s.mem.writeWords c.out.base ((List.range c.out.count).map value), lanes := l } ∧
      P l ∧ ∀ n, c.out.count = n + 1 → Q n l := by
  have hfold : ∀ n, n ≤ c.out.count → ∃ l, (List.range n).foldl (outputStep c) s =
      { s with mem := s.mem.writeWords c.out.base ((List.range n).map value), lanes := l } ∧
        P l ∧ ∀ m, n = m + 1 → Q m l := by
    intro n
    induction n with
    | zero => exact fun _ => ⟨s.lanes, rfl, hs, fun m h => (by cases h)⟩
    | succ n ih =>
      intro hn
      obtain ⟨l, hl, hP, -⟩ := ih (by omega)
      obtain ⟨hvalue, hP', hQ⟩ := hrun n hn l hP
      refine ⟨_, ?_, hP', fun m hm => Nat.succ.inj hm ▸ hQ⟩
      rw [List.range_succ, List.foldl_append, hl, List.map_append, Memory.writeWords_append, List.length_map,
        List.length_range, List.foldl_cons, List.foldl_nil, outputStep,
        readPairs_writeWords (by simp; omega) (hsrc n hn), hvalue]
      rfl
  exact hfold _ le_rfl

/-- The command passes its checks, is not refused and meets no `ERROR`. -/
def Executes (i : Instr) (p : Params) : Prop :=
  (planOf i p).error = none ∧ (planOf i p).refusal p = none ∧ (planOf i p).busError p = false

/-- The pairs of output word `n`, read from the state's memory. -/
abbrev sourcePairs (i : Instr) (s : State) (n : Nat) : List (Word × Word) :=
  readPairs s.mem ((planOf i s.params).pairs n)

/-- The state after a command has stored these words and completed, with this lane state. -/
abbrev completedWith (i : Instr) (s : State) (value : Nat → Word) (l : Lanes) : State :=
  { s with
    mem := s.mem.writeWords (planOf i s.params).out.base ((List.range (planOf i s.params).out.count).map value),
    lanes := l, status := 0x00000002#32, phase := .idle, position := none }

theorem completeOk_of_not_raced {out : Region} {s : State} (h : s.raced = false) :
    completeOk out s = { s with status := 0x00000002#32, phase := .idle, position := none } := by
  rw [completeOk, settleRace_of_not_raced h]
  simp [endCommand, okStatus, h]

/-- A command that executes stores its output words and completes. -/
theorem exec_completes {i : Instr} {s : State} {P : Lanes → Prop} {Q : Nat → Lanes → Prop} {value : Nat → Word}
    (h : Executes i s.params) (hraced : s.raced = false) (hs : P s.lanes)
    (hrun : ∀ n, n < (planOf i s.params).out.count → ∀ l, P l →
      ((planOf i s.params).kernel.run (sourcePairs i s n) l).2 = value n ∧
      P ((planOf i s.params).kernel.run (sourcePairs i s n) l).1 ∧
      Q n ((planOf i s.params).kernel.run (sourcePairs i s n) l).1) :
    ∃ l, exec i s = .next (completedWith i s value l) ∧ P l ∧ ∀ n, (planOf i s.params).out.count = n + 1 → Q n l := by
  obtain ⟨herror, hrefusal, hbus⟩ := h
  have hapart := planOf_srcs_apart herror
  obtain ⟨l, hl, hP, hQ⟩ := writeOutputs_eq hs hrun fun n hn q hq =>
    (planOf_pairs_in_srcs herror hn q hq).imp (wordApart_of_not_overlap hapart) (wordApart_of_not_overlap hapart)
  refine ⟨l, ?_, hP, hQ⟩
  rw [exec_of_no_busError herror hrefusal hbus, hl]
  exact congrArg Host.Outcome.next (completeOk_of_not_raced hraced)

/-- The scalar forms leave their last sum in `ACC` and touch no other lane state (R71). -/
theorem exec_completes_scalar {i : Instr} {s : State} {value : Nat → Word} (h : Executes i s.params)
    (hraced : s.raced = false) (hk : (planOf i s.params).kernel = scalarKernel)
    (hvalue : ∀ n, n < (planOf i s.params).out.count → scalarSum (sourcePairs i s n) = value n) :
    ∃ acc, exec i s = .next (completedWith i s value { s.lanes with acc := acc }) ∧
      ∀ n, (planOf i s.params).out.count = n + 1 → acc = value n := by
  obtain ⟨l, hexec, ⟨acc, rfl⟩, hacc⟩ := exec_completes (value := value)
    (P := fun l => ∃ acc, l = { s.lanes with acc := acc }) (Q := fun n l => l.acc = value n) h hraced ⟨_, rfl⟩
    (fun n hn l hl => by
      obtain ⟨acc, rfl⟩ := hl
      rw [hk, scalarKernel_run, hvalue n hn]
      exact ⟨rfl, ⟨_, rfl⟩, rfl⟩)
  exact ⟨acc, hexec, hacc⟩

/-- The grouped forms leave their last sum in `ACC` and no group open (R70). -/
theorem exec_completes_grouped {i : Instr} {s : State} {value : Nat → Word} (h : Executes i s.params)
    (hraced : s.raced = false) (hfit : LanesFit s) (hk : (planOf i s.params).kernel = groupedKernelOf s.params)
    (hvalue : ∀ n, n < (planOf i s.params).out.count →
      groupedSum s.params.laneWidth.lanes s.params.hredOrder (sourcePairs i s n) = value n) :
    ∃ l, exec i s = .next (completedWith i s value l) ∧
      ∀ n, (planOf i s.params).out.count = n + 1 → l.acc = value n ∧ l.gcnt = 0 := by
  obtain ⟨l, hexec, -, hl⟩ := exec_completes (value := value)
    (P := fun l => l.lgA.length = s.params.laneWidth.lanes ∧ l.lgB.length = s.params.laneWidth.lanes)
    (Q := fun n l => l.acc = value n ∧ l.gcnt = 0) h hraced hfit (fun n hn l hl => by
      obtain ⟨hword, hacc, hgcnt⟩ :=
        groupedKernel_run s.params.hredOrder (lanes_pos _) (sourcePairs i s n) hl.1 hl.2
      rw [hk, ← hvalue n hn]
      exact ⟨hword, (groupedKernel_run_fit s.params.hredOrder (lanes_pos _) (sourcePairs i s n) hl).1, hacc, hgcnt⟩)
  exact ⟨l, hexec, hl⟩

/-- The lane state that `TMUL.V` leaves alone: `ACC`, `GCNT` and lanes 4 and up (R80, R83). -/
def TensorKeeps (l₀ l : Lanes) : Prop :=
  l.acc = l₀.acc ∧ l.gcnt = l₀.gcnt ∧ l.lgA.drop 4 = l₀.lgA.drop 4 ∧ l.lgB.drop 4 = l₀.lgB.drop 4

theorem exec_completes_tensor {i : Instr} {s : State} {value : Nat → Word} (h : Executes i s.params)
    (hraced : s.raced = false) (hA : 4 ≤ s.lanes.lgA.length) (hB : 4 ≤ s.lanes.lgB.length)
    (hk : (planOf i s.params).kernel = tensorKernelOf s.params)
    (hlen : ∀ n, n < (planOf i s.params).out.count → (sourcePairs i s n).length = 4)
    (hvalue : ∀ n, n < (planOf i s.params).out.count →
      hred s.params.hredOrder ((sourcePairs i s n).map (fun p => fmul p.1 p.2)) = value n) :
    ∃ l, exec i s = .next (completedWith i s value l) ∧ TensorKeeps s.lanes l := by
  obtain ⟨l, hexec, ⟨-, -, hkeeps⟩, -⟩ := exec_completes (value := value)
    (P := fun l => 4 ≤ l.lgA.length ∧ 4 ≤ l.lgB.length ∧ TensorKeeps s.lanes l) (Q := fun _ _ => True) h hraced
    ⟨hA, hB, rfl, rfl, rfl, rfl⟩ (fun n hn l hl => by
      obtain ⟨hA, hB, hacc, hgcnt, hdropA, hdropB⟩ := hl
      have hfst : ((sourcePairs i s n).map Prod.fst).length = 4 := (List.length_map _).trans (hlen n hn)
      have hsnd : ((sourcePairs i s n).map Prod.snd).length = 4 := (List.length_map _).trans (hlen n hn)
      rw [hk, tensorKernelOf, tensorKernel_run _ (hlen n hn) hA hB]
      refine ⟨hvalue n hn, ⟨?_, ?_, hacc, hgcnt, ?_, ?_⟩, trivial⟩
      · rw [List.length_append, hfst]; omega
      · rw [List.length_append, hsnd]; omega
      · rw [List.drop_left' hfst, hdropA]
      · rw [List.drop_left' hsnd, hdropB])
  exact ⟨l, hexec, hkeeps⟩

/-! ### When a command executes -/

theorem regionsOverlap_of_apart {r q : Region} (h : RegionsApart r q) : regionsOverlap r q = false := by
  rw [← Bool.not_eq_true, regionsOverlap_iff]
  omega

theorem checkRegions_of_usable {p : Params} {src1 src2 out : Region} (h : RegionsUsable p src1 src2 out) :
    checkRegions [src1, src2] out = none := by
  obtain ⟨⟨hfit1, hfit2, hfit⟩, ⟨hapart1, hapart2⟩, -⟩ := h
  refine checkRegions_eq_none.mpr ⟨?_, ?_, ?_⟩
  · simpa using ⟨hfit1.1, hfit2.1, hfit.1⟩
  · simpa using ⟨hfit1.2, hfit2.2, hfit.2⟩
  · simpa using ⟨regionsOverlap_of_apart hapart1, regionsOverlap_of_apart hapart2⟩

theorem refusal_of_usable {c : Plan} {p : Params} {src1 src2 : Region} (h : RegionsUsable p src1 src2 c.out)
    (hsrcs : c.srcs = [src1, src2]) : c.refusal p = none := by
  obtain ⟨-, -, ⟨hord1, hord2, hord⟩, -⟩ := h
  have hregions : ∀ r ∈ c.regions, OrdinaryRegion p r := by
    rw [Plan.regions, hsrcs]
    simpa using ⟨hord1, hord2, hord⟩
  have hnone : ∀ qs : List Region, (∀ r ∈ c.regions, ∀ q ∈ qs, RegionsApart r q) →
      ¬c.regions.any (fun r => qs.any (fun q => regionsOverlap r q)) = true := fun qs hqs => by
    rw [Bool.not_eq_true, List.any_eq_false]
    intro r hr
    rw [Bool.not_eq_true, List.any_eq_false]
    exact fun q hq => by simp [regionsOverlap_of_apart (hqs r hr q hq)]
  unfold Plan.refusal
  rw [if_neg (hnone _ fun r hr => (hregions r hr).1), if_neg (hnone _ fun r hr => (hregions r hr).2)]

theorem busError_of_usable {c : Plan} {p : Params} {src1 src2 : Region} (h : RegionsUsable p src1 src2 c.out)
    (hsrcs : c.srcs = [src1, src2]) : c.busError p = false := by
  obtain ⟨-, -, -, hread1, hread2, hwrite⟩ := h
  rw [busError_eq_false, hsrcs]
  exact ⟨by simpa using ⟨hread1, hread2⟩, hwrite⟩

theorem executes_of_dotReady {i : Instr} {p : Params} {a b d n cap : Nat}
    (hi : i ∈ [Instr.dotS a b d n n cap, Instr.dotV a b d n n cap]) (h : DotReady p a b d n cap) : Executes i p := by
  obtain ⟨hn, hcap, husable⟩ := h
  have herror : (planOf i p).error = none := by
    rw [planOf_error_of_dot hi, checkDotLengths_eq_none hn hcap, checkRegions_of_usable husable]
    rfl
  simp only [List.mem_cons, List.not_mem_nil, or_false] at hi
  rcases hi with rfl | rfl
  · exact ⟨herror, refusal_of_usable husable rfl, busError_of_usable husable rfl⟩
  · exact ⟨herror, refusal_of_usable husable rfl, busError_of_usable husable rfl⟩

theorem executes_of_tmulReady {i : Instr} {p : Params} {a b d : Nat} (hi : i ∈ [Instr.tmulS a b d, Instr.tmulV a b d])
    (h : TmulReady p a b d) : Executes i p := by
  have herror : (planOf i p).error = none := by
    rw [planOf_error_of_tmul hi, checkRegions_of_usable h]
  simp only [List.mem_cons, List.not_mem_nil, or_false] at hi
  rcases hi with rfl | rfl
  · exact ⟨herror, refusal_of_usable h rfl, busError_of_usable h rfl⟩
  · exact ⟨herror, refusal_of_usable h rfl, busError_of_usable h rfl⟩

theorem executes_of_convReady {i : Instr} {p : Params} {x h y l1 l2 cap : Nat}
    (hi : i ∈ [Instr.convS x h y l1 l2 cap, Instr.convV x h y l1 l2 cap]) (hready : ConvReady p x h y l1 l2 cap) :
    Executes i p := by
  obtain ⟨h1, h2, hcap, husable⟩ := hready
  have herror : (planOf i p).error = none := by
    rw [planOf_error_of_conv hi, checkConvLengths_eq_none h1 h2 hcap, checkRegions_of_usable husable]
    rfl
  simp only [List.mem_cons, List.not_mem_nil, or_false] at hi
  rcases hi with rfl | rfl
  · exact ⟨herror, refusal_of_usable husable rfl, busError_of_usable husable rfl⟩
  · exact ⟨herror, refusal_of_usable husable rfl, busError_of_usable husable rfl⟩

/-! ### The six results -/

/-- Settles O9: the one output word is the scalar kernel's, and it is left in `ACC`. -/
theorem dotScalarCompletesWithItsSum : Obligations.DotScalarCompletesWithItsSum := by
  intro s a b d n cap hready hraced
  obtain ⟨acc, hexec, hacc⟩ := exec_completes_scalar (i := .dotS a b d n n cap) (s := s)
    (value := fun _ => scalarSum (sequencePairs s.mem a b n)) (executes_of_dotReady (by simp) hready) hraced rfl
    (fun k _ => congrArg scalarSum (readPairs_dotPairs s.mem a b n))
  rw [hexec, hacc 0 rfl]
  rfl

/-- Settles O10: the one output word is the grouped kernel's, and it is left in `ACC`. -/
theorem dotGroupedCompletesWithItsSum : Obligations.DotGroupedCompletesWithItsSum := by
  intro s a b d n cap hready hraced hfit
  obtain ⟨l, hexec, hl⟩ := exec_completes_grouped (i := .dotV a b d n n cap) (s := s)
    (value := fun _ => groupedSum s.params.laneWidth.lanes s.params.hredOrder (sequencePairs s.mem a b n))
    (executes_of_dotReady (by simp) hready) hraced hfit rfl
    (fun k _ => congrArg (groupedSum _ _) (readPairs_dotPairs s.mem a b n))
  exact ⟨l, hexec, hl 0 rfl⟩

/-- Settles O11: each output word is the scalar kernel's on a row and a column. -/
theorem tmulScalarCompletesWithTheProduct : Obligations.TmulScalarCompletesWithTheProduct := by
  intro s a b d hready hraced
  obtain ⟨acc, hexec, -⟩ := exec_completes_scalar (i := .tmulS a b d) (s := s)
    (value := fun n => scalarSum (rowColumnPairs s.mem a b n)) (executes_of_tmulReady (by simp) hready) hraced rfl
    (fun n _ => congrArg scalarSum (readPairs_tensorPairs s.mem a b n))
  exact ⟨acc, hexec⟩

/-- Settles O12: each output word is the tensor kernel's on a row and a column. -/
theorem tmulGroupedCompletesWithTheProduct : Obligations.TmulGroupedCompletesWithTheProduct := by
  intro s a b d hready hraced hfit
  obtain ⟨l, hexec, hkeeps⟩ := exec_completes_tensor (i := .tmulV a b d) (s := s)
    (value := fun n => hred s.params.hredOrder ((rowColumnPairs s.mem a b n).map (fun p => fmul p.1 p.2)))
    (executes_of_tmulReady (by simp) hready) hraced (hfit.1 ▸ four_le_lanes _) (hfit.2 ▸ four_le_lanes _) rfl
    (fun n _ => (List.length_map _).trans (tensorPairs_length a b n))
    (fun n _ => by rw [← readPairs_tensorPairs]; rfl)
  exact ⟨l, hexec, hkeeps⟩

/-- Settles O13: each output word is the scalar kernel's on the pairs that the guard admits. -/
theorem convScalarCompletesWithTheConvolution : Obligations.ConvScalarCompletesWithTheConvolution := by
  intro s x h y l1 l2 cap hready hraced
  obtain ⟨acc, hexec, -⟩ := exec_completes_scalar (i := .convS x h y l1 l2 cap) (s := s)
    (value := fun n => scalarSum (guardedPairs s.mem x h l1 l2 n)) (executes_of_convReady (by simp) hready) hraced rfl
    (fun n hn => congrArg scalarSum (readPairs_convPairs s.mem x h hready.1 hready.2.1 hn))
  exact ⟨acc, hexec⟩

/-- Settles O14: each output word is the grouped kernel's on the pairs that the guard admits, and the last one's flush
leaves no group open. -/
theorem convGroupedCompletesWithTheConvolution : Obligations.ConvGroupedCompletesWithTheConvolution := by
  intro s x h y l1 l2 cap hready hraced hfit
  obtain ⟨l, hexec, hl⟩ := exec_completes_grouped (i := .convV x h y l1 l2 cap) (s := s)
    (value := fun n => groupedSum s.params.laneWidth.lanes s.params.hredOrder (guardedPairs s.mem x h l1 l2 n))
    (executes_of_convReady (by simp) hready) hraced hfit rfl
    (fun n hn => congrArg (groupedSum _ _) (readPairs_convPairs s.mem x h hready.1 hready.2.1 hn))
  have hcount : l1 + l2 - 1 = l1 + l2 - 2 + 1 := by
    have := hready.1
    have := hready.2.1
    omega
  exact ⟨l, hexec, (hl _ hcount).2⟩

/-- Settles O49: the sixteen words are those of the pairs and the order alone. -/
theorem tensorGroupedIgnoresTheLaneWidth : Obligations.TensorGroupedIgnoresTheLaneWidth := by
  intro s a b d w l hready hraced hfit hA hB
  obtain ⟨l₁, hexec, -⟩ := tmulGroupedCompletesWithTheProduct s a b d hready hraced hfit
  obtain ⟨l₂, hexec', -⟩ := tmulGroupedCompletesWithTheProduct
    { s with params := { s.params with laneWidth := w }, lanes := l } a b d hready hraced ⟨hA, hB⟩
  exact ⟨_, _, hexec, hexec', rfl, rfl⟩

end Sys2Proof.Machine
end

section
/-!
PROOFS. The laws of the results: what an outcome depends on, that no accumulated word is `-0.0`, that exact sums agree in every
order, and the two probes, `DOT.V` with ones and TMUL with the identity.
-/
namespace Sys2Proof.Machine

/-! ### What an outcome depends on -/

/-- The word that a command's kernel computes from its pairs, whatever the lane state held. -/
def kernelWord (i : Instr) (p : Params) (pairs : List (Word × Word)) : Word :=
  match i with
  | .dotS _ _ _ _ _ _ | .tmulS _ _ _ | .convS _ _ _ _ _ _ => scalarSum pairs
  | .dotV _ _ _ _ _ _ | .convV _ _ _ _ _ _ => groupedSum p.laneWidth.lanes p.hredOrder pairs
  | .tmulV _ _ _ => hred p.hredOrder (pairs.map (fun q => fmul q.1 q.2))

/-- A command that executes stores the words of its source words. -/
theorem exec_completes_kernelWord {i : Instr} {s : State} (h : Executes i s.params) (hraced : s.raced = false)
    (hfit : LanesFit s) :
    ∃ l, exec i s = .next (completedWith i s (fun n => kernelWord i s.params (sourcePairs i s n)) l) := by
  cases i with
  | dotS | tmulS | convS =>
    obtain ⟨acc, hexec, -⟩ := exec_completes_scalar h hraced rfl (fun n _ => rfl)
    exact ⟨_, hexec⟩
  | dotV | convV =>
    obtain ⟨l, hexec, -⟩ := exec_completes_grouped h hraced hfit rfl (fun n _ => rfl)
    exact ⟨l, hexec⟩
  | tmulV a b d =>
    obtain ⟨l, hexec, -⟩ := exec_completes_tensor h hraced (hfit.1 ▸ four_le_lanes _) (hfit.2 ▸ four_le_lanes _) rfl
      (fun n _ => (List.length_map _).trans (tensorPairs_length a b n)) (fun n _ => rfl)
    exact ⟨l, hexec⟩

/-- Output word `n` of a completed command. -/
theorem readWord_completedWith {i : Instr} {s : State} (hwf : s.mem.wf = true) (value : Nat → Word) (l : Lanes) {n : Nat}
    (hn : n < (planOf i s.params).out.count) :
    (completedWith i s value l).mem.readWord ((planOf i s.params).out.base + 4 * n) = value n := by
  have hget := Memory.readWord_writeWords_get hwf (planOf i s.params).out.base
    ((List.range (planOf i s.params).out.count).map value) (n := n) (by simpa using hn)
  simpa using hget

theorem errorStatus_ne_ok (e : ErrCode) : errorStatus e ≠ 0x00000002#32 := by cases e <;> decide

/-- The source pairs are the same when the source words are. -/
theorem sourcePairs_congr {i : Instr} {s t : State} (hparams : s.params = t.params)
    (herror : (planOf i s.params).error = none)
    (hsrc : ∀ r ∈ (planOf i s.params).srcs, ∀ k, k < r.count →
      s.mem.readWord (r.base + 4 * k) = t.mem.readWord (r.base + 4 * k)) {n : Nat}
    (hn : n < (planOf i s.params).out.count) : sourcePairs i t n = sourcePairs i s n := by
  have hword : ∀ {a}, IsWordOf (planOf i s.params).srcs a → t.mem.readWord a = s.mem.readWord a := by
    rintro a ⟨r, hr, k, hk, rfl⟩
    exact (hsrc r hr k hk).symm
  unfold sourcePairs
  rw [← hparams]
  refine List.map_congr_left fun q hq => ?_
  obtain ⟨h1, h2⟩ := planOf_pairs_in_srcs herror hn q hq
  rw [hword h1, hword h2]

/-- Settles O43: the checks, the refusal and `BUS` depend on the operands and the parameters, and each output word on the
source words besides. -/
theorem outcomeDependsOnOperandsAlone : Obligations.OutcomeDependsOnOperandsAlone := by
  intro i s t s' hparams hsraced htraced hsfit htfit hswf htwf hsrc hexec
  rw [exec_eq_runPlan] at hexec
  rcases runPlan_next hexec with ⟨e, he, rfl⟩ | ⟨herror, hrefusal, hbus, rfl⟩ | ⟨herror, hrefusal, hbus, -⟩
  · exact ⟨_, exec_of_error (hparams ▸ he), rfl, fun hok => absurd hok (errorStatus_ne_ok e)⟩
  · exact ⟨_, exec_of_busError (hparams ▸ herror) (hparams ▸ hrefusal) (hparams ▸ hbus), rfl,
      fun hok => absurd hok (errorStatus_ne_ok .bus)⟩
  · have hexecutes : Executes i s.params := ⟨herror, hrefusal, hbus⟩
    obtain ⟨l, hs⟩ := exec_completes_kernelWord hexecutes hsraced hsfit
    obtain ⟨l', ht⟩ := exec_completes_kernelWord (hparams ▸ hexecutes) htraced htfit
    rw [exec_eq_runPlan, hexec] at hs
    rw [Host.Outcome.next.inj hs]
    refine ⟨_, ht, rfl, fun _ n hn => ?_⟩
    rw [readWord_completedWith hswf _ _ hn, hparams, readWord_completedWith htwf _ _ (hparams ▸ hn), ← hparams,
      sourcePairs_congr hparams herror hsrc hn]

/-! ### Accumulated words -/

theorem fadd_ne_minusZero {acc : Word} (h : acc ≠ 0x80000000#32) (v : Word) : fadd acc v ≠ 0x80000000#32 := fun heq =>
  h ((fadd_eq_minusZero_iff acc v).mp heq).1

theorem foldl_fadd_ne_minusZero {α : Type} (f : α → Word) (xs : List α) {acc : Word} (h : acc ≠ 0x80000000#32) :
    xs.foldl (fun acc x => fadd acc (f x)) acc ≠ 0x80000000#32 := by
  induction xs generalizing acc with
  | nil => exact h
  | cons x xs ih => exact ih (fadd_ne_minusZero h _)

/-- The kernels that accumulate start from `+0.0` and then only add to `ACC`. -/
theorem scalarKernel_run_ne_minusZero (pairs : List (Word × Word)) (l : Lanes) :
    (scalarKernel.run pairs l).2 ≠ 0x80000000#32 := by
  rw [scalarKernel_run]
  exact foldl_fadd_ne_minusZero _ pairs (by decide)

theorem groupedKernel_run_ne_minusZero (w : Nat) (o : HredOrder) (pairs : List (Word × Word)) (l : Lanes) :
    ((groupedKernel w o).run pairs l).2 ≠ 0x80000000#32 := by
  refine Kernel.run_induction (k := groupedKernel w o) (P := fun l => l.acc ≠ 0x80000000#32)
    (Q := fun l => l.acc ≠ 0x80000000#32) pairs (by decide : plusZero ≠ _) (fun n l u v h => ?_) (fun l h => ?_)
  · show (commitPair w o l u v).acc ≠ _
    simp only [commitPair]
    split
    · exact fadd_ne_minusZero h _
    · exact h
  · show (flushGroup w o l).acc ≠ _
    unfold flushGroup
    split
    · exact fadd_ne_minusZero h _
    · exact h

/-- Whatever the kernel's words have in common, the stored words have. -/
theorem writeOutputs_stores {c : Plan} {s : State} {R : Word → Prop} (h : ∀ pairs l, R (c.kernel.run pairs l).2) :
    ∃ ws : List Word, ws.length = c.out.count ∧ (∀ w ∈ ws, R w) ∧
      (writeOutputs c s).mem = s.mem.writeWords c.out.base ws := by
  have hfold : ∀ n, ∃ ws : List Word, ws.length = n ∧ (∀ w ∈ ws, R w) ∧
      ((List.range n).foldl (outputStep c) s).mem = s.mem.writeWords c.out.base ws := by
    intro n
    induction n with
    | zero => exact ⟨[], rfl, by simp, rfl⟩
    | succ n ih =>
      obtain ⟨ws, hlen, hR, hmem⟩ := ih
      rw [List.range_succ, List.foldl_append, List.foldl_cons, List.foldl_nil, outputStep_mem]
      generalize (List.range n).foldl (outputStep c) s = s' at hmem ⊢
      refine ⟨ws ++ [(c.kernel.run (readPairs s'.mem (c.pairs n)) s'.lanes).2], by simp [hlen], fun w hw => ?_, ?_⟩
      · rcases List.mem_append.mp hw with hw | hw
        · exact hR w hw
        · exact List.mem_singleton.mp hw ▸ h _ _
      · rw [Memory.writeWords_append, hlen, ← hmem]
        rfl
  exact hfold _

/-- Settles O45: every command but `TMUL.V` accumulates its words. -/
theorem accumulatedResultsAreNeverNegativeZero : Obligations.AccumulatedResultsAreNeverNegativeZero := by
  intro i s t hi hraced hwf hexec hok n hn
  have hkernel : ∀ pairs l, ((planOf i s.params).kernel.run pairs l).2 ≠ 0x80000000#32 := by
    cases i with
    | dotS | tmulS | convS => exact scalarKernel_run_ne_minusZero
    | dotV | convV => exact groupedKernel_run_ne_minusZero _ _
    | tmulV a b d => exact absurd rfl (hi a b d)
  rw [exec_eq_runPlan] at hexec
  rcases runPlan_next hexec with ⟨e, -, rfl⟩ | ⟨-, -, -, rfl⟩ | ⟨-, -, -, rfl⟩
  · exact absurd hok (errorStatus_ne_ok e)
  · exact absurd hok (errorStatus_ne_ok .bus)
  · obtain ⟨ws, hlen, hne, hmem⟩ := writeOutputs_stores (c := planOf i s.params) (s := s) (R := (· ≠ 0x80000000#32)) hkernel
    rw [completeOk_of_not_raced (by rw [writeOutputs_raced, hraced])]
    show (writeOutputs (planOf i s.params) s).mem.readWord _ ≠ _
    rw [hmem, Memory.readWord_writeWords_get hwf _ _ (by omega)]
    exact hne _ (List.getElem_mem _)

/-! ### Probes -/

/-- With exactly `W` pairs there is one group, and it is full. -/
theorem groupedSum_of_full_group {w : Nat} (o : HredOrder) (hw : 0 < w) {pairs : List (Word × Word)}
    (h : pairs.length = w) :
    groupedSum w o pairs = fadd plusZero (hred o (pairs.map (fun p => fmul p.1 p.2))) := by
  have hgroups : (pairs.length + w - 1) / w = 1 := by
    have := ceil_div (q := 1) (r := 0) hw
    simpa [h] using this
  have hproducts : groupProducts w pairs 0 = pairs.map (fun p => fmul p.1 p.2) := by
    refine List.ext_getElem (by simp [groupProducts, h]) fun k hk hk' => ?_
    have hlt : k < pairs.length := by simpa using hk'
    simp [groupProducts, List.getElem?_eq_getElem hlt]
  rw [groupedSum, hgroups, List.range_one, List.foldl_cons, List.foldl_nil, hproducts]

/-- Settles O47: the one group's products are the elements of `a`. -/
theorem dotGroupedProbesTheReduction : Obligations.DotGroupedProbesTheReduction := by
  intro s a b d cap hready hraced hfit hwf hones
  obtain ⟨l, hexec, -⟩ := dotGroupedCompletesWithItsSum s a b d _ cap hready hraced hfit
  refine ⟨_, hexec, ?_⟩
  show (s.mem.writeWord d _).readWord d = _
  rw [Memory.readWord_writeWord_same hwf, groupedSum_of_full_group _ (lanes_pos _) (by simp [sequencePairs]),
    sequencePairs, List.map_map]
  have hproduct : ∀ k ∈ List.range s.params.laneWidth.lanes,
      fmul (s.mem.readWord (a + 4 * k)) (s.mem.readWord (b + 4 * k)) = s.mem.readWord (a + 4 * k) := fun k hk => by
    obtain ⟨hone, hnan⟩ := hones k (List.mem_range.mp hk)
    rw [hone, fmul_one hnan]
  exact congrArg (fun p => fadd plusZero (hred s.params.hredOrder p)) (List.map_congr_left hproduct)

/-- `w` is the word `x` when `hot` holds, and a zero otherwise. -/
def IsOrZero (x : Word) (hot : Prop) (w : Word) : Prop := (hot → w = x) ∧ (¬hot → isZero w = true)

/-- A sum with at most one summand that is no zero is that summand. -/
theorem IsOrZero.fadd {x : Word} {p q : Prop} {v w : Word} (hx : isFinite x = true) (hne : x ≠ 0x80000000#32)
    (hv : IsOrZero x p v) (hw : IsOrZero x q w) (hpq : ¬(p ∧ q)) : IsOrZero x (p ∨ q) (fadd v w) := by
  refine ⟨fun h => ?_, fun h => ?_⟩
  · rcases h with hp | hq
    · rw [hv.1 hp, fadd_zero_right hx hne (hw.2 fun hq => hpq ⟨hp, hq⟩)]
    · rw [hw.1 hq, fadd_zero_left hx hne (hv.2 fun hp => hpq ⟨hp, hq⟩)]
  · obtain ⟨hp, hq⟩ := not_or.mp h
    exact isZero_fadd (hv.2 hp) (hw.2 hq)

section OneHot

variable {x p0 p1 p2 p3 : Word} {c : Nat} (hx : isFinite x = true) (hne : x ≠ 0x80000000#32) (hc : c < 4)
  (h0 : IsOrZero x (0 = c) p0) (h1 : IsOrZero x (1 = c) p1) (h2 : IsOrZero x (2 = c) p2) (h3 : IsOrZero x (3 = c) p3)
include hx hne hc h0 h1 h2 h3

/-- A left fold over four words of which one is no zero. -/
theorem linear_of_oneHot : fadd (fadd (fadd p0 p1) p2) p3 = x :=
  ((((h0.fadd hx hne h1 (by omega)).fadd hx hne h2 (by omega)).fadd hx hne h3 (by omega))).1 (by omega)

/-- The same from `+0.0`. -/
theorem scalar_of_oneHot : fadd (fadd (fadd (fadd plusZero p0) p1) p2) p3 = x := by
  have hzero : IsOrZero x (4 = c) plusZero := ⟨fun h => by omega, fun _ => by decide⟩
  exact ((((hzero.fadd hx hne h0 (by omega)).fadd hx hne h1 (by omega)).fadd hx hne h2 (by omega)).fadd hx hne h3
    (by omega)).1 (by omega)

/-- The halving tree over four words of which one is no zero. -/
theorem pairwise_of_oneHot : fadd (fadd p0 p1) (fadd p2 p3) = x :=
  ((h0.fadd hx hne h1 (by omega)).fadd hx hne (h2.fadd hx hne h3 (by omega)) (by omega)).1 (by omega)

theorem hred_of_oneHot (o : HredOrder) : hred o [p0, p1, p2, p3] = x := by
  cases o with
  | linear => exact linear_of_oneHot hx hne hc h0 h1 h2 h3
  | pairwise => exact (hred_pairwise_four p0 p1 p2 p3).trans (pairwise_of_oneHot hx hne hc h0 h1 h2 h3)

end OneHot

/-- A product of a finite number with an element of the identity. -/
theorem isOrZero_fmul {v b : Word} {k c : Nat} (hv : isFinite v = true)
    (hb : b = if k = c then 0x3F800000#32 else 0x00000000#32) : IsOrZero v (k = c) (fmul v b) := by
  subst hb
  refine ⟨fun h => ?_, fun h => ?_⟩
  · rw [if_pos h, fmul_one_of_finite hv]
  · rw [if_neg h]
    exact isZero_fmul_zero hv

theorem rowColumnPairs_eq (m : Memory) (a b n : Nat) : rowColumnPairs m a b n =
    [(m.readWord (a + 4 * (4 * (n / 4) + 0)), m.readWord (b + 4 * (4 * 0 + n % 4))),
     (m.readWord (a + 4 * (4 * (n / 4) + 1)), m.readWord (b + 4 * (4 * 1 + n % 4))),
     (m.readWord (a + 4 * (4 * (n / 4) + 2)), m.readWord (b + 4 * (4 * 2 + n % 4))),
     (m.readWord (a + 4 * (4 * (n / 4) + 3)), m.readWord (b + 4 * (4 * 3 + n % 4)))] := rfl

/-- `w` is the product of `v`, finite and not `-0.0`, with an element of column `c` of the identity, or is that of another
such word: the summand of `x` is `x`, the others are zeros. -/
theorem isOrZero_product {m : Memory} {a b n k : Nat} (hk : k < 4) (hn : n < 16)
    (hb : ∀ r c, r < 4 → c < 4 → m.readWord (b + 4 * (4 * r + c)) = if r = c then 0x3F800000#32 else 0x00000000#32)
    (ha : ∀ n, n < 16 → isFinite (m.readWord (a + 4 * n)) = true ∧ m.readWord (a + 4 * n) ≠ 0x80000000#32) :
    IsOrZero (m.readWord (a + 4 * n)) (k = n % 4)
      (fmul (m.readWord (a + 4 * (4 * (n / 4) + k))) (m.readWord (b + 4 * (4 * k + n % 4)))) := by
  obtain ⟨hhot, hzero⟩ := isOrZero_fmul (ha (4 * (n / 4) + k) (by omega)).1 (hb k (n % 4) hk (by omega))
  refine ⟨fun h => (hhot h).trans ?_, hzero⟩
  rw [h, Nat.div_add_mod]

/-- Settles O48: in each row and column one product is the element of `A` and the others are zeros, which no order of
addition lets through. -/
theorem tensorIdentityGivesBackTheTensor : Obligations.TensorIdentityGivesBackTheTensor := by
  intro s a b d hready hraced hfit hwf hb ha i hi
  have hread : ∀ (f : Nat → Word) (n : Nat), n < 16 →
      (s.mem.writeWords d ((List.range 16).map f)).readWord (d + 4 * n) = f n := fun f n hn => by
    rw [Memory.readWord_writeWords_get hwf d _ (by simpa using hn)]
    simp
  simp only [List.mem_cons, List.not_mem_nil, or_false] at hi
  rcases hi with rfl | rfl
  · obtain ⟨acc, hexec⟩ := tmulScalarCompletesWithTheProduct s a b d hready hraced
    refine ⟨_, hexec, rfl, fun n hn => ?_⟩
    dsimp only
    rw [tensorScalarWords, hread _ n hn, rowColumnPairs_eq]
    simp only [scalarSum, List.foldl_cons, List.foldl_nil]
    exact scalar_of_oneHot (ha n hn).1 (ha n hn).2 (Nat.mod_lt n (by decide)) (isOrZero_product (by decide) hn hb ha)
      (isOrZero_product (by decide) hn hb ha) (isOrZero_product (by decide) hn hb ha) (isOrZero_product (by decide) hn hb ha)
  · obtain ⟨l, hexec, -⟩ := tmulGroupedCompletesWithTheProduct s a b d hready hraced hfit
    refine ⟨_, hexec, rfl, fun n hn => ?_⟩
    dsimp only
    rw [tensorGroupedWords, hread _ n hn, rowColumnPairs_eq]
    simp only [List.map_cons, List.map_nil]
    exact hred_of_oneHot (ha n hn).1 (ha n hn).2 (Nat.mod_lt n (by decide)) (isOrZero_product (by decide) hn hb ha)
      (isOrZero_product (by decide) hn hb ha) (isOrZero_product (by decide) hn hb ha) (isOrZero_product (by decide) hn hb ha) _

/-! ### Exact sums -/

section ExactSums

variable (ps : List Word)

/-- The value of product `i`, zero past the last one. -/
def productUnits (i : Nat) : Int := units (ps.getD i plusZero)

/-- The exact sum of `n` products from the `a`-th on. -/
def segmentSum (a n : Nat) : Int := ((List.range n).map (fun i => productUnits ps (a + i))).sum

theorem segmentSum_add (a m n : Nat) : segmentSum ps a (m + n) = segmentSum ps a m + segmentSum ps (a + m) n := by
  simp only [segmentSum, List.range_add, List.map_append, List.map_map, List.sum_append, Function.comp_def,
    Nat.add_assoc]

theorem segmentSum_one (a : Nat) : segmentSum ps a 1 = productUnits ps a := by
  simp [segmentSum]

/-- A segment is a selection of the products. -/
theorem segmentSum_eq (a n : Nat) : segmentSum ps a n = (((ps.drop a).take n).map units).sum := by
  induction n with
  | zero => simp [segmentSum]
  | succ n ih =>
    rw [segmentSum_add, ih, segmentSum_one, List.take_add_one, List.map_append, List.sum_append, List.getElem?_drop,
      productUnits, List.getD_eq_getElem?_getD]
    cases ps[a + n]? with
    | none => exact congrArg _ (by decide : units plusZero = 0)
    | some p => simp

/-- `w` is the exact sum of `n` products from the `a`-th on. -/
def IsSegmentSum (a n : Nat) (w : Word) : Prop := isFinite w = true ∧ units w = segmentSum ps a n

variable {ps} (hsums : ∀ l : List Word, l.Sublist ps → ∃ r, isFinite r = true ∧ units r = (l.map units).sum)
include hsums

/-- Exact sums of neighbouring segments add up exactly. -/
theorem IsSegmentSum.fadd {a m n : Nat} {v w : Word} (hv : IsSegmentSum ps a m v) (hw : IsSegmentSum ps (a + m) n w) :
    IsSegmentSum ps a (m + n) (fadd v w) := by
  obtain ⟨r, hr, hunits⟩ := hsums ((ps.drop a).take (m + n)) ((List.take_sublist _ _).trans (List.drop_sublist _ _))
  rw [← segmentSum_eq, segmentSum_add, ← hv.2, ← hw.2] at hunits
  obtain ⟨hfin, hexact⟩ := fadd_exact hv.1 hw.1 hr hunits
  exact ⟨hfin, by rw [hexact, hv.2, hw.2, segmentSum_add]⟩

/-- The left fold over words that are the products from the `a + m`-th on. -/
theorem isSegmentSum_foldl {a m : Nat} {acc : Word} (hacc : IsSegmentSum ps a m acc) {xs : List Word}
    (hxs : ∀ k (hk : k < xs.length), IsSegmentSum ps (a + m + k) 1 xs[k]) :
    IsSegmentSum ps a (m + xs.length) (xs.foldl Machine.fadd acc) := by
  induction xs generalizing m acc with
  | nil => exact hacc
  | cons x xs ih =>
    have hnext := ih (hacc.fadd hsums (hxs 0 (by simp))) fun k hk => by
      have hk' := hxs (k + 1) (by simpa using hk)
      rwa [List.getElem_cons_succ, show a + m + (k + 1) = a + (m + 1) + k by omega] at hk'
    rwa [show m + (x :: xs).length = m + 1 + xs.length by simp; omega]

/-- The halving tree over words that are the products from the `a`-th on. -/
theorem isSegmentSum_hredPairwise {a : Nat} {p : List Word}
    (hp : ∀ k, k < p.length → IsSegmentSum ps (a + k) 1 (p.getD k plusZero)) {fuel lo hi : Nat} (hlt : lo < hi)
    (hhi : hi ≤ p.length) (hfuel : hi - lo ≤ fuel) :
    IsSegmentSum ps (a + lo) (hi - lo) (hredPairwise p fuel lo hi) := by
  induction fuel generalizing lo hi with
  | zero => omega
  | succ fuel ih =>
    rw [hredPairwise]
    split_ifs with hone
    · rw [hone]
      exact hp lo (by omega)
    · have hleft := ih (lo := lo) (hi := (lo + hi) / 2) (by omega) (by omega) (by omega)
      have hright := ih (lo := (lo + hi) / 2) (hi := hi) (by omega) hhi (by omega)
      have hboth := hleft.fadd hsums (n := hi - (lo + hi) / 2)
        (by rwa [show a + lo + ((lo + hi) / 2 - lo) = a + (lo + hi) / 2 by omega])
      rwa [show (lo + hi) / 2 - lo + (hi - (lo + hi) / 2) = hi - lo by omega] at hboth

/-- A reduction of products, in either order, is their exact sum. -/
theorem isSegmentSum_hred (o : HredOrder) {a : Nat} {p : List Word} (hpos : 0 < p.length)
    (hp : ∀ k, k < p.length → IsSegmentSum ps (a + k) 1 (p.getD k plusZero)) :
    IsSegmentSum ps a p.length (hred o p) := by
  cases o with
  | linear =>
    obtain ⟨x, xs, rfl⟩ := List.exists_cons_of_length_pos hpos
    have hfold := isSegmentSum_foldl hsums (hp 0 hpos) (xs := xs) fun k hk => by
      have hk' := hp (k + 1) (by simpa using hk)
      rw [List.getD_eq_getElem?_getD, List.getElem?_cons_succ, List.getElem?_eq_getElem hk] at hk'
      rwa [show a + 0 + 1 + k = a + (k + 1) by omega]
    rwa [show (x :: xs).length = 1 + xs.length by simp; omega]
  | pairwise =>
    have htree := isSegmentSum_hredPairwise hsums hp hpos le_rfl (fuel := p.length) (by omega)
    exact htree

omit hsums in
/-- Segments that reach the last product have the whole sum. -/
theorem segmentSum_of_length_le {n : Nat} (h : ps.length ≤ n) : segmentSum ps 0 n = (ps.map units).sum := by
  rw [segmentSum_eq, List.drop_zero, List.take_of_length_le h]

omit hsums in
theorem isSegmentSum_plusZero {a : Nat} : IsSegmentSum ps a 0 plusZero := by
  refine ⟨by decide, ?_⟩
  rw [segmentSum_eq, List.take_zero]
  decide

omit hsums in
theorem isSegmentSum_one (hfinite : ∀ p ∈ ps, isFinite p = true) (i : Nat) :
    IsSegmentSum ps i 1 (ps.getD i plusZero) := by
  refine ⟨?_, (segmentSum_one ps i).symm⟩
  rw [List.getD_eq_getElem?_getD]
  cases hget : ps[i]? with
  | none => rfl
  | some p => exact hfinite p (List.mem_of_getElem? hget)

end ExactSums

/-- The products of a list of pairs. -/
abbrev products (pairs : List (Word × Word)) : List Word := pairs.map (fun p => fmul p.1 p.2)

theorem scalarSum_eq_foldl (pairs : List (Word × Word)) : scalarSum pairs = (products pairs).foldl fadd plusZero := by
  rw [List.foldl_map]
  rfl

/-- A lane with no pair multiplies `+0.0` by `+0.0`. -/
theorem groupProducts_getD (w : Nat) (pairs : List (Word × Word)) (g : Nat) {k : Nat} (hk : k < w) :
    (groupProducts w pairs g).getD k plusZero = (products pairs).getD (g * w + k) plusZero := by
  have hzero : fmul plusZero plusZero = plusZero :=
    (zeroResultsHaveTheirSigns plusZero plusZero).2.2.1 (by decide) (by decide) (.inl (by decide))
  simp only [groupProducts, List.getD_eq_getElem?_getD, List.getElem?_map, List.getElem?_range hk, Option.map_some,
    Option.getD_some]
  cases pairs[g * w + k]? with
  | none => exact hzero
  | some p => rfl

/-- The exact sum of the first `q` groups. -/
theorem isSegmentSum_groupsSum {w : Nat} (hw : 0 < w) (o : HredOrder) {pairs : List (Word × Word)}
    (hfinite : ∀ p ∈ products pairs, isFinite p = true)
    (hsums : ∀ l : List Word, l.Sublist (products pairs) → ∃ r, isFinite r = true ∧ units r = (l.map units).sum)
    (q : Nat) : IsSegmentSum (products pairs) 0 (q * w) (groupsSum w o pairs q) := by
  have hlen : ∀ g, (groupProducts w pairs g).length = w := fun g => by simp [groupProducts]
  induction q with
  | zero => rw [Nat.zero_mul]; exact isSegmentSum_plusZero
  | succ q ih =>
    have hgroup : IsSegmentSum (products pairs) (q * w) w (hred o (groupProducts w pairs q)) := by
      have hred := isSegmentSum_hred hsums o (a := q * w) (p := groupProducts w pairs q) (by rw [hlen]; exact hw)
        fun k hk => by
          rw [groupProducts_getD w pairs q (hlen q ▸ hk)]
          exact isSegmentSum_one hfinite _
      rwa [hlen] at hred
    rw [groupsSum_succ, Nat.succ_mul]
    exact ih.fadd hsums (by rwa [Nat.zero_add])

/-- Settles O46: both sums are the exact sum of all products, and neither is `-0.0`. -/
theorem exactSumsAgreeInEveryOrder : Obligations.ExactSumsAgreeInEveryOrder := by
  intro width o pairs hexact hsums
  have hw := lanes_pos width
  generalize width.lanes = w at hw ⊢
  have hfinite : ∀ p ∈ products pairs, isFinite p = true := fun p hp => by
    obtain ⟨q, hq, rfl⟩ := List.mem_map.mp hp
    exact (hexact q hq).2.2.1
  have hscalar : IsSegmentSum (products pairs) 0 (0 + (products pairs).length) (scalarSum pairs) := by
    rw [scalarSum_eq_foldl]
    refine isSegmentSum_foldl hsums isSegmentSum_plusZero fun k hk => ?_
    have hone := isSegmentSum_one hfinite k
    rw [List.getD_eq_getElem _ _ hk] at hone
    rwa [show 0 + 0 + k = k by omega]
  have hgrouped := isSegmentSum_groupsSum hw o hfinite hsums ((pairs.length + w - 1) / w)
  have hcovers : (products pairs).length ≤ (pairs.length + w - 1) / w * w := by
    have hdiv := Nat.div_add_mod' (pairs.length + w - 1) w
    have hmod := Nat.mod_lt (pairs.length + w - 1) hw
    rw [List.length_map]
    omega
  have hunits := hscalar.2.trans (segmentSum_of_length_le (by omega))
  have hnotScalar : scalarSum pairs ≠ 0x80000000#32 := foldl_fadd_ne_minusZero _ pairs (by decide)
  have hnotGrouped : groupedSum w o pairs ≠ 0x80000000#32 := foldl_fadd_ne_minusZero _ _ (by decide)
  refine ⟨eq_of_units_eq ?_ hnotScalar hnotGrouped, hscalar.1, hunits, hnotScalar⟩
  exact hunits.trans (hgrouped.2.trans (segmentSum_of_length_le hcovers)).symm

end Sys2Proof.Machine
end

section
/-!
PROOFS. The statement about the engine that moves one access at a time (R127): without an `ERROR` it goes through the states
between the output words of the atomic transition, and with one it raises `BUS` over the same memory outside the output.
-/
namespace Sys2Proof.Machine

/-! ### Which words are accessed -/

theorem planOf_pairs_ne_nil {i : Instr} {p : Params} (h : (planOf i p).error = none) {n : Nat}
    (hn : n < (planOf i p).out.count) : (planOf i p).pairs n ≠ [] := by
  refine List.ne_nil_of_length_pos ?_
  cases i with
  | dotS a b d la lb lc | dotV a b d la lb lc =>
    obtain ⟨hla, -⟩ := lengths_of_checkDotLengths (Option.or_eq_none_iff.mp h).1
    show 0 < (dotPairs a b la).length
    rw [dotPairs, List.length_map, List.length_range]
    exact hla
  | tmulS a b d | tmulV a b d => exact (tensorPairs_length a b n).symm ▸ Nat.succ_pos 3
  | convS x h' y l1 l2 lc | convV x h' y l1 l2 lc =>
    obtain ⟨h1, h2⟩ := lengths_of_checkConvLengths (Option.or_eq_none_iff.mp h).1
    have hn' : n < l1 + l2 - 1 := hn
    show 0 < (convPairs x h' l1 l2 n).length
    rw [convPairs_length]
    omega

/-- The word at `a` is read for some output word. -/
def IsRead (c : Plan) (a : Nat) : Prop := ∃ n, n < c.out.count ∧ ∃ q ∈ c.pairs n, a = q.1 ∨ a = q.2

/-- Every source word of a command that passed its checks is read (R45). -/
theorem planOf_srcs_read {i : Instr} {p : Params} (h : (planOf i p).error = none) {r : Region}
    (hr : r ∈ (planOf i p).srcs) {k : Nat} (hk : k < r.count) : IsRead (planOf i p) (r.base + 4 * k) := by
  cases i with
  | dotS a b d la lb lc | dotV a b d la lb lc =>
    obtain ⟨-, rfl⟩ := lengths_of_checkDotLengths (Option.or_eq_none_iff.mp h).1
    have hsides : r = ⟨a, la⟩ ∨ r = ⟨b, la⟩ := by simpa [planOf, dotPlan] using hr
    rcases hsides with rfl | rfl
    · exact ⟨0, Nat.zero_lt_one, _, mem_dotPairs.mpr ⟨k, hk, rfl⟩, .inl rfl⟩
    · exact ⟨0, Nat.zero_lt_one, _, mem_dotPairs.mpr ⟨k, hk, rfl⟩, .inr rfl⟩
  | tmulS a b d | tmulV a b d =>
    have hsides : r = ⟨a, 16⟩ ∨ r = ⟨b, 16⟩ := by simpa [planOf, tmulPlan] using hr
    have hk' : k < 16 := by rcases hsides with rfl | rfl <;> exact hk
    rcases hsides with rfl | rfl
    · refine ⟨4 * (k / 4), by show _ < 16; omega, _, mem_tensorPairs.mpr ⟨k % 4, Nat.mod_lt k (by decide), rfl⟩, .inl ?_⟩
      show a + 4 * k = a + 4 * (4 * (4 * (k / 4) / 4) + k % 4)
      omega
    · refine ⟨k % 4, by show _ < 16; omega, _, mem_tensorPairs.mpr ⟨k / 4, by omega, rfl⟩, .inr ?_⟩
      show b + 4 * k = b + 4 * (4 * (k / 4) + k % 4 % 4)
      omega
  | convS x h' y l1 l2 lc | convV x h' y l1 l2 lc =>
    obtain ⟨h1, h2⟩ := lengths_of_checkConvLengths (Option.or_eq_none_iff.mp h).1
    have hsides : r = ⟨x, l1⟩ ∨ r = ⟨h', l2⟩ := by simpa [planOf, convPlan] using hr
    rcases hsides with rfl | rfl
    · have hk' : k < l1 := hk
      exact ⟨k, by show k < l1 + l2 - 1; omega, _,
        (mem_convPairs h1 h2 (by omega)).mpr ⟨k, hk', le_rfl, by omega, rfl⟩, .inl rfl⟩
    · have hk' : k < l2 := hk
      exact ⟨k, by show k < l1 + l2 - 1; omega, _,
        (mem_convPairs h1 h2 (by omega)).mpr ⟨0, h1, Nat.zero_le k, hk', rfl⟩, .inr rfl⟩

/-- A pair one of whose words answers `ERROR` to a read. -/
def pairFails (p : Params) (q : Nat × Nat) : Bool := readFails p q.1 || readFails p q.2

/-- No access of output word `n` answers `ERROR`. -/
def OutputAnswers (c : Plan) (p : Params) (n : Nat) : Prop :=
  (∀ q ∈ c.pairs n, pairFails p q = false) ∧ writeFails p (elementAddr c.out.base n) = false

/-- A command that passed its checks meets no `ERROR` exactly when every output word's accesses answer (R44). -/
theorem busError_eq_false_iff_outputs {i : Instr} {p : Params} (h : (planOf i p).error = none) :
    (planOf i p).busError p = false ↔ ∀ n, n < (planOf i p).out.count → OutputAnswers (planOf i p) p n := by
  rw [busError_eq_false]
  constructor
  · rintro ⟨hread, hwrite⟩ n hn
    have hword : ∀ {a}, IsWordOf (planOf i p).srcs a → readFails p a = false := by
      rintro a ⟨r, hr, k, hk, rfl⟩
      exact hread r hr k hk
    refine ⟨fun q hq => ?_, hwrite n hn⟩
    obtain ⟨h1, h2⟩ := planOf_pairs_in_srcs h hn q hq
    simp [pairFails, hword h1, hword h2]
  · intro hall
    refine ⟨fun r hr k hk => ?_, fun k hk => (hall k hk).2⟩
    obtain ⟨n, hn, q, hq, ha⟩ := planOf_srcs_read h hr hk
    have hpair := (hall n hn).1 q hq
    rw [pairFails, Bool.or_eq_false_iff] at hpair
    rcases ha with ha | ha <;> rw [ha]
    · exact hpair.1
    · exact hpair.2

/-! ### The engine's states -/

/-- Some number of the engine's steps leads from `s` to this outcome. -/
def EngineReaches (s : State) (r : Host.Outcome State Fault Refusal) : Prop := ∃ k, engineSteps k s = r

theorem EngineReaches.of_step {s s' : State} {r : Host.Outcome State Fault Refusal} (h : engineStep s = .next s')
    (hr : EngineReaches s' r) : EngineReaches s r := by
  obtain ⟨k, hk⟩ := hr
  exact ⟨k + 1, by rw [engineSteps, h]; exact hk⟩

theorem EngineReaches.of_last_step {s : State} {r : Host.Outcome State Fault Refusal} (h : engineStep s = r) :
    EngineReaches s r := by
  refine ⟨1, ?_⟩
  rw [engineSteps, h]
  cases r <;> rfl

/-- The running state `s` with memory, lane state and position as the engine has them. -/
def engineAt (s : State) (m : Memory) (l : Lanes) (n j : Nat) : State :=
  { s with mem := m, lanes := l, position := some ⟨n, j⟩ }

/-- The running state `s` before the first access of output word `n`. -/
def outputStart (s : State) (n : Nat) : State := engineAt s s.mem s.lanes n 0

/-- A completed command holds no position. -/
theorem completeOk_engineAt (out : Region) (s : State) (n j : Nat) :
    completeOk out (engineAt s s.mem s.lanes n j) = completeOk out s := by
  cases hraced : s.raced <;> simp [completeOk, settleRace, engineAt, hraced] <;> rfl

/-- The first element of what is left of a list stands at that place, and the rest is left after it. -/
theorem drop_eq_cons {α : Type} {xs : List α} {j : Nat} {x : α} {rest : List α} (h : xs.drop j = x :: rest) :
    xs[j]? = some x ∧ xs.drop (j + 1) = rest := by
  constructor
  · rw [← List.head?_drop, h, List.head?_cons]
  · rw [← List.tail_drop, h, List.tail_cons]

/-- An address in a region is an offset into it. -/
theorem eq_base_add_of_regionHas {r : Region} {p : Nat} (h : regionHas r p = true) :
    ∃ k, k < 4 * r.count ∧ p = r.base + k := by
  have hnot : ¬ (p < r.base ∨ r.base + 4 * r.count ≤ p) := fun hp => by
    rw [regionHas_eq_false.mpr hp] at h
    cases h
  exact ⟨p - r.base, by omega, by omega⟩

section Engine

variable {s : State} {i : Instr} (hbusy : s.phase = .busy) (hdecode : decode s.words = .command i)
  (herror : (planOf i s.params).error = none) (hrefusal : (planOf i s.params).refusal s.params = none)
include hbusy hdecode herror hrefusal

theorem engineStep_engineAt (m : Memory) (l : Lanes) (n j : Nat) : engineStep (engineAt s m l n j) =
    .next (advanceCommand (planOf i s.params) ⟨n, j⟩ (engineAt s m l n j)) := by
  have hbusy' : (engineAt s m l n j).phase = .busy := hbusy
  have hdecode' : decode (engineAt s m l n j).words = .command i := hdecode
  have hparams : (engineAt s m l n j).params = s.params := rfl
  unfold engineStep
  rw [hbusy']
  simp only [hdecode', hparams, herror, hrefusal]
  rfl

/-- After the last output word the command completes. -/
theorem engineStep_done (m : Memory) (l : Lanes) {n : Nat} (hn : (planOf i s.params).out.count ≤ n) (j : Nat) :
    engineStep (engineAt s m l n j) = .next (completeOk (planOf i s.params).out (engineAt s m l n j)) := by
  rw [engineStep_engineAt hbusy hdecode herror hrefusal, advanceCommand, if_pos hn]

/-- The lane state into which the pair at `j` is committed: the first pair starts the kernel. -/
def startedLanes (k : Kernel) (j : Nat) (l : Lanes) : Lanes := if j = 0 then k.start l else l

/-- A pair is read: `BUS`, or it is committed. -/
theorem engineStep_pair (m : Memory) (l : Lanes) {n j : Nat} (hn : n < (planOf i s.params).out.count) {q : Nat × Nat}
    (hq : ((planOf i s.params).pairs n)[j]? = some q) :
    engineStep (engineAt s m l n j) = .next
      (if pairFails s.params q then raiseBus (planOf i s.params).out (engineAt s m l n j)
      else engineAt s m ((planOf i s.params).kernel.commit j (startedLanes (planOf i s.params).kernel j l)
        (m.readWord q.1) (m.readWord q.2)) n (j + 1)) := by
  rw [engineStep_engineAt hbusy hdecode herror hrefusal, advanceCommand, if_neg (by simpa using hn)]
  simp only [hq]
  rfl

/-- After its last pair an output word is written, or `BUS` is raised. -/
theorem engineStep_write (m : Memory) (l : Lanes) {n j : Nat} (hn : n < (planOf i s.params).out.count)
    (hq : ((planOf i s.params).pairs n)[j]? = none) :
    engineStep (engineAt s m l n j) = .next
      (if writeFails s.params (elementAddr (planOf i s.params).out.base n) then
        raiseBus (planOf i s.params).out (engineAt s m l n j)
      else engineAt s (m.writeWord (elementAddr (planOf i s.params).out.base n) ((planOf i s.params).kernel.finish l).2)
        ((planOf i s.params).kernel.finish l).1 (n + 1) 0) := by
  rw [engineStep_engineAt hbusy hdecode herror hrefusal, advanceCommand, if_neg (by simpa using hn)]
  simp only [hq]
  rfl

/-! ### One output word -/

/-- The pairs from `j + 1` on are read and committed, when they answer. -/
theorem engineReaches_pairs (m : Memory) {n : Nat} (hn : n < (planOf i s.params).out.count)
    {r : Host.Outcome State Fault Refusal} {rest : List (Nat × Nat)} {j : Nat} {l : Lanes}
    (hrest : ((planOf i s.params).pairs n).drop (j + 1) = rest) (hanswer : ∀ q ∈ rest, pairFails s.params q = false)
    (hr : EngineReaches (engineAt s m (((readPairs m rest).zipIdx (j + 1)).foldl
      (fun l q => (planOf i s.params).kernel.commit q.2 l q.1.1 q.1.2) l) n (j + 1 + rest.length)) r) :
    EngineReaches (engineAt s m l n (j + 1)) r := by
  induction rest generalizing j l with
  | nil => exact hr
  | cons q rest ih =>
    obtain ⟨hq, hdrop⟩ := drop_eq_cons hrest
    refine .of_step (engineStep_pair hbusy hdecode herror hrefusal m l hn hq) ?_
    rw [if_neg (by simp [hanswer q List.mem_cons_self])]
    refine ih hdrop (fun q' hq' => hanswer q' (List.mem_cons_of_mem _ hq')) ?_
    rw [Nat.add_right_comm (j + 1) 1 rest.length]
    exact hr

/-- A pair that answers `ERROR` ends the command with `BUS`. -/
theorem engineReaches_bus_of_pair (m : Memory) {n : Nat} (hn : n < (planOf i s.params).out.count)
    {b : State} (hraise : ∀ l j, raiseBus (planOf i s.params).out (engineAt s m l n j) = b)
    {rest : List (Nat × Nat)} {j : Nat} {l : Lanes} (hrest : ((planOf i s.params).pairs n).drop j = rest)
    (hfail : ∃ q ∈ rest, pairFails s.params q = true) : EngineReaches (engineAt s m l n j) (.next b) := by
  induction rest generalizing j l with
  | nil => obtain ⟨q, hq, -⟩ := hfail; cases hq
  | cons q rest ih =>
    obtain ⟨hq, hdrop⟩ := drop_eq_cons hrest
    have hstep := engineStep_pair hbusy hdecode herror hrefusal m l hn hq
    by_cases hf : pairFails s.params q = true
    · rw [if_pos hf, hraise] at hstep
      exact .of_last_step hstep
    · rw [if_neg hf] at hstep
      obtain ⟨q', hq', hf'⟩ := hfail
      rcases List.mem_cons.mp hq' with rfl | hmem
      · exact absurd hf' hf
      · exact .of_step hstep (ih hdrop ⟨q', hmem, hf'⟩)

/-- When its pairs answer, the engine comes to the end of output word `n`'s pairs with the lane state that the kernel's run
finishes. -/
theorem engineReaches_after_pairs (m : Memory) (l : Lanes) {n : Nat} (hn : n < (planOf i s.params).out.count)
    (hanswer : ∀ q ∈ (planOf i s.params).pairs n, pairFails s.params q = false)
    {r : Host.Outcome State Fault Refusal}
    (hr : ∀ l', (planOf i s.params).kernel.finish l' =
        (planOf i s.params).kernel.run (readPairs m ((planOf i s.params).pairs n)) l →
      EngineReaches (engineAt s m l' n ((planOf i s.params).pairs n).length) r) :
    EngineReaches (engineAt s m l n 0) r := by
  obtain ⟨q, rest, hpairs⟩ := List.exists_cons_of_ne_nil (planOf_pairs_ne_nil herror hn)
  have hq : ((planOf i s.params).pairs n)[0]? = some q := by rw [hpairs]; rfl
  refine .of_step (engineStep_pair hbusy hdecode herror hrefusal m l hn hq) ?_
  rw [hpairs] at hanswer hr
  rw [if_neg (by simp [hanswer q List.mem_cons_self])]
  refine engineReaches_pairs hbusy hdecode herror hrefusal m hn (rest := rest) (by rw [hpairs]; rfl)
    (fun q' hq' => hanswer q' (List.mem_cons_of_mem _ hq')) ?_
  rw [Nat.add_comm (0 + 1)]
  exact hr _ rfl

/-- An output word whose accesses answer is computed and written as in the atomic transition. -/
theorem engineReaches_output {n : Nat} (hn : n < (planOf i s.params).out.count)
    (hanswer : OutputAnswers (planOf i s.params) s.params n) {r : Host.Outcome State Fault Refusal}
    (hr : EngineReaches (outputStart (outputStep (planOf i s.params) s n) (n + 1)) r) :
    EngineReaches (outputStart s n) r := by
  refine engineReaches_after_pairs hbusy hdecode herror hrefusal _ _ hn hanswer.1 fun l' hl' => ?_
  refine .of_step (engineStep_write hbusy hdecode herror hrefusal _ _ hn (List.getElem?_eq_none le_rfl)) ?_
  rw [if_neg (by simp [hanswer.2]), hl']
  exact hr

/-- An output word one of whose accesses answers `ERROR` ends the command with `BUS`. -/
theorem engineReaches_bus {n : Nat} (hn : n < (planOf i s.params).out.count)
    (hfail : ¬ OutputAnswers (planOf i s.params) s.params n) :
    EngineReaches (outputStart s n) (.next (raiseBus (planOf i s.params).out s)) := by
  by_cases hpairs : ∀ q ∈ (planOf i s.params).pairs n, pairFails s.params q = false
  · have hwrite : writeFails s.params (elementAddr (planOf i s.params).out.base n) = true := by
      by_contra hw
      exact hfail ⟨hpairs, Bool.eq_false_of_not_eq_true hw⟩
    refine engineReaches_after_pairs hbusy hdecode herror hrefusal _ _ hn hpairs fun l' _ => .of_last_step ?_
    rw [engineStep_write hbusy hdecode herror hrefusal _ _ hn (List.getElem?_eq_none le_rfl), if_pos hwrite]
    rfl
  · obtain ⟨q, hq, hf⟩ : ∃ q ∈ (planOf i s.params).pairs n, pairFails s.params q = true := by simpa using hpairs
    exact engineReaches_bus_of_pair hbusy hdecode herror hrefusal _ hn (fun _ _ => rfl) List.drop_zero ⟨q, hq, hf⟩

end Engine

/-! ### All output words -/

/-- Where the engine stands, and what its lanes and the bytes of the output hold, does not matter once `BUS` is raised. -/
theorem raiseBus_eq_of_outside {out : Region} {s : State} {m : Memory} (hfit : regionEnd out ≤ 2 ^ 32)
    (hs : s.mem.wf = true) (hm : m.wf = true) (l : Lanes)
    (houtside : ∀ p, regionHas out p = false → m.readByte p = s.mem.readByte p) :
    raiseBus out { s with mem := m, lanes := l } = raiseBus out s := by
  have hmem : (freeRegion out { s with mem := m, lanes := l }).mem = (freeRegion out s).mem := by
    refine Memory.ext_of_readByte (freeRegion_mem_wf hm) (freeRegion_mem_wf hs) fun p => ?_
    by_cases hp : regionHas out p = false
    · rw [readByte_freeRegion hp, readByte_freeRegion hp]
      exact houtside p hp
    · obtain ⟨k, hk, rfl⟩ := eq_base_add_of_regionHas (Bool.eq_true_of_not_eq_false hp)
      have hend : out.base + k < 2 ^ 32 := by unfold regionEnd at hfit; omega
      rw [readByte_freeRegion_get hm hk hend, readByte_freeRegion_get hs hk hend]
  rw [freeRegion_mem, freeRegion_mem] at hmem
  unfold raiseBus freeRegion
  exact congrArg (fun m' => raiseCmdError .bus (freeGroup { s with mem := m', draws := s.draws + out.count })) hmem

/-- `BUS` after an output word was written leaves what `BUS` before it leaves (R47). -/
theorem raiseBus_outputStep {c : Plan} {s : State} {n : Nat} (hfit : regionEnd c.out ≤ 2 ^ 32) (hs : s.mem.wf = true)
    (hn : n < c.out.count) : raiseBus c.out (outputStep c s n) = raiseBus c.out s := by
  refine raiseBus_eq_of_outside hfit hs (Memory.writeWord_wf hs _ _) _ fun p hp => ?_
  rw [regionHas_eq_false] at hp
  exact Memory.readByte_writeWord_ne _ _ (by rw [elementAddr]; omega)

/-- From output word `n` on every access answers: the engine writes the remaining words and completes. -/
theorem engineReaches_complete {s : State} {i : Instr} {d n : Nat} (hbusy : s.phase = .busy)
    (hdecode : decode s.words = .command i) (herror : (planOf i s.params).error = none)
    (hrefusal : (planOf i s.params).refusal s.params = none) (hd : n + d = (planOf i s.params).out.count)
    (hanswer : ∀ k, n ≤ k → k < (planOf i s.params).out.count → OutputAnswers (planOf i s.params) s.params k) :
    EngineReaches (outputStart s n) (.next (completeOk (planOf i s.params).out
      ((List.range' n d).foldl (outputStep (planOf i s.params)) s))) := by
  induction d generalizing s n with
  | zero =>
    refine .of_last_step ?_
    rw [outputStart, engineStep_done hbusy hdecode herror hrefusal _ _ (by omega)]
    exact congrArg _ (completeOk_engineAt _ s n 0)
  | succ d ih =>
    refine engineReaches_output hbusy hdecode herror hrefusal (by omega) (hanswer n le_rfl (by omega)) ?_
    exact ih (s := outputStep (planOf i s.params) s n) hbusy hdecode herror hrefusal
      (by rw [outputStep_params]; omega) fun k hk hlt => hanswer k (by omega) hlt

/-- From output word `n` on some access answers `ERROR`: the engine ends with `BUS`. -/
theorem engineReaches_bus_from {s : State} {i : Instr} {d n : Nat} (hbusy : s.phase = .busy)
    (hdecode : decode s.words = .command i) (herror : (planOf i s.params).error = none)
    (hrefusal : (planOf i s.params).refusal s.params = none) (hs : s.mem.wf = true)
    (hd : n + d = (planOf i s.params).out.count)
    (hfail : ∃ k, n ≤ k ∧ k < (planOf i s.params).out.count ∧ ¬ OutputAnswers (planOf i s.params) s.params k) :
    EngineReaches (outputStart s n) (.next (raiseBus (planOf i s.params).out s)) := by
  induction d generalizing s n with
  | zero => obtain ⟨k, hk, hlt, -⟩ := hfail; omega
  | succ d ih =>
    have hn : n < (planOf i s.params).out.count := by omega
    by_cases hanswer : OutputAnswers (planOf i s.params) s.params n
    · obtain ⟨k, hk, hlt, hfk⟩ := hfail
      have hne : k ≠ n := fun h => hfk (h ▸ hanswer)
      refine engineReaches_output hbusy hdecode herror hrefusal hn hanswer ?_
      rw [← raiseBus_outputStep (planOf_out_fits herror).2 hs hn]
      exact ih (s := outputStep (planOf i s.params) s n) hbusy hdecode herror hrefusal (Memory.writeWord_wf hs _ _)
        (by rw [outputStep_params]; omega) ⟨k, by omega, hlt, hfk⟩
    · exact engineReaches_bus hbusy hdecode herror hrefusal hn hanswer

/-! ### The whole command -/

/-- A running command that fails its argument checks ends in one step of the engine (R100). -/
theorem engineStep_of_error {s : State} {i : Instr} {e : ErrCode} (hbusy : s.phase = .busy)
    (hdecode : decode s.words = .command i) (h : (planOf i s.params).error = some e) : engineStep s = exec i s := by
  rw [exec_of_error h, engineStep, hbusy]
  simp only [hdecode, h]

/-- A running command that a model must refuse is refused in one step of the engine (R120, R121). -/
theorem engineStep_of_refusal {s : State} {i : Instr} {r : Refusal} (hbusy : s.phase = .busy)
    (hdecode : decode s.words = .command i) (h : (planOf i s.params).error = none)
    (hr : (planOf i s.params).refusal s.params = some r) : engineStep s = exec i s := by
  rw [exec_of_refusal h hr, engineStep, hbusy]
  simp only [hdecode, h, hr]

/-- Settles O42: an error or a refusal takes one step; otherwise the output words are written one after the other up to
the first access that answers `ERROR`, and `BUS` frees what was written. -/
theorem stepwiseEngineReachesTheAtomicResult : Obligations.StepwiseEngineReachesTheAtomicResult := by
  intro s i hbusy hposition hdecode hmem
  rcases herror : (planOf i s.params).error with _ | e
  · rcases hrefusal : (planOf i s.params).refusal s.params with _ | r
    · have hstart : outputStart s 0 = s := by rw [outputStart, engineAt, ← startPosition, ← hposition]
      have houtputs := busError_eq_false_iff_outputs herror (p := s.params)
      suffices h : EngineReaches (outputStart s 0) (exec i s) by rwa [hstart] at h
      rcases hbus : (planOf i s.params).busError s.params with _ | _
      · rw [exec_of_no_busError herror hrefusal hbus, writeOutputs, List.range_eq_range']
        exact engineReaches_complete hbusy hdecode herror hrefusal (Nat.zero_add _)
          fun k _ hk => houtputs.mp hbus k hk
      · rw [exec_of_busError herror hrefusal hbus]
        refine engineReaches_bus_from hbusy hdecode herror hrefusal hmem (Nat.zero_add _) ?_
        by_contra hall
        push Not at hall
        rw [houtputs.mpr fun n hn => hall n (Nat.zero_le n) hn] at hbus
        cases hbus
    · exact EngineReaches.of_last_step (engineStep_of_refusal hbusy hdecode herror hrefusal)
  · exact EngineReaches.of_last_step (engineStep_of_error hbusy hdecode herror)

end Sys2Proof.Machine
end
